-- ==== Sys2Proof/Word.lean ====
section
/-! DEFINITION. The words of SDC-CORE: bytes, 32-bit register words, node indexes (rules R9, R12, R61). -/

namespace Sys2Proof

/-- A byte is 8 bits everywhere (R61); bytes compare as unsigned numbers (R9, R164). -/
abbrev Byte := BitVec 8

/-- A host register, an offset or a frequency: 32 bits, unsigned (R12, R104). -/
abbrev Word := BitVec 32

/-- An index of the NODE arena, the 9 bits of LEFT, RIGHT and ROOT (R42, R44). -/
abbrev NodeIdx := BitVec 9

end Sys2Proof
end

