-- ==== Sys2Proof/Syntax.lean ====
section
/-! DEFINITION. The eleven commands of the SDC-CORE command set (rule R91). A command word has no operand
fields (rule R90), so no constructor has an argument. -/

namespace Sys2Proof

/-- One constructor per row of `spec/opcode_table.json`, in the table's order. -/
inductive Instr where
  /-- 0x10 WBIT, `writeBit(bit)` (R112). -/
  | wbit
  /-- 0x11 WBYTE, `writeByte(byte)` (R114). -/
  | wbyte
  /-- 0x12 FLUSH, `flush()` (R117). -/
  | flush
  /-- 0x13 RBIT, `readBit()` (R121). -/
  | rbit
  /-- 0x14 RBYTE, `readByte()` (R126). -/
  | rbyte
  /-- 0x20 CONSTRUCT (R141). -/
  | construct
  /-- 0x21 LENGTH, `length()` (R145). -/
  | length
  /-- 0x22 SUFSTART, `suffixStart(i)` (R146). -/
  | sufstart
  /-- 0x23 RELEASE, `release()` (R147). -/
  | release
  /-- 0x30 COMPRESS (R180). -/
  | compress
  /-- 0x31 EXPAND (R220). -/
  | expand
deriving DecidableEq, Repr

end Sys2Proof
end

