-- ==== Sys2Proof/WellFormed.lean ====
section
/-! DEFINITION. What a command and its operand must satisfy to be issued as the spec's script forms write it
(rules R90, R94, R101). A command word carries no field (R90, R93), so the command alone has nothing that
could be ill formed; the operand in ARG has the range checks of R94. -/

namespace Sys2Proof

/-- No command has a field that could be out of range (R90, R93). -/
def Instr.wf : Instr → Bool
  | .wbit => true
  | .wbyte => true
  | .flush => true
  | .rbit => true
  | .rbyte => true
  | .construct => true
  | .length => true
  | .sufstart => true
  | .release => true
  | .compress => true
  | .expand => true

/-- The operand check of R94: the range ARG must lie in for the command to begin. SUFSTART's rank check is
part of its meaning, and every other command ignores ARG. -/
def Instr.operandOk (i : Instr) (arg : Word) : Bool :=
  match i with
  | .wbit => decide (arg.toNat ≤ 1)
  | .wbyte => decide (arg.toNat ≤ 255)
  | .flush => true
  | .rbit => true
  | .rbyte => true
  | .construct => true
  | .length => true
  | .sufstart => true
  | .release => true
  | .compress => true
  | .expand => true

end Sys2Proof
end

