-- ==== Sys2Proof/Decode.lean ====
section
/-! DEFINITION. Command words: the decoder and the encoder (rules R90 to R95). -/

namespace Sys2Proof

/-- Bits 7:4 of a command word (R90). -/
def unitField (w : Byte) : Nat := (w.extractLsb' 4 4).toNat

/-- Bits 3:0 of a command word (R90). -/
def fnField (w : Byte) : Nat := (w.extractLsb' 0 4).toNat

/-- A row of the opcode map of R91: UNIT, FN and the command. -/
structure OpcodeRow where
  unit : Nat
  fn : Nat
  instr : Instr
deriving DecidableEq, Repr

/-- The opcode map of R91: exactly these eleven words are defined. -/
def opcodeMap : List OpcodeRow :=
  [⟨1, 0, .wbit⟩, ⟨1, 1, .wbyte⟩, ⟨1, 2, .flush⟩, ⟨1, 3, .rbit⟩, ⟨1, 4, .rbyte⟩,
   ⟨2, 0, .construct⟩, ⟨2, 1, .length⟩, ⟨2, 2, .sufstart⟩, ⟨2, 3, .release⟩,
   ⟨3, 0, .compress⟩, ⟨3, 1, .expand⟩]

/-- Why a command word is illegal (R95). -/
inductive IllegalWord where
  /-- UNIT is none of 1 (BSC), 2 (CSS), 3 (HUF). -/
  | noSuchUnit (unit : Nat)
  /-- The unit has no operation with this FN. -/
  | noSuchOperation (unit fn : Nat)
deriving DecidableEq, Repr

/-- Decoding is total: one of the eleven commands (R91), or an illegal word, by name (R95). -/
def decode (w : Byte) : Except IllegalWord Instr :=
  match opcodeMap.find? (fun r => r.unit == unitField w && r.fn == fnField w) with
  | some r => .ok r.instr
  | none =>
    if opcodeMap.any (fun r => r.unit == unitField w) then
      .error (.noSuchOperation (unitField w) (fnField w))
    else
      .error (.noSuchUnit (unitField w))

/-- The command word of a command, written from the opcode column of R91. -/
def encode : Instr → Byte
  | .wbit => 0x10#8
  | .wbyte => 0x11#8
  | .flush => 0x12#8
  | .rbit => 0x13#8
  | .rbyte => 0x14#8
  | .construct => 0x20#8
  | .length => 0x21#8
  | .sufstart => 0x22#8
  | .release => 0x23#8
  | .compress => 0x30#8
  | .expand => 0x31#8

/-- The command this decoder reads from an opcode-table row's bits. A command word is one byte (R90), so the
row's bits above bit 7 are no part of it. -/
def decodeTableWord (nbits w : Nat) : Option Instr :=
  match decode (BitVec.ofNat 8 (w % 2 ^ nbits)) with
  | .ok i => some i
  | .error _ => none

end Sys2Proof
end

