-- ==== Sys2Proof/Config.lean ====
section
/-! DEFINITION. What is fixed for the machine (rule R10) and the free values of what the spec leaves
unspecified (rules R18, R49, R293). -/

namespace Sys2Proof

/-- Model default of NMAX, the largest block length (R10). The value of a particular machine is a field of
State, because the fixed form of a step leaves no other argument for it (DESIGN CHOICE, log 1). -/
def Config.defaultNmax : Word := 0xFFFFFFFF#32

/-- CUTOFF, the range size at or below which the sorter compares directly (R10, decided by D20). -/
def Config.cutoff : Nat := 8

/-- NODE_MAX, the number of records of the NODE arena (R10, decided by D15). -/
def Config.nodeMax : Nat := 511

/-- The things whose contents the spec calls unspecified (V1 to V4, U7). -/
inductive Unspecified where
  | ibuf | obuf | db | idx | freq
  | nodeLeaf | nodeSym | nodeFrq | nodeMinsym | nodeLeft | nodeRight
  | codeLen | codeBits | ncnt | root | live
deriving DecidableEq, Repr

/-- The free values: what an unspecified element reads as. `gen` numbers the event that left the contents
unspecified, `index` is the element, `width` its width in bits. The constant has no body, so nothing can be
proved about its value (DESIGN CHOICE, safe, log 5). -/
opaque Config.freeBits (what : Unspecified) (gen index width : Nat) : BitVec width

end Sys2Proof
end

