-- ==== Sys2Proof/Machine/State.lean ====
section
/-! DEFINITION. The state of SDC-CORE as plain data (rule R20), the reasons a step can stop, and the state
after reset (rules R291 to R294). -/

namespace Sys2Proof.Machine

/-- A memory of the spec: the elements whose contents are specified, as (index, value) pairs with strictly
rising indexes. An index that is not listed holds no specified value (R18, R49): a read of it gives a free
value that depends on `gen`, which numbers the events that left the whole memory unspecified (log 5). -/
structure Memory (α : Type) where
  cells : List (Nat × α)
  gen : Nat
deriving DecidableEq, Repr

/-- A scratch register that is unspecified at reset and after every COMPRESS and EXPAND (R40, R44, V4). -/
inductive Latch (α : Type) where
  | holds (v : α)
  | unspecified (gen : Nat)
deriving DecidableEq, Repr

/-- The error kinds a command can end with (R250). -/
inductive ErrKind where
  | indexOutOfRange
  | endOfStream
  | malformedArtifact
  | invariantViolation
  | illegalCommand
  | capacityExceeded
deriving DecidableEq, Repr

/-- A pending range of the sort: positions `lo` to `hi` of IDX, both inclusive, whose candidates agree on
their first `depth` bytes (R45, R150, R160). -/
structure SortRange where
  lo : Nat
  hi : Nat
  depth : Nat
deriving DecidableEq, Repr

/-- CSS, the circular suffix sorter: DB, IDX, SLEN, SVALID and the work stack (R32 to R34, R45). -/
structure Sorter where
  db : Memory Byte
  idx : Memory Word
  slen : Word
  svalid : Bool
  work : List SortRange
deriving DecidableEq, Repr

/-- The BSC writer: WACC, WCNT and the sink SNK (R36, R37, R47). SNK's first byte is the first one emitted. -/
structure BitWriter where
  acc : Byte
  cnt : BitVec 3
  snk : List Byte
deriving DecidableEq, Repr

/-- The BSC reader: RBUF, RCNT and the unread bytes of SRC, the next one first (R38, R39, R46). -/
structure BitReader where
  buf : Byte
  cnt : BitVec 4
  src : List Byte
deriving DecidableEq, Repr

/-- A NODE record (R42). -/
structure NodeRec where
  leaf : Bool
  sym : Byte
  frq : Word
  minsym : Byte
  left : NodeIdx
  right : NodeIdx
deriving DecidableEq, Repr

/-- The scratch of HUF: FREQ, NODE, CODE, NCNT, ROOT and LIVE (R40 to R44). An entry of CODE is CBITS, first
decision first; CLEN is its length, and 0 marks a symbol without a code (R43). -/
structure HufScratch where
  freq : Memory Word
  node : Memory NodeRec
  code : Memory (List Bool)
  ncnt : Latch (BitVec 10)
  root : Latch NodeIdx
  live : Latch (List NodeIdx)
deriving DecidableEq, Repr

/-- One move of the HOST (R300), with registers by number (R22) and FEEDSNK of the script syntax (R100). -/
inductive HostMove where
  /-- Write `v` to register `n`; register 0 is CMD, and the write runs one command. -/
  | writeReg (n : Nat) (v : Word)
  /-- Read register `n`. -/
  | readReg (n : Nat)
  /-- Write IBUF[k]. -/
  | writeIbuf (k : Nat) (v : Byte)
  /-- Read IBUF[k]. -/
  | readIbuf (k : Nat)
  /-- Read OBUF[k]. -/
  | readObuf (k : Nat)
  /-- Append bytes to SRC. -/
  | appendSrc (bytes : List Byte)
  /-- Replace SRC, dropping its unread bytes. -/
  | replaceSrc (bytes : List Byte)
  /-- Read SNK[a..b), positions counted from reset. -/
  | readSnk (a b : Nat)
  /-- Append SNK[a..b) to SRC (FEEDSNK). -/
  | feedSnk (a b : Nat)
  /-- Apply reset (R290); `src` is the SRC the HOST supplies (R294). -/
  | reset (src : List Byte)
deriving DecidableEq, Repr

/-- A value a read of the HOST returned. -/
inductive HostValue where
  | word (v : Word)
  | byte (v : Byte)
  | bytes (v : List Byte)
deriving DecidableEq, Repr

/-- The HOST as an agent: its moves still to come, the next one first, and the values its reads returned, the
oldest first (DESIGN CHOICE, log 2 and log 15; not state of SDC-CORE). -/
structure HostSide where
  script : List HostMove
  seen : List HostValue
deriving DecidableEq, Repr

/-- The complete state of SDC-CORE (R20), with the parameter NMAX (R10, log 1) and the HOST (log 2). STAT is
not a field: ERR, FATAL and EOS are stored here, and its other fields are views (R27). -/
structure State where
  arg : Word
  len : Word
  res : Word
  olen : Word
  err : Option ErrKind
  fatal : Bool
  eos : Bool
  ibuf : Memory Byte
  obuf : Memory Byte
  css : Sorter
  wr : BitWriter
  rd : BitReader
  huf : HufScratch
  nmax : Word
  host : HostSide
deriving DecidableEq, Repr

/-- The reasons a step stops. No command stops: every error the spec names ends the command in a next state
(R258). Both reasons are raised by a move of the HOST that the table of R300 does not offer. -/
inductive Fault where
  /-- A HOST read of IBUF or OBUF at an index that is not below NMAX, where no byte exists (R30, R31). Raised by
  the moves readIbuf and readObuf. Safe: the model stops where the spec gives no effect. -/
  | noSuchBufferByte
  /-- A HOST read of SNK[a..b) that reaches past the bytes emitted so far, or has a > b (R300). Raised by the
  moves readSnk and feedSnk. Safe: the model stops where the spec gives no effect. -/
  | notYetEmitted
deriving DecidableEq, Repr

/-- The reasons a step is refused. -/
inductive Refusal where
  /-- An instruction without a meaning in this model, by its mnemonic. Raised by no arm: every command of the
  table has its meaning. Safe. -/
  | notModelled (mnemonic : String)
deriving DecidableEq, Repr

/-- How a computation inside a command ends: normally with a value, or by `raise` with an error kind (R14). In
both cases the state it worked on is kept ("state changes already made by the command stay"). -/
inductive Attempt (σ α : Type) where
  | ok (a : α) (s : σ)
  | raised (k : ErrKind) (s : σ)
deriving DecidableEq, Repr

/-- A memory with unspecified contents (R293). -/
def Memory.blank (α : Type) : Memory α := { cells := [], gen := 0 }

/-- The state after reset (R291 to R294): the registers and counters 0, the sorter empty, the memories and the
scratch unspecified, SNK empty, and SRC started empty for the HOST to append to (R294, log 9). NMAX is the model
default of R10 (log 1), and the HOST has no pending move (log 4). The sort's work stack is empty, as R45 and R292 say, where the
table of R20 says unspecified (DESIGN CHOICE, log 23). -/
def State.reset : State where
  arg := 0#32
  len := 0#32
  res := 0#32
  olen := 0#32
  err := none
  fatal := false
  eos := false
  ibuf := Memory.blank Byte
  obuf := Memory.blank Byte
  css :=
    { db := Memory.blank Byte, idx := Memory.blank Word, slen := 0#32, svalid := false, work := [] }
  wr := { acc := 0#8, cnt := 0#3, snk := [] }
  rd := { buf := 0#8, cnt := 0#4, src := [] }
  huf :=
    { freq := Memory.blank Word, node := Memory.blank NodeRec, code := Memory.blank (List Bool),
      ncnt := .unspecified 0, root := .unspecified 0, live := .unspecified 0 }
  nmax := Config.defaultNmax
  host := { script := [], seen := [] }

end Sys2Proof.Machine
end

