-- ==== Sys2Proof/Machine/Ops.lean ====
section
/-! DEFINITION. The named operations over memories, scratch registers and words, and the common frame of every
command with the reporting of errors (rules R12, R14, R70, R258). -/

namespace Sys2Proof.Machine

/-! ## Memories (R70) -/

/-- The value listed for index `k`, if any. -/
def lookupCell {α : Type} : List (Nat × α) → Nat → Option α
  | [], _ => none
  | (j, v) :: rest, k => if j = k then some v else lookupCell rest k

/-- The list with `v` at index `k`, in rising order of the indexes. -/
def insertCell {α : Type} : List (Nat × α) → Nat → α → List (Nat × α)
  | [], k, v => [(k, v)]
  | (j, u) :: rest, k, v =>
    if k < j then (k, v) :: (j, u) :: rest
    else if j = k then (k, v) :: rest
    else (j, u) :: insertCell rest k v

/-- The list's indexes rise strictly, from `least` on. -/
def risingFrom {α : Type} : Nat → List (Nat × α) → Bool
  | _, [] => true
  | least, (j, _) :: rest => decide (least ≤ j) && risingFrom (j + 1) rest

/-- The list that holds `values` at the indexes `start`, `start + 1`, and so on. -/
def cellsFrom {α : Type} : Nat → List α → List (Nat × α)
  | _, [] => []
  | start, v :: rest => (start, v) :: cellsFrom (start + 1) rest

/-- The canonical form of a memory: indexes rise strictly. An unlisted index holds no value, so no entry can
repeat what an unlisted index reads as. -/
def Memory.wf {α : Type} (m : Memory α) : Bool := risingFrom 0 m.cells

/-- The specified contents of `M[k]`, if any. -/
def Memory.get? {α : Type} (m : Memory α) (k : Nat) : Option α := lookupCell m.cells k

/-- `M[k] <- v` (R70). -/
def Memory.set {α : Type} (m : Memory α) (k : Nat) (v : α) : Memory α :=
  { m with cells := insertCell m.cells k v }

/-- All contents become unspecified. -/
def Memory.forget {α : Type} (m : Memory α) : Memory α := { cells := [], gen := m.gen + 1 }

/-- `M[0..)` holds `values`, written from index 0 on, and everything else is unspecified. -/
def Memory.fill {α : Type} (m : Memory α) (values : List α) : Memory α :=
  { cells := cellsFrom 0 values, gen := m.gen + 1 }

/-! ## Reads of single elements, with the free value of an unspecified one (R49, V1 to V4) -/

/-- A byte of a byte memory. -/
def byteOr (what : Unspecified) (m : Memory Byte) (k : Nat) : Byte :=
  (m.get? k).getD (Config.freeBits what m.gen k 8)

/-- A 32-bit entry of a word memory. -/
def wordOr (what : Unspecified) (m : Memory Word) (k : Nat) : Word :=
  (m.get? k).getD (Config.freeBits what m.gen k 32)

/-- A record of NODE. -/
def nodeOr (m : Memory NodeRec) (k : Nat) : NodeRec :=
  (m.get? k).getD
    { leaf := (Config.freeBits .nodeLeaf m.gen k 1).getLsbD 0
      sym := Config.freeBits .nodeSym m.gen k 8
      frq := Config.freeBits .nodeFrq m.gen k 32
      minsym := Config.freeBits .nodeMinsym m.gen k 8
      left := Config.freeBits .nodeLeft m.gen k 9
      right := Config.freeBits .nodeRight m.gen k 9 }

/-- An entry of CODE: a free CLEN (8 bits) and that many free bits when unspecified (R43). -/
def codeOr (m : Memory (List Bool)) (k : Nat) : List Bool :=
  (m.get? k).getD
    ((List.range (Config.freeBits .codeLen m.gen k 8).toNat).map
      (fun j => (Config.freeBits .codeBits m.gen k 255).getLsbD j))

/-- IBUF[k]. -/
def State.ibufAt (s : State) (k : Nat) : Byte := byteOr .ibuf s.ibuf k

/-- OBUF[k]. -/
def State.obufAt (s : State) (k : Nat) : Byte := byteOr .obuf s.obuf k

/-- DB[k]. -/
def Sorter.dbAt (c : Sorter) (k : Nat) : Byte := byteOr .db c.db k

/-- IDX[p]. -/
def Sorter.idxAt (c : Sorter) (p : Nat) : Word := wordOr .idx c.idx p

/-- FREQ[s]. -/
def HufScratch.freqAt (h : HufScratch) (s : Byte) : Word := wordOr .freq h.freq s.toNat

/-- NODE[x]. -/
def HufScratch.nodeAt (h : HufScratch) (x : NodeIdx) : NodeRec := nodeOr h.node x.toNat

/-- CODE[s].CBITS. -/
def HufScratch.codeAt (h : HufScratch) (s : Byte) : List Bool := codeOr h.code s.toNat

/-- NCNT (R44). -/
def HufScratch.ncntVal (h : HufScratch) : BitVec 10 :=
  match h.ncnt with
  | .holds v => v
  | .unspecified g => Config.freeBits .ncnt g 0 10

/-- ROOT (R44). -/
def HufScratch.rootVal (h : HufScratch) : NodeIdx :=
  match h.root with
  | .holds v => v
  | .unspecified g => Config.freeBits .root g 0 9

/-- LIVE (R44): a set of node indexes. -/
def HufScratch.liveVal (h : HufScratch) : List NodeIdx :=
  match h.live with
  | .holds v => v
  | .unspecified g =>
    ((List.range Config.nodeMax).filter
      (fun x => (Config.freeBits .live g 0 Config.nodeMax).getLsbD x)).map (BitVec.ofNat 9)

/-- The end of COMPRESS or EXPAND leaves all HUF scratch unspecified (R40, R203, R234, V4). -/
def HufScratch.discard (h : HufScratch) : HufScratch where
  freq := h.freq.forget
  node := h.node.forget
  code := h.code.forget
  ncnt := .unspecified (h.node.gen + 1)
  root := .unspecified (h.node.gen + 1)
  live := .unspecified (h.node.gen + 1)

/-! ## Bits, bytes and words (R12, R13, R63) -/

/-- `v[7] ... v[0]` in time order: the bits of a byte as they are written and read, MSB-first (R13, R62). -/
def bitsOfByte (v : Byte) : List Bool := (List.range 8).map (fun k => v.getLsbD (7 - k))

/-- Byte `j` of a 32-bit value, byte 0 the least significant (R63). -/
def wordByte (v : Word) (j : Nat) : Byte := v.extractLsb' (8 * j) 8

/-- `b0 + 256*b1 + 65536*b2 + 16777216*b3` (R226). -/
def wordOfBytes (b0 b1 b2 b3 : Byte) : Word :=
  BitVec.ofNat 32 (b0.toNat + 256 * b1.toNat + 65536 * b2.toNat + 16777216 * b3.toNat)

/-! ## The frame of a command and the reporting of errors (R258) -/

/-- Carry on with `f` unless something was raised. -/
def Attempt.andThen {σ α β : Type} (a : Attempt σ α) (f : α → σ → Attempt σ β) : Attempt σ β :=
  match a with
  | .ok v s => f v s
  | .raised k s => .raised k s

/-- Taking an error, the "trap entry" of SDC-CORE (R258 step 5): `STAT.ERR <- code(K)`, `RES <- 0`. An
InvariantViolation also sets STAT.FATAL (R255); no command of this model raises one (R256, log 10). There is no
return from an error: the next command simply runs (R261). -/
def raiseError (k : ErrKind) (s : State) : State :=
  { s with
    err := some k
    res := 0#32
    fatal := s.fatal || decide (k = .invariantViolation) }

/-- The normal end of a command (R258 step 5): `STAT.ERR <- 0`, and RES is the command's result (R26). -/
def endNormally (result : Word) (s : State) : State := { s with err := none, res := result }

/-- The common frame of every command (R258): refuse it while FATAL = 1, clear EOS, run it, report. `body` is
the command's pseudocode; its value is what it puts in RES. -/
def runCommand (body : State → Attempt State Word) (s : State) : State :=
  if s.fatal then { s with err := some .invariantViolation, res := 0#32 }
  else
    match body { s with eos := false } with
    | .ok result t => endNormally result t
    | .raised k t => raiseError k t

/-- A command word that is none of the eleven (R95, R258 step 3). -/
def illegalWord (s : State) : State := runCommand (fun t => .raised .illegalCommand t) s

end Sys2Proof.Machine
end

