-- ==== Sys2Proof/Machine/Operands.lean ====
section
/-! DEFINITION. The operands of the commands: ARG with its range checks, LEN and the block it names, and the
capacity check (rules R24, R25, R94, R104). -/

namespace Sys2Proof.Machine

/-- The operand of WBIT: the bit ARG[0] when `ARG <= 1` (R94). -/
def State.bitOperand (s : State) : Option Bool :=
  if s.arg.toNat ≤ 1 then some (s.arg.getLsbD 0) else none

/-- The operand of WBYTE: the byte ARG[7:0] when `ARG <= 255` (R94). -/
def State.byteOperand (s : State) : Option Byte :=
  if s.arg.toNat ≤ 255 then some (s.arg.setWidth 8) else none

/-- The operand of SUFSTART: the rank `i`, all of ARG as an unsigned number (R94, R146). -/
def State.rankOperand (s : State) : Nat := s.arg.toNat

/-- The block length `n` (R25). -/
def State.blockLen (s : State) : Nat := s.len.toNat

/-- `n > NMAX` (R104, R141, R181): the block does not fit the memories. -/
def State.overCapacity (s : State) (n : Word) : Bool := decide (s.nmax.toNat < n.toNat)

/-- The block: IBUF[0], IBUF[1], ..., IBUF[n-1] (R25). -/
def State.block (s : State) : List Byte := (List.range s.blockLen).map s.ibufAt

end Sys2Proof.Machine
end

