-- ==== Sys2Proof/Machine/Bsc.lean ====
section
/-! DEFINITION. BSC, the bit stream codec: the micro-operations PutBit, PutByte, FlushBits, GetBit and GetByte, and
the commands WBIT, WBYTE, FLUSH, RBIT and RBYTE (rules R110 to R128). -/

namespace Sys2Proof.Machine

/-! ## The streams (R65 to R68) -/

/-- `SnkPut(v)`: the sink never refuses a byte (R68). -/
def BitWriter.snkPut (w : BitWriter) (v : Byte) : BitWriter := { w with snk := w.snk ++ [v] }

/-! ## Writer -/

/-- `PutBit(b)` (R111). -/
def BitWriter.putBit (w : BitWriter) (b : Bool) : BitWriter :=
  let acc := (w.acc <<< 1) ||| (BitVec.ofBool b).setWidth 8
  if w.cnt = 7#3 then
    { w.snkPut acc with acc := 0#8, cnt := 0#3 }
  else
    { w with acc := acc, cnt := w.cnt + 1#3 }

/-- PutBit of each bit in turn, the first of the list first. -/
def BitWriter.putBits (w : BitWriter) (bits : List Bool) : BitWriter := bits.foldl BitWriter.putBit w

/-- `PutByte(v)`: PutBit of v[7], v[6], ..., v[0] (R113). -/
def BitWriter.putByte (w : BitWriter) (v : Byte) : BitWriter := w.putBits (bitsOfByte v)

/-- `FlushBits()` (R116). -/
def BitWriter.flushBits (w : BitWriter) : BitWriter :=
  if w.cnt.toNat > 0 then
    { w.snkPut (w.acc <<< (8 - w.cnt.toNat)) with acc := 0#8, cnt := 0#3 }
  else w

/-! ## Reader -/

/-- The number of bits still to be delivered, `RCNT + 8*|SRC|` (R122). -/
def BitReader.bitsLeft (r : BitReader) : Nat := r.cnt.toNat + 8 * r.src.length

/-- The delivery of one buffered bit: `RCNT <- RCNT - 1; return RBUF[RCNT]` (R120). -/
def BitReader.deliver (r : BitReader) : Attempt BitReader Bool :=
  .ok (r.buf.getLsbD (r.cnt.toNat - 1)) { r with cnt := r.cnt - 1#4 }

/-- `GetBit()` (R120): the refill is lazy, and a failure leaves RBUF, RCNT and SRC unchanged. -/
def BitReader.getBit (r : BitReader) : Attempt BitReader Bool :=
  if r.cnt = 0#4 then
    match r.src with
    | [] => .raised .endOfStream r
    | v :: rest => BitReader.deliver { buf := v, cnt := 8#4, src := rest }
  else r.deliver

/-- `repeat m times: v <- ((v << 1) | GetBit())[7:0]` (R124). -/
def BitReader.getBitsInto : Nat → Byte → BitReader → Attempt BitReader Byte
  | 0, v, r => .ok v r
  | m + 1, v, r =>
    r.getBit.andThen (fun b r' =>
      BitReader.getBitsInto m ((v <<< 1) ||| (BitVec.ofBool b).setWidth 8) r')

/-- `GetByte()` (R124): it fails, with nothing consumed, when fewer than 8 bits remain. -/
def BitReader.getByte (r : BitReader) : Attempt BitReader Byte :=
  if r.bitsLeft < 8 then .raised .endOfStream r
  else BitReader.getBitsInto 8 0#8 r

/-- A reader operation inside a command: the reader's state is taken over, and an exhaustion sets STAT.EOS
(R120, R124). -/
def State.reading {α : Type} (s : State) (op : BitReader → Attempt BitReader α) : Attempt State α :=
  match op s.rd with
  | .ok v r => .ok v { s with rd := r }
  | .raised k r => .raised k { s with rd := r, eos := s.eos || decide (k = .endOfStream) }

/-! ## Commands -/

/-- The pseudocode of WBIT (R112). -/
def wbitBody (s : State) : Attempt State Word :=
  match s.bitOperand with
  | none => .raised .illegalCommand s
  | some b => .ok 0#32 { s with wr := s.wr.putBit b }

/-- The pseudocode of WBYTE (R114). -/
def wbyteBody (s : State) : Attempt State Word :=
  match s.byteOperand with
  | none => .raised .illegalCommand s
  | some v => .ok 0#32 { s with wr := s.wr.putByte v }

/-- The pseudocode of FLUSH (R117). -/
def flushBody (s : State) : Attempt State Word := .ok 0#32 { s with wr := s.wr.flushBits }

/-- The pseudocode of RBIT (R121): RES is the bit, zero-extended. -/
def rbitBody (s : State) : Attempt State Word :=
  (s.reading BitReader.getBit).andThen (fun b t => .ok ((BitVec.ofBool b).setWidth 32) t)

/-- The pseudocode of RBYTE (R126): RES is the byte, zero-extended. -/
def rbyteBody (s : State) : Attempt State Word :=
  (s.reading BitReader.getByte).andThen (fun v t => .ok (v.setWidth 32) t)

/-- WBIT, command word 0x10 (R112). -/
def execWbit (s : State) : Host.Outcome State Fault Refusal := .next (runCommand wbitBody s)

/-- WBYTE, command word 0x11 (R114). -/
def execWbyte (s : State) : Host.Outcome State Fault Refusal := .next (runCommand wbyteBody s)

/-- FLUSH, command word 0x12 (R117). -/
def execFlush (s : State) : Host.Outcome State Fault Refusal := .next (runCommand flushBody s)

/-- RBIT, command word 0x13 (R121). -/
def execRbit (s : State) : Host.Outcome State Fault Refusal := .next (runCommand rbitBody s)

/-- RBYTE, command word 0x14 (R126). -/
def execRbyte (s : State) : Host.Outcome State Fault Refusal := .next (runCommand rbyteBody s)

end Sys2Proof.Machine
end

