-- ==== Sys2Proof/Machine/Compress.lean ====
section
/-! DEFINITION. HUF, part 1: the trie builder and encoder, phase by phase on the scratch FREQ, NODE, CODE, NCNT, ROOT
and LIVE, and the command COMPRESS (rules R180 to R203). -/

namespace Sys2Proof.Machine

/-- The symbols 0 to 255 in ascending order. -/
def allSymbols : List Byte := (List.range 256).map (BitVec.ofNat 8)

/-! ## Phase 1: frequency count (R182) -/

/-- `FREQ[s] <- 0` for every symbol. -/
def HufScratch.clearFreq (h : HufScratch) : HufScratch :=
  { h with freq := h.freq.fill (List.replicate 256 0#32) }

/-- `FREQ[b] <- FREQ[b] + 1`. -/
def HufScratch.countByte (h : HufScratch) (b : Byte) : HufScratch :=
  { h with freq := h.freq.set b.toNat (h.freqAt b + 1#32) }

/-- `Phase1_Count(n)` over the bytes of the block. -/
def HufScratch.phase1Count (block : List Byte) (h : HufScratch) : HufScratch :=
  block.foldl HufScratch.countByte h.clearFreq

/-! ## Phase 2: building the trie (R184 to R190) -/

/-- The alphabet in use: the symbols with `FREQ[s] > 0`, ascending (R184). -/
def HufScratch.alphabet (h : HufScratch) : List Byte :=
  allSymbols.filter (fun s => decide (0 < (h.freqAt s).toNat))

/-- `NODE[NCNT] <- rec; add NCNT to LIVE; NCNT <- NCNT + 1`. -/
def HufScratch.addLive (h : HufScratch) (rec : NodeRec) : HufScratch :=
  { h with
    node := h.node.set h.ncntVal.toNat rec
    live := .holds (h.liveVal ++ [h.ncntVal.setWidth 9])
    ncnt := .holds (h.ncntVal + 1#10) }

/-- The leaf record of a symbol with a frequency; its MINSYM is its symbol (R42, R187). LEFT and RIGHT are valid
only in internal nodes, and are left free here. -/
def HufScratch.leafRec (h : HufScratch) (s : Byte) (frq : Word) : NodeRec where
  leaf := true
  sym := s
  frq := frq
  minsym := s
  left := Config.freeBits .nodeLeft h.node.gen h.ncntVal.toNat 9
  right := Config.freeBits .nodeRight h.node.gen h.ncntVal.toNat 9

/-- One leaf per symbol of the alphabet, ascending (R184). -/
def HufScratch.seedLeaves (h : HufScratch) : HufScratch :=
  h.alphabet.foldl (fun h s => h.addLive (h.leafRec s (h.freqAt s))) h

/-- The placeholder's symbol, the smallest byte value with frequency 0 (R185). With one symbol in use there
always is one. -/
def HufScratch.placeholder (h : HufScratch) : Byte :=
  (allSymbols.find? (fun s => decide ((h.freqAt s).toNat = 0))).getD 0#8

/-- `(FRQ, MINSYM)` of node `x` comes before that of node `y` (R187, R188). -/
def HufScratch.keyBefore (h : HufScratch) (x y : NodeIdx) : Bool :=
  let a := h.nodeAt x
  let b := h.nodeAt y
  decide (a.frq.toNat < b.frq.toNat) ||
    (decide (a.frq.toNat = b.frq.toNat) && decide (a.minsym.toNat < b.minsym.toNat))

/-- `RemoveMin()`: the member with the smallest key, and the other members (R188). -/
def HufScratch.removeMin (h : HufScratch) : List NodeIdx → Option (NodeIdx × List NodeIdx)
  | [] => none
  | x :: rest =>
    match HufScratch.removeMin h rest with
    | none => some (x, [])
    | some (y, others) => if h.keyBefore y x then some (y, x :: others) else some (x, rest)

/-- The internal node over `a`, removed first and so the LEFT child, and `b` (R189, R190). An internal node
carries no symbol (R42), so SYM is left free. -/
def HufScratch.mergeRec (h : HufScratch) (a b : NodeIdx) : NodeRec where
  leaf := false
  sym := Config.freeBits .nodeSym h.node.gen h.ncntVal.toNat 8
  frq := (h.nodeAt a).frq + (h.nodeAt b).frq
  minsym :=
    if (h.nodeAt b).minsym.toNat < (h.nodeAt a).minsym.toNat then (h.nodeAt b).minsym
    else (h.nodeAt a).minsym
  left := a
  right := b

/-- `MergeLoop()` (R189), for at most the given number of rounds; |LIVE| rounds are enough, since each but the
last lowers |LIVE| by one. -/
def HufScratch.mergeLoop : Nat → HufScratch → HufScratch
  | 0, h => h
  | rounds + 1, h =>
    match h.removeMin h.liveVal with
    | none => h
    | some (a, rest) =>
      match h.removeMin rest with
      | none => { h with root := .holds a }
      | some (b, others) =>
        HufScratch.mergeLoop rounds
          ({ h with live := .holds others }.addLive (h.mergeRec a b))

/-- `Phase2_Build()` (R184, R185). With an empty alphabet no node is built (R186). -/
def HufScratch.phase2Build (h : HufScratch) : HufScratch :=
  if h.alphabet = [] then h
  else
    let seeded := { h with ncnt := .holds 0#10, live := .holds [] }.seedLeaves
    let ready :=
      if h.alphabet.length = 1 then
        seeded.addLive (seeded.leafRec seeded.placeholder 0#32)
      else seeded
    HufScratch.mergeLoop ready.liveVal.length ready

/-! ## Phase 3: code table (R192) -/

/-- `CODE[s].CLEN <- 0` for every symbol: the empty bit string marks "no code" (R43). -/
def HufScratch.clearCode (h : HufScratch) : HufScratch :=
  { h with code := h.code.fill (List.replicate 256 []) }

/-- `Walk(x, path)` (R192), for a trie of at most the given depth. -/
def HufScratch.walk : Nat → NodeIdx → List Bool → HufScratch → HufScratch
  | 0, _, _, h => h
  | depth + 1, x, path, h =>
    if (h.nodeAt x).leaf then { h with code := h.code.set (h.nodeAt x).sym.toNat path }
    else
      HufScratch.walk depth (h.nodeAt x).right (path ++ [true])
        (HufScratch.walk depth (h.nodeAt x).left (path ++ [false]) h)

/-- `Phase3_Codes()` for a block of `n` bytes (R192). A trie is at most as deep as it has nodes. -/
def HufScratch.phase3Codes (n : Nat) (h : HufScratch) : HufScratch :=
  if n = 0 then h.clearCode
  else HufScratch.walk Config.nodeMax h.rootVal [] h.clearCode

/-! ## Phases 4 to 7: trie, length, body, flush (R194 to R199) -/

/-- `WriteNode(x)` (R194), for a trie of at most the given depth. -/
def HufScratch.writeNode (h : HufScratch) : Nat → NodeIdx → BitWriter → BitWriter
  | 0, _, w => w
  | depth + 1, x, w =>
    if (h.nodeAt x).leaf then (w.putBit true).putByte (h.nodeAt x).sym
    else
      HufScratch.writeNode h depth (h.nodeAt x).right
        (HufScratch.writeNode h depth (h.nodeAt x).left (w.putBit false))

/-- `WriteMarker()`, the trie section of the empty block (R195). -/
def BitWriter.writeMarker (w : BitWriter) : BitWriter := (w.putBit true).putByte 0#8

/-- `Phase4_WriteTrie()` for a block of `n` bytes (R194). -/
def HufScratch.phase4WriteTrie (h : HufScratch) (n : Nat) (w : BitWriter) : BitWriter :=
  if n = 0 then w.writeMarker else h.writeNode Config.nodeMax h.rootVal w

/-- `Phase5_WriteLength(n)`: the four bytes of LEN, least significant first, at the current bit position (R197). -/
def BitWriter.phase5WriteLength (n : Word) (w : BitWriter) : BitWriter :=
  (((w.putByte (wordByte n 0)).putByte (wordByte n 1)).putByte (wordByte n 2)).putByte (wordByte n 3)

/-- `Phase6_WriteBody(n)`: the code of each byte of the block, first decision first (R198). -/
def HufScratch.phase6WriteBody (h : HufScratch) (block : List Byte) (w : BitWriter) : BitWriter :=
  block.foldl (fun w b => w.putBits (h.codeAt b)) w

/-! ## The command -/

/-- Phases 1 to 3: the scratch with FREQ, NODE, ROOT and CODE of a block (R180). -/
def HufScratch.prepare (block : List Byte) (h : HufScratch) : HufScratch :=
  (h.phase1Count block).phase2Build.phase3Codes block.length

/-- Phases 4 to 7 from the prepared scratch: the artifact of the block goes to the packer (R180). -/
def HufScratch.emit (h : HufScratch) (len : Word) (block : List Byte) (w : BitWriter) : BitWriter :=
  (h.phase6WriteBody block ((h.phase4WriteTrie block.length w).phase5WriteLength len)).flushBits

/-- The pseudocode of COMPRESS (R180), with the preconditions of R181 in their order. -/
def compressBody (s : State) : Attempt State Word :=
  if s.wr.cnt ≠ 0#3 then .raised .illegalCommand s
  else if s.overCapacity s.len then .raised .capacityExceeded s
  else
    let h := s.huf.prepare s.block
    .ok 0#32 { s with wr := h.emit s.len s.block s.wr, huf := h.discard }

/-- COMPRESS, command word 0x30 (R180). -/
def execCompress (s : State) : Host.Outcome State Fault Refusal := .next (runCommand compressBody s)

end Sys2Proof.Machine
end

