-- ==== Sys2Proof/Machine/Css.lean ====
section
/-! DEFINITION. CSS, the circular suffix sorter: the 3-way multi-key quicksort on IDX with its work stack, and the
commands CONSTRUCT, LENGTH, SUFSTART and RELEASE (rules R140 to R165). -/

namespace Sys2Proof.Machine

/-! ## The sort procedure (R150 to R161) -/

/-- `At(p, d) = DB[IDX[p] + d]`, the index computed without wrap-around (R151, R152). -/
def Sorter.byteAt (c : Sorter) (p d : Nat) : Byte := c.dbAt ((c.idxAt p).toNat + d)

/-- `swap IDX[p], IDX[q]`. -/
def Sorter.swap (c : Sorter) (p q : Nat) : Sorter :=
  { c with idx := (c.idx.set p (c.idxAt q)).set q (c.idxAt p) }

/-- The loop of `Less` over `count` depths from `k` on, and the offset tie-break after it (R158). -/
def Sorter.lessFrom (c : Sorter) (a b : Nat) : Nat → Nat → Bool
  | 0, _ => decide (a < b)
  | count + 1, k =>
    let x := c.dbAt (a + k)
    let y := c.dbAt (b + k)
    if x.toNat < y.toNat then true
    else if y.toNat < x.toNat then false
    else Sorter.lessFrom c a b count (k + 1)

/-- `Less(a, b, d)` for a block of length `n` (R158). -/
def Sorter.less (c : Sorter) (n a b d : Nat) : Bool := c.lessFrom a b (n - d) d

/-- The inner loop of `SmallSort`, at position `j = lo + steps` (R157). -/
def Sorter.sink (n lo d : Nat) : Nat → Sorter → Sorter
  | 0, c => c
  | steps + 1, c =>
    if c.less n (c.idxAt (lo + steps + 1)).toNat (c.idxAt (lo + steps)).toNat d then
      Sorter.sink n lo d steps (c.swap (lo + steps + 1) (lo + steps))
    else c

/-- `SmallSort(lo, hi, d)`: insertion sort of the range (R157). -/
def Sorter.smallSort (n lo hi d : Nat) (c : Sorter) : Sorter :=
  (List.range (hi - lo)).foldl (fun c i => Sorter.sink n lo d (i + 1) c) c

/-- `OffsetSort(lo, hi)` (R159): at depth `n` no byte is left to compare, so `Less` is the order of offsets. -/
def Sorter.offsetSort (n lo hi : Nat) (c : Sorter) : Sorter := c.smallSort n lo hi n

/-- The smaller of two bytes. -/
def byteMin (a b : Byte) : Byte := if b.toNat < a.toNat then b else a

/-- The larger of two bytes. -/
def byteMax (a b : Byte) : Byte := if a.toNat < b.toNat then b else a

/-- `Pivot(lo, hi, d)`: the median of the first, middle and last candidate's byte (R154). -/
def Sorter.pivot (c : Sorter) (lo hi d : Nat) : Byte :=
  let mid := lo + (hi - lo) / 2
  let a := c.byteAt lo d
  let b := c.byteAt mid d
  let e := c.byteAt hi d
  byteMax (byteMin a b) (byteMin (byteMax a b) e)

/-- The loop of `Partition` with `todo = gt - i + 1` candidates still unexamined, so `gt = i + todo - 1` (R155).
It ends with `(lt, i)`, where `i = gt + 1`: the equal part is the positions from `lt` to `i - 1`. -/
def Sorter.partitionLoop (v : Byte) (d : Nat) : Nat → Nat → Nat → Sorter → Sorter × Nat × Nat
  | 0, lt, i, c => (c, lt, i)
  | todo + 1, lt, i, c =>
    let t := c.byteAt i d
    if t.toNat < v.toNat then Sorter.partitionLoop v d todo (lt + 1) (i + 1) (c.swap lt i)
    else if v.toNat < t.toNat then Sorter.partitionLoop v d todo lt i (c.swap i (i + todo))
    else Sorter.partitionLoop v d todo lt (i + 1) c

/-- `Partition(lo, hi, d, v)` (R155): the sorter, `lt` and `gt + 1`. -/
def Sorter.partition (c : Sorter) (lo hi d : Nat) (v : Byte) : Sorter × Nat × Nat :=
  Sorter.partitionLoop v d (hi - lo + 1) lo lo c

/-- Push a pending range; only ranges of at least two candidates need be pushed (R160). The range is the
positions from `lo` up to, not including, `stop`. -/
def pushRange (lo stop depth : Nat) (work : List SortRange) : List SortRange :=
  if lo + 1 < stop then { lo := lo, hi := stop - 1, depth := depth } :: work else work

/-- One `Sort(lo, hi, d)` on the range just popped, its recursive calls left on the work stack (R153, R160). -/
def Sorter.sortStep (cutoff n : Nat) (r : SortRange) (c : Sorter) : Sorter :=
  if r.hi ≤ r.lo then c
  else if n ≤ r.depth then c.offsetSort n r.lo r.hi
  else if r.hi - r.lo + 1 ≤ cutoff then c.smallSort n r.lo r.hi r.depth
  else
    let v := c.pivot r.lo r.hi r.depth
    let (c', lt, stop) := c.partition r.lo r.hi r.depth v
    { c' with
      work :=
        pushRange r.lo lt r.depth
          (pushRange lt stop (r.depth + 1) (pushRange stop (r.hi + 1) r.depth c'.work)) }

/-- Work off the stack, for at most the given number of pops (R160). -/
def Sorter.sortRun (cutoff n : Nat) : Nat → Sorter → Sorter
  | 0, c => c
  | pops + 1, c =>
    match c.work with
    | [] => c
    | r :: rest => Sorter.sortRun cutoff n pops (Sorter.sortStep cutoff n r { c with work := rest })

/-- A number of pops that is always enough: a pending range of `m` candidates at depth `d` weighs
`m * (n + 1 - d)`, the first one `n * (n + 1)`, and every pop lowers the sum of the weights (R156). -/
def enoughPops (n : Nat) : Nat := n * (n + 1)

/-- DB and IDX as CONSTRUCT loads them before the sort: `DB = B ++ B` and `IDX[k] = k` (R141, R32), with the whole
range pending. Nothing is pending for fewer than two candidates, where `Sort` returns at once (R153, R160). -/
def Sorter.load (block : List Byte) (c : Sorter) : Sorter where
  db := c.db.fill (block ++ block)
  idx := c.idx.fill ((List.range block.length).map (BitVec.ofNat 32))
  slen := 0#32
  svalid := false
  work := pushRange 0 block.length 0 []

/-- CONSTRUCT's work on the sorter, for any CUTOFF (R141, R163). -/
def Sorter.build (cutoff : Nat) (block : List Byte) (c : Sorter) : Sorter :=
  let n := block.length
  { Sorter.sortRun cutoff n (enoughPops n) (c.load block) with
    slen := BitVec.ofNat 32 n
    svalid := true }

/-! ## Commands -/

/-- The pseudocode of CONSTRUCT (R141). -/
def constructBody (s : State) : Attempt State Word :=
  if s.overCapacity s.len then .raised .capacityExceeded s
  else .ok 0#32 { s with css := s.css.build Config.cutoff s.block }

/-- The pseudocode of LENGTH (R145). -/
def lengthBody (s : State) : Attempt State Word := .ok s.css.slen s

/-- The pseudocode of SUFSTART (R146). -/
def sufstartBody (s : State) : Attempt State Word :=
  if s.css.slen.toNat ≤ s.rankOperand then .raised .indexOutOfRange s
  else .ok (s.css.idxAt s.rankOperand) s

/-- `SLEN <- 0; SVALID <- 0; DB, IDX <- unspecified` (R147). -/
def Sorter.drop (c : Sorter) : Sorter :=
  { c with db := c.db.forget, idx := c.idx.forget, slen := 0#32, svalid := false }

/-- The pseudocode of RELEASE (R147). -/
def releaseBody (s : State) : Attempt State Word := .ok 0#32 { s with css := s.css.drop }

/-- CONSTRUCT, command word 0x20 (R141). -/
def execConstruct (s : State) : Host.Outcome State Fault Refusal := .next (runCommand constructBody s)

/-- LENGTH, command word 0x21 (R145). -/
def execLength (s : State) : Host.Outcome State Fault Refusal := .next (runCommand lengthBody s)

/-- SUFSTART, command word 0x22 (R146). -/
def execSufstart (s : State) : Host.Outcome State Fault Refusal := .next (runCommand sufstartBody s)

/-- RELEASE, command word 0x23 (R147). -/
def execRelease (s : State) : Host.Outcome State Fault Refusal := .next (runCommand releaseBody s)

end Sys2Proof.Machine
end

