-- ==== Sys2Proof/Machine/Expand.lean ====
section
/-! DEFINITION. HUF, part 2: the trie reader and decoder, and the command EXPAND (rules R220 to R234). -/

namespace Sys2Proof.Machine

/-- What the phases of EXPAND work on: the bit reader and the HUF scratch. -/
structure Decoder where
  rd : BitReader
  huf : HufScratch
deriving DecidableEq, Repr

/-- A reader operation of EXPAND. -/
def Decoder.reading {α : Type} (d : Decoder) (op : BitReader → Attempt BitReader α) : Attempt Decoder α :=
  match op d.rd with
  | .ok v r => .ok v { d with rd := r }
  | .raised k r => .raised k { d with rd := r }

/-! ## Phase 1: trie deserialization (R223 to R225) -/

/-- A leaf record as EXPAND stores it: FRQ and MINSYM are not set (R225, U7), and LEFT and RIGHT are not valid
in a leaf (R42); all four are left free (log 16). -/
def HufScratch.readLeafRec (h : HufScratch) (x : NodeIdx) (s : Byte) : NodeRec where
  leaf := true
  sym := s
  frq := Config.freeBits .nodeFrq h.node.gen x.toNat 32
  minsym := Config.freeBits .nodeMinsym h.node.gen x.toNat 8
  left := Config.freeBits .nodeLeft h.node.gen x.toNat 9
  right := Config.freeBits .nodeRight h.node.gen x.toNat 9

/-- An internal record as EXPAND stores it: SYM, FRQ and MINSYM are left free (R42, R225, U7, log 16). -/
def HufScratch.readInnerRec (h : HufScratch) (x l r : NodeIdx) : NodeRec where
  leaf := false
  sym := Config.freeBits .nodeSym h.node.gen x.toNat 8
  frq := Config.freeBits .nodeFrq h.node.gen x.toNat 32
  minsym := Config.freeBits .nodeMinsym h.node.gen x.toNat 8
  left := l
  right := r

/-- `NODE[x] <- rec`. -/
def Decoder.setNode (d : Decoder) (x : NodeIdx) (rec : NodeRec) : Decoder :=
  { d with huf := { d.huf with node := d.huf.node.set x.toNat rec } }

/-- `x <- NCNT; NCNT <- NCNT + 1`, the second half of it (R223). -/
def Decoder.allocate (d : Decoder) : Decoder :=
  { d with huf := { d.huf with ncnt := .holds (d.huf.ncntVal + 1#10) } }

/-- `ReadNode()` (R223), its recursion at most the given number of frames deep. Each frame has allocated a
record, so NODE_MAX frames are enough: one frame more would find the arena full, which is the error of R224. -/
def Decoder.readNode : Nat → Decoder → Attempt Decoder NodeIdx
  | 0, d => .raised .malformedArtifact d
  | frames + 1, d =>
    if Config.nodeMax ≤ d.huf.ncntVal.toNat then .raised .malformedArtifact d
    else
      let x : NodeIdx := d.huf.ncntVal.setWidth 9
      (d.allocate.reading BitReader.getBit).andThen fun f d =>
        if f then
          (d.reading BitReader.getByte).andThen fun s d =>
            .ok x (d.setNode x (d.huf.readLeafRec x s))
        else
          (Decoder.readNode frames d).andThen fun l d =>
            (Decoder.readNode frames d).andThen fun r d =>
              .ok x (d.setNode x (d.huf.readInnerRec x l r))

/-! ## Phase 2: length (R226) -/

/-- `ReadLength()` (R226). -/
def Decoder.readLength (d : Decoder) : Attempt Decoder Word :=
  (d.reading BitReader.getByte).andThen fun b0 d =>
    (d.reading BitReader.getByte).andThen fun b1 d =>
      (d.reading BitReader.getByte).andThen fun b2 d =>
        (d.reading BitReader.getByte).andThen fun b3 d =>
          .ok (wordOfBytes b0 b1 b2 b3) d

/-! ## Phases 3 and 4: decoding the body (R229, R230) -/

/-- The decode walk from node `x`, over at most the given number of bits (R230). Every step but the last reads
a bit, so the number of bits that remain is enough: one bit more is an EndOfStream. -/
def HufScratch.decodeFrom (h : HufScratch) : Nat → NodeIdx → BitReader → Attempt BitReader Byte
  | bits, x, r =>
    if (h.nodeAt x).leaf then .ok (h.nodeAt x).sym r
    else
      r.getBit.andThen fun b r =>
        match bits with
        | 0 => .raised .endOfStream r
        | bits + 1 =>
          HufScratch.decodeFrom h bits (if b then (h.nodeAt x).right else (h.nodeAt x).left) r

/-- The loop of `DecodeBody` over `count` symbols: the bytes for OBUF, in order (R230). -/
def HufScratch.decodeSymbols (h : HufScratch) : Nat → BitReader → Attempt BitReader (List Byte)
  | 0, r => .ok [] r
  | count + 1, r =>
    (h.decodeFrom r.bitsLeft h.rootVal r).andThen fun b r =>
      (HufScratch.decodeSymbols h count r).andThen fun rest r => .ok (b :: rest) r

/-- `DecodeBody(len)` (R229, R230). -/
def Decoder.decodeBody (len : Nat) (d : Decoder) : Attempt Decoder (List Byte) :=
  if (d.huf.nodeAt d.huf.rootVal).leaf then
    if len ≠ 0 then .raised .malformedArtifact d else .ok [] d
  else d.reading (d.huf.decodeSymbols len)

/-! ## The command -/

/-- `NCNT <- 0` (R222). -/
def HufScratch.startRead (h : HufScratch) : HufScratch := { h with ncnt := .holds 0#10 }

/-- `ROOT <- x`. -/
def Decoder.setRoot (d : Decoder) (x : NodeIdx) : Decoder :=
  { d with huf := { d.huf with root := .holds x } }

/-- The `try` block of EXPAND (R220): the declared length and the decoded bytes. -/
def Decoder.readArtifact (nmax : Word) (d : Decoder) : Attempt Decoder (Word × List Byte) :=
  (Decoder.readNode Config.nodeMax d).andThen fun x d =>
    (d.setRoot x).readLength.andThen fun len d =>
      if nmax.toNat < len.toNat then .raised .capacityExceeded d
      else (d.decodeBody len.toNat).andThen fun out d => .ok (len, out) d

/-- The kind EXPAND reports: an exhaustion of the stream becomes MalformedArtifact (R232). -/
def expandKind (k : ErrKind) : ErrKind := if k = .endOfStream then .malformedArtifact else k

/-- `RCNT <- 0` (R231, R232): the unread bits of RBUF are discarded. -/
def BitReader.dropBits (r : BitReader) : BitReader := { r with cnt := 0#4 }

/-- The pseudocode of EXPAND (R220) with the precondition of R221 and the error path of R232. OBUF holds the
decoded bytes and is unspecified above them, or as a whole after an error (R31). -/
def expandBody (s : State) : Attempt State Word :=
  if s.rd.cnt ≠ 0#4 then .raised .illegalCommand s
  else
    match Decoder.readArtifact s.nmax { rd := s.rd, huf := s.huf.startRead } with
    | .ok (len, out) d =>
      .ok 0#32
        { s with
          rd := d.rd.dropBits
          huf := d.huf.discard
          obuf := s.obuf.fill out
          olen := len }
    | .raised k d =>
      .raised (expandKind k)
        { s with
          rd := d.rd.dropBits
          huf := d.huf.discard
          obuf := s.obuf.forget
          olen := 0#32
          eos := s.eos || decide (k = .endOfStream) }

/-- EXPAND, command word 0x31 (R220). -/
def execExpand (s : State) : Host.Outcome State Fault Refusal := .next (runCommand expandBody s)

end Sys2Proof.Machine
end

