-- ==== Sys2Proof/Machine/Dispatch.lean ====
section
/-! DEFINITION. The one match from commands to their meanings. -/

namespace Sys2Proof.Machine

def exec (i : Instr) (s : State) : Host.Outcome State Fault Refusal :=
  match i with
  | .wbit => Sys2Proof.Machine.execWbit s
  | .wbyte => Sys2Proof.Machine.execWbyte s
  | .flush => Sys2Proof.Machine.execFlush s
  | .rbit => Sys2Proof.Machine.execRbit s
  | .rbyte => Sys2Proof.Machine.execRbyte s
  | .construct => Sys2Proof.Machine.execConstruct s
  | .length => Sys2Proof.Machine.execLength s
  | .sufstart => Sys2Proof.Machine.execSufstart s
  | .release => Sys2Proof.Machine.execRelease s
  | .compress => Sys2Proof.Machine.execCompress s
  | .expand => Sys2Proof.Machine.execExpand s

end Sys2Proof.Machine
end

