-- ==== Sys2Proof/Machine/Flags.lean ====
section
/-! DEFINITION. The status register STAT: error codes, and the register as a view of the state (rules R27, R250),
with the host-visible register file (rule R22). -/

namespace Sys2Proof.Machine

/-- The ERR code of an error kind (R250). -/
def ErrKind.code : ErrKind → BitVec 4
  | .indexOutOfRange => 1#4
  | .endOfStream => 2#4
  | .malformedArtifact => 3#4
  | .invariantViolation => 4#4
  | .illegalCommand => 5#4
  | .capacityExceeded => 6#4

/-- STAT.ERR: 0 when the most recent command ended normally (R27, R250). -/
def State.errCode (s : State) : BitVec 4 :=
  match s.err with
  | none => 0#4
  | some k => k.code

/-- One flag as a bit. -/
def flagBit (b : Bool) : BitVec 1 := BitVec.ofBool b

/-- STAT (R27): bits 31:16 reserved, 15:12 RCNT, 11 reserved, 10:8 WCNT, 7 reserved, 6 EOS, 5 FATAL, 4 SVALID,
3:0 ERR. The reserved bits read 0 (R96). -/
def State.stat (s : State) : Word :=
  0#16 ++ s.rd.cnt ++ 0#1 ++ s.wr.cnt ++ 0#1 ++ flagBit s.eos ++ flagBit s.fatal ++
    flagBit s.css.svalid ++ s.errCode

/-- What a HOST read of register `n` returns (R22): CMD and the numbers 6 and above read 0. -/
def State.readReg (s : State) (n : Nat) : Word :=
  match n with
  | 1 => s.arg
  | 2 => s.len
  | 3 => s.res
  | 4 => s.stat
  | 5 => s.olen
  | _ => 0#32

/-- The effect of a HOST write to a register other than CMD (R22, R300): ARG and LEN take the value, and a write
to a read-only register or to a number that does not exist is ignored. -/
def State.writeReg (s : State) (n : Nat) (v : Word) : State :=
  match n with
  | 1 => { s with arg := v }
  | 2 => { s with len := v }
  | _ => s

end Sys2Proof.Machine
end

