-- ==== Sys2Proof/Machine/HostMoves.lean ====
section
/-! DEFINITION. The moves of the HOST (rules R22, R23, R300) and reset (rules R290 to R294). -/

namespace Sys2Proof.Machine

/-- A write of command word `w` to CMD executes one command (R23, R258); a word that is none of the eleven is
illegal (R95). -/
def issue (w : Byte) (s : State) : Host.Outcome State Fault Refusal :=
  match decode w with
  | .ok i => exec i s
  | .error _ => .next (illegalWord s)

/-- The HOST receives a value. -/
def State.see (s : State) (v : HostValue) : State :=
  { s with host := { s.host with seen := s.host.seen ++ [v] } }

/-- The bytes SNK[a..b), if all of them have been emitted (R300). -/
def State.snkSlice (s : State) (a b : Nat) : Option (List Byte) :=
  if a ≤ b ∧ b ≤ s.wr.snk.length then some ((s.wr.snk.drop a).take (b - a)) else none

/-- IBUF and OBUF have the indexes below NMAX (R30, R31). -/
def State.hasIndex (s : State) (k : Nat) : Bool := decide (k < s.nmax.toNat)

/-- Reset (R290 to R294): every register and counter 0, memories and scratch unspecified once more, SNK empty, SRC
as the HOST supplies it. NMAX is fixed for the machine, and the HOST is outside it. -/
def State.afterReset (s : State) (src : List Byte) : State :=
  { State.reset with
    ibuf := s.ibuf.forget
    obuf := s.obuf.forget
    css := { State.reset.css with db := s.css.db.forget, idx := s.css.idx.forget }
    rd := { State.reset.rd with src := src }
    huf := s.huf.discard
    nmax := s.nmax
    host := s.host }

/-- The effect of one move of the HOST (R300). A write to an index of IBUF that does not exist stores nothing: vector H19
loads five bytes with NMAX = 4 and goes on (log 14). -/
def hostMove (m : HostMove) (s : State) : Host.Outcome State Fault Refusal :=
  match m with
  | .writeReg n v => if n = 0 then issue (v.setWidth 8) s else .next (s.writeReg n v)
  | .readReg n => .next (s.see (.word (s.readReg n)))
  | .writeIbuf k v =>
    if s.hasIndex k then .next { s with ibuf := s.ibuf.set k v } else .next s
  | .readIbuf k =>
    if s.hasIndex k then .next (s.see (.byte (s.ibufAt k))) else .fault .noSuchBufferByte
  | .readObuf k =>
    if s.hasIndex k then .next (s.see (.byte (s.obufAt k))) else .fault .noSuchBufferByte
  | .appendSrc bytes => .next { s with rd := { s.rd with src := s.rd.src ++ bytes } }
  | .replaceSrc bytes => .next { s with rd := { s.rd with src := bytes } }
  | .readSnk a b =>
    match s.snkSlice a b with
    | some bytes => .next (s.see (.bytes bytes))
    | none => .fault .notYetEmitted
  | .feedSnk a b =>
    match s.snkSlice a b with
    | some bytes => .next { s with rd := { s.rd with src := s.rd.src ++ bytes } }
    | none => .fault .notYetEmitted
  | .reset src => .next (s.afterReset src)

/-- The HOST makes its next move; without one the engine is idle and keeps all state (R266). -/
def hostStep (s : State) : Host.Outcome State Fault Refusal :=
  match s.host.script with
  | [] => .next s
  | m :: rest => hostMove m { s with host := { s.host with script := rest } }

/-- The HOST's next move is the write of command word `w` to CMD; its other moves follow. -/
def State.withCommand (s : State) (w : Byte) : State :=
  { s with host := { s.host with script := .writeReg 0 (w.setWidth 32) :: s.host.script } }

end Sys2Proof.Machine
end

