-- ==== Sys2Proof/Machine/Step.lean ====
section
/-! DEFINITION. One step of the machine: the next move of the HOST, one command at most (rules R3, R4, R300). -/

namespace Sys2Proof.Machine

/-- One step: the HOST's next move. A command is one atomic step (R4). -/
def step (s : State) : Host.Outcome State Fault Refusal := hostStep s

/-- `s` with the command word `w` as the HOST's next write to CMD, where a step takes its command from. A command
word is one byte (R90). -/
def State.withFetchWord (s : State) (nbits w : Nat) : State := s.withCommand (BitVec.ofNat 8 (w % 2 ^ nbits))

end Sys2Proof.Machine
end

