-- ==== Sys2Proof/Machine/Script.lean ====
section
/-! DEFINITION. The host script syntax: its statements as moves of the HOST (rules R100 to R103). -/

namespace Sys2Proof.Machine

/-- `SET ARG, v` (R100): a write of register 1. -/
def scriptSetArg (v : Word) : List HostMove := [.writeReg 1 v]

/-- `SET LEN, v` (R100): a write of register 2. -/
def scriptSetLen (v : Word) : List HostMove := [.writeReg 2 v]

/-- `PUT IBUF, k, bytes` (R100). -/
def scriptPut : Nat → List Byte → List HostMove
  | _, [] => []
  | k, v :: rest => .writeIbuf k v :: scriptPut (k + 1) rest

/-- `FEED bytes` (R100). -/
def scriptFeed (bytes : List Byte) : List HostMove := [.appendSrc bytes]

/-- `FEEDSNK a, b` (R100). -/
def scriptFeedSnk (a b : Nat) : List HostMove := [.feedSnk a b]

/-- `GET RES`, `GET STAT` or `GET OLEN` (R100), by the register's number. -/
def scriptGetReg (n : Nat) : List HostMove := [.readReg n]

/-- `GET OBUF, a, b` (R100). -/
def scriptGetObuf (a b : Nat) : List HostMove := (List.range' a (b - a)).map .readObuf

/-- `GET SNK, a, b` (R100). -/
def scriptGetSnk (a b : Nat) : List HostMove := [.readSnk a b]

/-- `CMD op` (R100). -/
def scriptCmd (op : Byte) : List HostMove := [.writeReg 0 (op.setWidth 32)]

/-- A mnemonic alone on a line stands for `CMD` with its opcode (R101). -/
def scriptCommand (i : Instr) : List HostMove := scriptCmd (encode i)

/-- `WBIT b`, `WBYTE v` and `SUFSTART i`: `SET ARG` and then the command (R101). -/
def scriptWithArg (i : Instr) (v : Word) : List HostMove := scriptSetArg v ++ scriptCommand i

/-- `LOAD bytes` (R102). -/
def scriptLoad (bytes : List Byte) : List HostMove :=
  scriptPut 0 bytes ++ scriptSetLen (BitVec.ofNat 32 bytes.length)

/-- `COMPRESSB bytes` (R102). -/
def scriptCompressB (bytes : List Byte) : List HostMove := scriptLoad bytes ++ scriptCommand .compress

/-- `EXPANDB bytes` (R102). -/
def scriptExpandB (bytes : List Byte) : List HostMove := scriptFeed bytes ++ scriptCommand .expand

/-- Moves of the HOST one after the other (R300). -/
def runMoves : List HostMove → State → Host.Outcome State Fault Refusal
  | [], s => .next s
  | m :: rest, s =>
    match hostMove m s with
    | .next t => runMoves rest t
    | .fault f => .fault f
    | .refused r => .refused r

/-- `SUFFIXARRAY bytes` as far as its LENGTH, whose RES the HOST reads (R102). -/
def scriptSuffixArrayHead (bytes : List Byte) : List HostMove :=
  scriptLoad bytes ++ scriptCommand .construct ++ scriptCommand .length ++ scriptGetReg 3

/-- The rounds of `SUFFIXARRAY`: `SUFSTART i` for i = 0 .. n-1, each with a read of its RES (R102). -/
def scriptSuffixStarts (n : Word) : List HostMove :=
  (List.range n.toNat).flatMap (fun i => scriptWithArg .sufstart (BitVec.ofNat 32 i) ++ scriptGetReg 3)

/-- `SUFFIXARRAY bytes` as the moves of a HOST that begins in state `s` (R102): it has as many rounds as the RES of its
LENGTH says, and these are not the bytes loaded when CONSTRUCT or every command is refused. -/
def scriptSuffixArray (bytes : List Byte) (s : State) : List HostMove :=
  scriptSuffixArrayHead bytes ++
    match runMoves (scriptSuffixArrayHead bytes) s with
    | .next t => scriptSuffixStarts t.res
    | .fault _ => []
    | .refused _ => []

/-- `WBITS "0110..."` (R102). -/
def scriptWbits (bits : List Bool) : List HostMove :=
  bits.flatMap (fun b => scriptWithArg .wbit ((BitVec.ofBool b).setWidth 32))

end Sys2Proof.Machine
end

