-- ==== Sys2Proof/Safety.lean ====
section
/-! DEFINITION. The terms the claims use: the order of circular suffixes (rules R15, R140, R143), bit strings and their
packing (rules R13, R62, R119), tries and artifacts (rules R17, R97 to R99), and the invariant of the machine. -/

namespace Sys2Proof.Machine

/-! ## Circular suffixes -/

/-- Lexicographic order on byte sequences of equal length, bytes as unsigned numbers (R15). -/
def ByteLexLt (u v : List Byte) : Prop :=
  ∃ k, k < u.length ∧ k < v.length ∧ (∀ j, j < k → u[j]? = v[j]?) ∧
    (u.getD k 0#8).toNat < (v.getD k 0#8).toNat

/-- The circular suffix at offset `o`: `B[o], ..., B[n-1], B[0], ..., B[o-1]` (R140). -/
def rotation (block : List Byte) (o : Nat) : List Byte := block.drop o ++ block.take o

/-- The order on the sort keys `(rot(o), o)` (R140). -/
def KeyLt (block : List Byte) (a b : Nat) : Prop :=
  ByteLexLt (rotation block a) (rotation block b) ∨ (rotation block a = rotation block b ∧ a < b)

/-- The suffix array of a block: every offset exactly once, strictly increasing in the key order (R143). -/
def IsSuffixArray (block : List Byte) (idx : List Nat) : Prop :=
  idx.Perm (List.range block.length) ∧
    ∀ i a b, idx[i]? = some a → idx[i + 1]? = some b → KeyLt block a b

/-- `IDX[0..SLEN)` as numbers: what SUFSTART returns for the ranks 0, 1, and so on. -/
def Sorter.ranks (c : Sorter) : List Nat := (List.range c.slen.toNat).map (fun p => (c.idxAt p).toNat)

/-- DB holds `B ++ B` and IDX holds `n` offsets, and nothing else of either is specified (R32, R33). -/
def Sorter.Holds (c : Sorter) (block : List Byte) : Prop :=
  c.slen.toNat = block.length ∧ c.db.cells = cellsFrom 0 (block ++ block) ∧
    ∃ offsets, c.idx.cells = cellsFrom 0 offsets ∧ offsets.length = block.length

/-! ## Bit strings -/

/-- The bits of a byte sequence in time order: each byte MSB-first (R13, R62). -/
def bitsOfBytes (bytes : List Byte) : List Bool := bytes.flatMap bitsOfByte

/-- Byte `j` of the packing of a bit string: the sum over k = 0..7 of `b(8j+k) * 2^(7-k)`, with 0 for the bits past
the end (R119). -/
def packedByte (bits : List Bool) (j : Nat) : Byte :=
  BitVec.ofNat 8 ((List.range 8).map (fun k => if bits.getD (8 * j + k) false then 2 ^ (7 - k) else 0)).sum

/-- A bit string packed MSB-first into `ceil(m / 8)` bytes, zero-padded (R62, R97, R119). -/
def packed (bits : List Bool) : List Byte := (List.range ((bits.length + 7) / 8)).map (packedByte bits)

/-- `m` calls of GetBit: the bits they return, first one first. -/
def BitReader.getBits : Nat → BitReader → Attempt BitReader (List Bool)
  | 0, r => .ok [] r
  | m + 1, r =>
    r.getBit.andThen fun b r => (BitReader.getBits m r).andThen fun rest r => .ok (b :: rest) r

/-- The bits a reader has still to deliver, in order: the RCNT low bits of RBUF, the highest first, and then the
bits of SRC (R122). -/
def BitReader.pendingBits (r : BitReader) : List Bool :=
  ((List.range r.cnt.toNat).map (fun k => r.buf.getLsbD (r.cnt.toNat - 1 - k))) ++ bitsOfBytes r.src

/-! ## Tries and artifacts -/

/-- A Huffman trie: a full binary tree whose leaves are alphabet symbols (R16, R17). -/
inductive Trie where
  | leaf (sym : Byte)
  | node (left right : Trie)
deriving DecidableEq, Repr

/-- The trie section of an artifact (R98): a leaf is '1' and its symbol, an internal node is '0', then its left and
its right subtree. -/
def Trie.section : Trie → List Bool
  | .leaf s => true :: bitsOfByte s
  | .node l r => false :: (l.section ++ r.section)

/-- The leaves' symbols, from left to right. -/
def Trie.symbols : Trie → List Byte
  | .leaf s => [s]
  | .node l r => l.symbols ++ r.symbols

/-- The number of nodes. -/
def Trie.size : Trie → Nat
  | .leaf _ => 1
  | .node l r => l.size + r.size + 1

/-- The node records of a trie section in the order they are read (R98, R223): a leaf's symbol, or none for an internal
node. -/
def Trie.records : Trie → List (Option Byte)
  | .leaf s => [some s]
  | .node l r => none :: (l.records ++ r.records)

/-- The bits of one node record (R98). -/
def recordBits : Option Byte → List Bool
  | some s => true :: bitsOfByte s
  | none => [false]

/-- The root is an internal node. -/
def Trie.branches : Trie → Bool
  | .leaf _ => false
  | .node _ _ => true

/-- The number of edges from the root to the deepest leaf. -/
def Trie.depth : Trie → Nat
  | .leaf _ => 0
  | .node l r => max l.depth r.depth + 1

/-- The path from the root to the (first) leaf of a symbol, 0 for left and 1 for right (R192). -/
def Trie.codeOf : Trie → Byte → Option (List Bool)
  | .leaf s, b => if b = s then some [] else none
  | .node l r, b =>
    match l.codeOf b with
    | some path => some (false :: path)
    | none => (r.codeOf b).map (fun path => true :: path)

/-- The symbol of the leaf a root-to-leaf path ends in, left on 0 and right on 1; `none` when the path ends in an
internal node or goes on below a leaf (R17, R230). -/
def Trie.follow : Trie → List Bool → Option Byte
  | .leaf s, [] => some s
  | .leaf _, _ :: _ => none
  | .node _ _, [] => none
  | .node l r, b :: rest => if b then r.follow rest else l.follow rest

/-- The length field: the four bytes of `n`, least significant first, each MSB-first (R99). -/
def lengthBits (n : Word) : List Bool :=
  bitsOfBytes [wordByte n 0, wordByte n 1, wordByte n 2, wordByte n 3]

/-- The trie section of the empty block: the marker leaf (R98, R195). -/
def markerBits : List Bool := true :: bitsOfByte 0#8

/-- `T ++ N ++ Y` of a trie, a length and the codes of the symbols in order (R97). -/
def artifactBits (trie : Trie) (n : Word) (codes : List (List Bool)) : List Bool :=
  trie.section ++ lengthBits n ++ codes.flatten

/-- The subtree at node `x` of the NODE arena is the trie: the records of its nodes are those of R42. -/
def HufScratch.HasTrie (h : HufScratch) : NodeIdx → Trie → Prop
  | x, .leaf s => (h.nodeAt x).leaf = true ∧ (h.nodeAt x).sym = s
  | x, .node l r =>
    (h.nodeAt x).leaf = false ∧ h.HasTrie (h.nodeAt x).left l ∧ h.HasTrie (h.nodeAt x).right r

/-- Every code is a path of the trie to the symbol beside it (R97, R230). -/
def CodesOf (t : Trie) (codes : List (List Bool)) (syms : List Byte) : Prop :=
  List.Forall₂ (fun c s => t.follow c = some s) codes syms

/-! ## The Huffman trie of a block, on trees instead of the arena (rules R184 to R190) -/

/-- A subtree that waits to be merged, with its key (R187). -/
structure Weighted where
  frq : Nat
  minsym : Nat
  trie : Trie
deriving DecidableEq, Repr

/-- The order of the keys (R188). -/
def Weighted.before (x y : Weighted) : Bool :=
  decide (x.frq < y.frq) || (decide (x.frq = y.frq) && decide (x.minsym < y.minsym))

/-- `x` put into a queue that is in key order. -/
def enqueue (x : Weighted) : List Weighted → List Weighted
  | [] => [x]
  | y :: rest => if x.before y then x :: y :: rest else y :: enqueue x rest

/-- The internal node over the two subtrees removed, the first one on the left (R189, R190). -/
def Weighted.join (a b : Weighted) : Weighted where
  frq := a.frq + b.frq
  minsym := min a.minsym b.minsym
  trie := .node a.trie b.trie

/-- Merge the two first subtrees of the queue until one is left, in at most the given number of rounds (R189). An
empty queue gives the marker leaf (R195). -/
def mergeQueue : Nat → List Weighted → Trie
  | rounds + 1, a :: b :: rest => mergeQueue rounds (enqueue (a.join b) rest)
  | _, a :: _ => a.trie
  | _, [] => .leaf 0#8

/-- The distinct bytes of a block in ascending order (R184). -/
def blockSymbols (block : List Byte) : List Byte := allSymbols.filter (fun s => block.contains s)

/-- The number `L` of distinct bytes of a block (R184). -/
def distinctBytes (block : List Byte) : Nat := (blockSymbols block).length

/-- The symbol of the placeholder: 0x00, or 0x01 when the block holds 0x00 (R185). -/
def placeholderSym (block : List Byte) : Byte := if block.contains 0#8 then 1#8 else 0#8

/-- One leaf for each distinct byte, and the placeholder beside a lone one (R184, R185). -/
def seedQueue (block : List Byte) : List Weighted :=
  (blockSymbols block).map (fun s => ⟨block.count s, s.toNat, .leaf s⟩) ++
    if distinctBytes block = 1 then [⟨0, (placeholderSym block).toNat, .leaf (placeholderSym block)⟩] else []

/-- The trie COMPRESS writes for a block: the Huffman trie, or the marker leaf for the empty block (R184 to R190,
R195). -/
def huffmanTrie (block : List Byte) : Trie :=
  mergeQueue (seedQueue block).length ((seedQueue block).foldl (fun queue x => enqueue x queue) [])

/-- The code of a byte of a block (R192). -/
def huffmanCode (block : List Byte) (b : Byte) : List Bool := ((huffmanTrie block).codeOf b).getD []

/-- The artifact of a block (R97): trie section, length and body, zero padded to whole bytes. -/
def artifact (n : Word) (block : List Byte) : List Byte :=
  packed (artifactBits (huffmanTrie block) n (block.map (huffmanCode block)))

/-- The number `Lr` of leaf records written for a block (R196). -/
def leafRecords (block : List Byte) : Nat :=
  if distinctBytes block = 0 then 1 else if distinctBytes block = 1 then 2 else distinctBytes block

/-! ## Sequences of commands the claims compare -/

/-- The HOST writes ARG (R24, R300). -/
def State.withArg (s : State) (v : Word) : State := { s with arg := v }

/-- `WBIT b` for each bit in turn (R101, R102): ARG is written and WBIT runs. -/
def execWbits : List Bool → State → Host.Outcome State Fault Refusal
  | [], s => .next s
  | b :: rest, s =>
    match exec .wbit (s.withArg ((BitVec.ofBool b).setWidth 32)) with
    | .next t => execWbits rest t
    | .fault f => .fault f
    | .refused r => .refused r

/-! ## The invariant -/

/-- Between commands the HUF scratch is unspecified as a whole (R40, V4). -/
structure ScratchUnspecified (h : HufScratch) : Prop where
  freq : h.freq.cells = []
  node : h.node.cells = []
  code : h.code.cells = []
  ncnt : ∃ g, h.ncnt = .unspecified g
  root : ∃ g, h.root = .unspecified g
  live : ∃ g, h.live = .unspecified g

/-- The invariant between moves of the HOST. -/
structure State.Inv (s : State) : Prop where
  /-- The memories of bytes and words are in their canonical form. -/
  ibufWf : s.ibuf.wf = true
  obufWf : s.obuf.wf = true
  dbWf : s.css.db.wf = true
  idxWf : s.css.idx.wf = true
  /-- IBUF has no byte at or above NMAX (R30). -/
  ibufBound : ∀ k, s.nmax.toNat ≤ k → s.ibuf.get? k = none
  /-- Every byte of OBUF[0..OLEN) is specified, and OLEN is at most NMAX (R28, R31). -/
  obufValid : ∀ k, k < s.olen.toNat → (s.obuf.get? k).isSome = true
  olenBound : s.olen.toNat ≤ s.nmax.toNat
  /-- SVALID = 0 implies SLEN = 0 (R34). -/
  released : s.css.svalid = false → s.css.slen = 0#32
  slenBound : s.css.slen.toNat ≤ s.nmax.toNat
  /-- SVALID = 1 says that CSS holds the suffix array of the block it copied (R32, R33, R143). -/
  sorted : s.css.svalid = true → ∃ block, s.css.Holds block ∧ IsSuffixArray block s.css.ranks
  /-- The work stack is empty (R45). -/
  workEmpty : s.css.work = []
  /-- `WACC[7:WCNT]` are 0 (R36, R110). -/
  writerTop : s.wr.acc.toNat < 2 ^ s.wr.cnt.toNat
  /-- RCNT is at most 7 (R39, R122). -/
  readerCount : s.rd.cnt.toNat ≤ 7
  scratch : ScratchUnspecified s.huf

end Sys2Proof.Machine
end

