-- ==== Sys2Proof/Certificates/Slice0/Obligations.lean ====
section
/-! DEFINITION. The statements for the provers, one per entry of OBLIGATIONS.json, in its order. -/

open Sys2Proof Sys2Proof.Machine

/-! ## Encoding -/

/-- The decoder reads a command from a word exactly when the word is that command's (R90, R91, R93). -/
def Obligations.DecodeEncodeAgree : Prop :=
  (∀ i, decode (encode i) = .ok i) ∧ ∀ w i, decode w = .ok i → encode i = w

/-- The eleven words of the table of R91, in binary as it lists them. -/
def Obligations.ElevenWordsDecodeAsListed : Prop :=
  decode 0b00010000#8 = .ok .wbit ∧ decode 0b00010001#8 = .ok .wbyte ∧ decode 0b00010010#8 = .ok .flush ∧
    decode 0b00010011#8 = .ok .rbit ∧ decode 0b00010100#8 = .ok .rbyte ∧
    decode 0b00100000#8 = .ok .construct ∧ decode 0b00100001#8 = .ok .length ∧
    decode 0b00100010#8 = .ok .sufstart ∧ decode 0b00100011#8 = .ok .release ∧
    decode 0b00110000#8 = .ok .compress ∧ decode 0b00110001#8 = .ok .expand

/-- Issuing any other word ends at once with IllegalCommand and changes nothing but the report (R95); FATAL applies
first. -/
def Obligations.IllegalWordChangesOnlyTheReport : Prop :=
  ∀ (s : State) (v : Word) (rest : List HostMove),
    let w := (v.setWidth 8).toNat
    let after := { s with host := { s.host with script := rest } }
    s.host.script = .writeReg 0 v :: rest →
    (w ≤ 0x0F ∨ (0x15 ≤ w ∧ w ≤ 0x1F) ∨ (0x24 ≤ w ∧ w ≤ 0x2F) ∨ 0x32 ≤ w) →
      (s.fatal = false →
        step s = .next { after with err := some .illegalCommand, eos := false, res := 0#32 }) ∧
      (s.fatal = true → step s = .next { after with err := some .invariantViolation, res := 0#32 })

/-! ## The HOST and the step -/

/-- A write of a command word to CMD runs exactly that command; only bits 7:0 of the written data count (R23). -/
def Obligations.StepRunsTheIssuedCommand : Prop :=
  ∀ (s : State) (v : Word) (rest : List HostMove) (i : Instr),
    s.host.script = .writeReg 0 v :: rest → decode (v.setWidth 8) = .ok i →
      step s = exec i { s with host := { s.host with script := rest } }

/-- An engine to which the HOST does nothing keeps all state (R266; the idle step is the model's, log 3). -/
def Obligations.IdleEngineKeepsState : Prop :=
  ∀ s : State, s.host.script = [] → step s = .next s

/-- The register file as the HOST reaches it (R22). -/
def Obligations.HostRegisterAccesses : Prop :=
  ∀ (s : State) (rest : List HostMove) (n : Nat) (v : Word),
    let after := { s with host := { s.host with script := rest } }
    let sees := fun (x : Word) => Host.Outcome.next (φ := Fault) (ρ := Refusal) (after.see (.word x))
    (s.host.script = .writeReg n v :: rest →
      (n = 1 → step s = .next { after with arg := v }) ∧
      (n = 2 → step s = .next { after with len := v }) ∧
      (3 ≤ n → step s = .next after)) ∧
    (s.host.script = .readReg n :: rest →
      (n = 0 → step s = sees 0#32) ∧ (n = 1 → step s = sees s.arg) ∧ (n = 2 → step s = sees s.len) ∧
      (n = 3 → step s = sees s.res) ∧ (n = 4 → step s = sees s.stat) ∧ (n = 5 → step s = sees s.olen) ∧
      (6 ≤ n → step s = sees 0#32))

/-- The fields of STAT at their places, the ERR codes, and the bits that read 0 (R27, R96, R250). -/
def Obligations.StatFieldsAtTheirPlaces : Prop :=
  ∀ s : State,
    s.stat.extractLsb' 0 4 = s.errCode ∧ s.stat.getLsbD 4 = s.css.svalid ∧ s.stat.getLsbD 5 = s.fatal ∧
    s.stat.getLsbD 6 = s.eos ∧ s.stat.getLsbD 7 = false ∧ s.stat.extractLsb' 8 3 = s.wr.cnt ∧
    s.stat.getLsbD 11 = false ∧ s.stat.extractLsb' 12 4 = s.rd.cnt ∧ s.stat.extractLsb' 16 16 = 0#16 ∧
    (s.err = none → s.errCode = 0#4) ∧ (s.err = some .indexOutOfRange → s.errCode = 1#4) ∧
    (s.err = some .endOfStream → s.errCode = 2#4) ∧ (s.err = some .malformedArtifact → s.errCode = 3#4) ∧
    (s.err = some .invariantViolation → s.errCode = 4#4) ∧ (s.err = some .illegalCommand → s.errCode = 5#4) ∧
    (s.err = some .capacityExceeded → s.errCode = 6#4) ∧ s.errCode.toNat ≤ 6

/-- The HOST's accesses to the buffers and the streams (R300); what happens at an index at or above NMAX, or past the
bytes emitted, is the model's choice (log 14). -/
def Obligations.HostBufferAndStreamMoves : Prop :=
  ∀ (s : State) (rest : List HostMove) (k : Nat) (v : Byte) (bytes : List Byte) (a b : Nat),
    let after := { s with host := { s.host with script := rest } }
    (s.host.script = .writeIbuf k v :: rest →
      (k < s.nmax.toNat →
        ∃ m, step s = .next { after with ibuf := m } ∧ m.get? k = some v ∧ ∀ j, j ≠ k → m.get? j = s.ibuf.get? j) ∧
      (s.nmax.toNat ≤ k → step s = .next after)) ∧
    (s.host.script = .readIbuf k :: rest →
      (k < s.nmax.toNat → step s = .next (after.see (.byte (s.ibufAt k)))) ∧
      (s.nmax.toNat ≤ k → step s = .fault .noSuchBufferByte)) ∧
    (s.host.script = .readObuf k :: rest →
      (k < s.nmax.toNat → step s = .next (after.see (.byte (s.obufAt k)))) ∧
      (s.nmax.toNat ≤ k → step s = .fault .noSuchBufferByte)) ∧
    (s.host.script = .appendSrc bytes :: rest →
      step s = .next { after with rd := { s.rd with src := s.rd.src ++ bytes } }) ∧
    (s.host.script = .replaceSrc bytes :: rest →
      step s = .next { after with rd := { s.rd with src := bytes } }) ∧
    (s.host.script = .readSnk a b :: rest →
      (a ≤ b ∧ b ≤ s.wr.snk.length →
        step s = .next (after.see (.bytes ((s.wr.snk.drop a).take (b - a))))) ∧
      (b < a ∨ s.wr.snk.length < b → step s = .fault .notYetEmitted)) ∧
    (s.host.script = .feedSnk a b :: rest →
      (a ≤ b ∧ b ≤ s.wr.snk.length →
        step s = .next { after with rd := { s.rd with src := s.rd.src ++ (s.wr.snk.drop a).take (b - a) } }) ∧
      (b < a ∨ s.wr.snk.length < b → step s = .fault .notYetEmitted))

/-- No move of the HOST but a command and reset reaches the hidden state or the results (R300). -/
def Obligations.HostMovesKeepHiddenState : Prop :=
  ∀ (s t : State) (m : HostMove) (rest : List HostMove),
    s.host.script = m :: rest → (∀ v, m ≠ .writeReg 0 v) → (∀ src, m ≠ .reset src) → step s = .next t →
      t.css = s.css ∧ t.huf = s.huf ∧ t.wr = s.wr ∧ t.rd.buf = s.rd.buf ∧ t.rd.cnt = s.rd.cnt ∧ t.res = s.res ∧
      t.olen = s.olen ∧ t.err = s.err ∧ t.fatal = s.fatal ∧ t.eos = s.eos ∧ t.obuf = s.obuf ∧ t.nmax = s.nmax ∧
      t.host.script = rest

/-- The state after reset: registers, unit state and streams (R291, R292, R294). For the work stack R292 is followed, not
the table of R20 (log 23). -/
def Obligations.ResetStateValues : Prop :=
  let s := State.reset
  s.arg = 0#32 ∧ s.len = 0#32 ∧ s.res = 0#32 ∧ s.stat = 0x00000000#32 ∧ s.olen = 0#32 ∧ s.err = none ∧
  s.fatal = false ∧ s.eos = false ∧ s.wr.acc = 0#8 ∧ s.wr.cnt = 0#3 ∧ s.rd.buf = 0#8 ∧ s.rd.cnt = 0#4 ∧
  s.css.slen = 0#32 ∧ s.css.svalid = false ∧ s.css.work = [] ∧ s.wr.snk = [] ∧
  exec .length s = .next { s with res := 0#32 } ∧
  (∀ v, exec .sufstart (s.withArg v) =
    .next { s.withArg v with err := some .indexOutOfRange, res := 0#32 }) ∧
  (∃ g, s.huf.ncnt = .unspecified g) ∧ (∃ g, s.huf.root = .unspecified g) ∧ (∃ g, s.huf.live = .unspecified g)

/-- The reset move: everything as after reset, in every memory nothing specified, and it clears FATAL (R290 to R294).
The SRC the HOST supplies, and that the HOST and NMAX are outside, are the model's form (log 1, log 2, log 9). -/
def Obligations.ResetMoveClearsEverything : Prop :=
  ∀ (s : State) (src : List Byte) (rest : List HostMove), s.host.script = .reset src :: rest →
    ∃ t, step s = .next t ∧ t.arg = 0#32 ∧ t.len = 0#32 ∧ t.res = 0#32 ∧ t.olen = 0#32 ∧ t.stat = 0#32 ∧
      t.err = none ∧ t.fatal = false ∧ t.eos = false ∧ t.wr.acc = 0#8 ∧ t.wr.cnt = 0#3 ∧ t.wr.snk = [] ∧
      t.rd.buf = 0#8 ∧ t.rd.cnt = 0#4 ∧ t.rd.src = src ∧ t.css.slen = 0#32 ∧ t.css.svalid = false ∧
      t.css.work = [] ∧ ScratchUnspecified t.huf ∧ t.nmax = s.nmax ∧ t.host = { s.host with script := rest } ∧
      ∀ k, t.ibuf.get? k = none ∧ t.obuf.get? k = none ∧ t.css.db.get? k = none ∧ t.css.idx.get? k = none

/-! ## The frame of every command -/

/-- While FATAL = 1 every command is refused with ERR = 4, and nothing else changes (R258 step 1, R311). -/
def Obligations.FatalRefusesEveryCommand : Prop :=
  ∀ (i : Instr) (s : State), s.fatal = true →
    exec i s = .next { s with err := some .invariantViolation, res := 0#32 }

/-- Every command ends in a next state, with the kinds of R250 and no other, RES = 0 with each of them, and EOS = 1 only
with an exhaustion. -/
def Obligations.CommandsReportTheListedKinds : Prop :=
  ∀ (i : Instr) (s : State), s.fatal = false →
    ∃ t, exec i s = .next t ∧ (t.err ≠ none → t.res = 0#32) ∧
      (t.err = some .indexOutOfRange → i = .sufstart) ∧
      (t.err = some .endOfStream → (i = .rbit ∨ i = .rbyte) ∧ t.eos = true) ∧
      (t.err = some .malformedArtifact → i = .expand ∧ t.olen = 0#32) ∧
      t.err ≠ some .invariantViolation ∧
      (t.err = some .illegalCommand → i = .wbit ∨ i = .wbyte ∨ i = .compress ∨ i = .expand) ∧
      (t.err = some .capacityExceeded → i = .construct ∨ i = .compress ∨ i = .expand) ∧
      (t.eos = true → t.err = some .endOfStream ∨ t.err = some .malformedArtifact)

/-- No move of the HOST, command or not, sets FATAL (R256). -/
def Obligations.FatalIsNeverSet : Prop :=
  ∀ s t : State, step s = .next t → s.fatal = false → t.fatal = false

/-- Each unit's state is written only by the commands R35 lists for it. -/
def Obligations.CommandsWriteOnlyTheirUnits : Prop :=
  ∀ (i : Instr) (s t : State), exec i s = .next t →
    (i ≠ .construct → i ≠ .release → t.css = s.css) ∧
    (i ≠ .compress → i ≠ .expand → t.huf = s.huf) ∧
    (i ≠ .wbit → i ≠ .wbyte → i ≠ .flush → i ≠ .compress → t.wr = s.wr) ∧
    (i ≠ .rbit → i ≠ .rbyte → i ≠ .expand → t.rd = s.rd) ∧
    (i ≠ .expand → t.obuf = s.obuf ∧ t.olen = s.olen)

/-- What only the HOST writes, no command changes (R24, R25, R30); NMAX and the HOST itself are the model's fields (log 1,
log 2). -/
def Obligations.EngineNeverWritesHostInputs : Prop :=
  ∀ (i : Instr) (s t : State), exec i s = .next t →
    t.arg = s.arg ∧ t.len = s.len ∧ t.ibuf = s.ibuf ∧ t.nmax = s.nmax ∧ t.host = s.host

/-- A command only appends to SNK and only removes bytes from the front of SRC (R46, R47, R64, R67). -/
def Obligations.StreamsMoveOneWay : Prop :=
  ∀ (i : Instr) (s t : State), exec i s = .next t → s.wr.snk <+: t.wr.snk ∧ t.rd.src <:+ s.rd.src

/-- What each error leaves: nothing changed but the report, and for a failed EXPAND the state R259 lists. -/
def Obligations.ErrorsLeaveTheListedState : Prop :=
  ∀ (i : Instr) (s t : State) (k : ErrKind), exec i s = .next t → t.err = some k →
    (s.fatal = true → t = { s with err := some k, res := 0#32 }) ∧
    (s.fatal = false → (i ≠ .expand ∨ k = .illegalCommand) →
      t = { s with err := some k, res := 0#32, eos := t.eos }) ∧
    (s.fatal = false → i = .expand → k ≠ .illegalCommand →
      t = { s with err := some k, res := 0#32, eos := t.eos, olen := 0#32, obuf := t.obuf, rd := t.rd, huf := t.huf } ∧
      (∀ j, t.obuf.get? j = none) ∧ t.rd.cnt = 0#4 ∧ t.rd.src <:+ s.rd.src ∧ ScratchUnspecified t.huf)

/-! ## BSC -/

/-- WBIT (R112, with PutBit of R111): the whole next state, in range and out of range. -/
def Obligations.WbitAppendsOneBit : Prop :=
  encode .wbit = 0x10#8 ∧
  ∀ s : State, s.fatal = false →
    let acc := (s.wr.acc <<< 1) ||| s.arg.setWidth 8
    (s.arg.toNat ≤ 1 → s.wr.cnt = 7#3 →
      exec .wbit s = .next { s with
        wr := { acc := 0#8, cnt := 0#3, snk := s.wr.snk ++ [acc] }, eos := false, err := none, res := 0#32 }) ∧
    (s.arg.toNat ≤ 1 → s.wr.cnt ≠ 7#3 →
      exec .wbit s = .next { s with
        wr := { acc := acc, cnt := s.wr.cnt + 1#3, snk := s.wr.snk }, eos := false, err := none, res := 0#32 }) ∧
    (1 < s.arg.toNat →
      exec .wbit s = .next { s with eos := false, err := some .illegalCommand, res := 0#32 })

/-- WBYTE in the closed form of R114: with `c` bits pending, one byte is emitted, and the low `c` bits of the operand are
pending. -/
def Obligations.WbyteAppendsOneByte : Prop :=
  encode .wbyte = 0x11#8 ∧
  ∀ s : State, s.fatal = false →
    let c := s.wr.cnt.toNat
    let v := s.arg.setWidth 8
    (s.arg.toNat ≤ 255 →
      exec .wbyte s = .next { s with
        wr :=
          { acc := BitVec.ofNat 8 (v.toNat % 2 ^ c)
            cnt := s.wr.cnt
            snk := s.wr.snk ++ [(s.wr.acc <<< (8 - c)) ||| (v >>> c)] }
        eos := false, err := none, res := 0#32 }) ∧
    (255 < s.arg.toNat →
      exec .wbyte s = .next { s with eos := false, err := some .illegalCommand, res := 0#32 })

/-- WBYTE leaves the state that the eight WBITs of its bits leave, bit 7 first, ARG apart (R115). -/
def Obligations.WbyteIsEightWbits : Prop :=
  ∀ (s : State) (v : Byte),
    ∃ t u, exec .wbyte (s.withArg (v.setWidth 32)) = .next t ∧
      execWbits [v.getLsbD 7, v.getLsbD 6, v.getLsbD 5, v.getLsbD 4, v.getLsbD 3, v.getLsbD 2, v.getLsbD 1,
        v.getLsbD 0] s = .next u ∧
      u.withArg (v.setWidth 32) = t

/-- FLUSH (R117, with FlushBits of R116): the whole next state. -/
def Obligations.FlushPadsAndEmits : Prop :=
  encode .flush = 0x12#8 ∧
  ∀ s : State, s.fatal = false →
    (s.wr.cnt ≠ 0#3 →
      exec .flush s = .next { s with
        wr := { acc := 0#8, cnt := 0#3, snk := s.wr.snk ++ [s.wr.acc <<< (8 - s.wr.cnt.toNat)] }
        eos := false, err := none, res := 0#32 }) ∧
    (s.wr.cnt = 0#3 → exec .flush s = .next { s with eos := false, err := none, res := 0#32 })

/-- A second FLUSH directly after the first does nothing (R118). -/
def Obligations.SecondFlushDoesNothing : Prop :=
  ∀ s : State, ∃ t, exec .flush s = .next t ∧ exec .flush t = .next t

/-- The packing law (R119). -/
def Obligations.PackingLaw : Prop :=
  ∀ (w : BitWriter) (bits : List Bool), w.cnt = 0#3 →
    let w' := (w.putBits bits).flushBits
    ∃ out, w'.snk = w.snk ++ out ∧ out.length = (bits.length + 7) / 8 ∧
      (∀ j, j < out.length →
        (out.getD j 0#8).toNat =
          ((List.range 8).map (fun k => if bits.getD (8 * j + k) false then 2 ^ (7 - k) else 0)).sum) ∧
      w'.cnt = 0#3

/-- RBIT (R121, with GetBit of R120): the whole next state, from the buffer, with a refill, and at the end of the stream. -/
def Obligations.RbitReadsTheNextBit : Prop :=
  encode .rbit = 0x13#8 ∧
  ∀ s : State, s.fatal = false →
    (s.rd.cnt ≠ 0#4 →
      exec .rbit s = .next { s with
        rd := { s.rd with cnt := s.rd.cnt - 1#4 }, eos := false, err := none
        res := if s.rd.buf.getLsbD (s.rd.cnt.toNat - 1) then 1#32 else 0#32 }) ∧
    (s.rd.cnt = 0#4 → ∀ v rest, s.rd.src = v :: rest →
      exec .rbit s = .next { s with
        rd := { buf := v, cnt := 7#4, src := rest }, eos := false, err := none
        res := if v.getLsbD 7 then 1#32 else 0#32 }) ∧
    (s.rd.cnt = 0#4 → s.rd.src = [] →
      exec .rbit s = .next { s with eos := true, err := some .endOfStream, res := 0#32 })

/-- RBYTE in the closed form of R125, where at most 7 bits are buffered (R122), and its EndOfStream (R126). -/
def Obligations.RbyteReadsTheNextByte : Prop :=
  encode .rbyte = 0x14#8 ∧
  ∀ s : State, s.fatal = false → s.rd.cnt.toNat ≤ 7 →
    let c := s.rd.cnt.toNat
    (∀ v rest, s.rd.src = v :: rest →
      exec .rbyte s = .next { s with
        rd := { buf := v, cnt := s.rd.cnt, src := rest }, eos := false, err := none
        res := ((s.rd.buf <<< (8 - c)) ||| (v >>> c)).setWidth 32 }) ∧
    (s.rd.src = [] →
      exec .rbyte s = .next { s with eos := true, err := some .endOfStream, res := 0#32 })

/-- Write/read duality (R128). -/
def Obligations.WriteReadDuality : Prop :=
  ∀ (w : BitWriter) (r : BitReader) (bits : List Bool), w.cnt = 0#3 → r.cnt = 0#4 →
    r.src = ((w.putBits bits).flushBits).snk.drop w.snk.length →
    ∃ r', r.getBits (8 * ((bits.length + 7) / 8)) =
        .ok (bits ++ List.replicate ((8 - bits.length % 8) % 8) false) r' ∧
      r'.getBit = .raised .endOfStream r'

/-! ## CSS -/

/-- CONSTRUCT leaves the suffix array of the block, which is the only one, and changes nothing else (R143). -/
def Obligations.ConstructBuildsTheSuffixArray : Prop :=
  encode .construct = 0x20#8 ∧
  ∀ s : State, s.fatal = false → s.len.toNat ≤ s.nmax.toNat →
    ∃ c, exec .construct s = .next { s with css := c, eos := false, err := none, res := 0#32 } ∧
      c.Holds s.block ∧ c.slen = s.len ∧ c.svalid = true ∧ c.work = [] ∧
      IsSuffixArray s.block c.ranks ∧ ∀ l, IsSuffixArray s.block l → l = c.ranks

/-- A block longer than NMAX is refused, and an earlier suffix array survives (R141, R148); the empty block gives the
empty suffix array (R144). -/
def Obligations.ConstructAtTheEdges : Prop :=
  ∀ s : State, s.fatal = false →
    (s.nmax.toNat < s.len.toNat →
      exec .construct s = .next { s with eos := false, err := some .capacityExceeded, res := 0#32 }) ∧
    (s.len = 0#32 →
      ∃ t, exec .construct s = .next t ∧ t.err = none ∧ t.css.slen = 0#32 ∧ t.css.svalid = true ∧
        (∀ k, t.css.db.get? k = none ∧ t.css.idx.get? k = none) ∧
        exec .length t = .next { t with res := 0#32 } ∧
        ∀ v, exec .sufstart (t.withArg v) =
          .next { t.withArg v with err := some .indexOutOfRange, res := 0#32 })

/-- CONSTRUCT's result does not depend on CUTOFF (R163): the sorter is equal, as data, for every two values. -/
def Obligations.CutoffDoesNotMatter : Prop :=
  ∀ (cutoff cutoff' : Nat) (block : List Byte) (c : Sorter), block.length < 2 ^ 32 →
    c.build cutoff block = c.build cutoff' block

/-- The pending ranges at every moment of a sort: at least two positions each, disjoint, and so at most `n / 2` (R160). -/
def Obligations.WorkStackFits : Prop :=
  ∀ (cutoff pops : Nat) (block : List Byte) (c : Sorter), block.length < 2 ^ 32 →
    let work := (Sorter.sortRun cutoff block.length pops (c.load block)).work
    (∀ r ∈ work, r.lo < r.hi ∧ r.hi < block.length) ∧
      work.Pairwise (fun r r' => r.hi < r'.lo ∨ r'.hi < r.lo) ∧ work.length ≤ block.length / 2

/-- The postcondition of Partition with the pivot of R154 (R155): `stop` is `gt + 1`. -/
def Obligations.PartitionPostcondition : Prop :=
  ∀ (c c' : Sorter) (lo hi d lt stop : Nat), lo ≤ hi →
    c.partition lo hi d (c.pivot lo hi d) = (c', lt, stop) →
      lo ≤ lt ∧ lt < stop ∧ stop ≤ hi + 1 ∧
      (∀ p, lo ≤ p → p < lt → (c'.byteAt p d).toNat < (c.pivot lo hi d).toNat) ∧
      (∀ p, lt ≤ p → p < stop → c'.byteAt p d = c.pivot lo hi d) ∧
      (∀ p, stop ≤ p → p ≤ hi → (c.pivot lo hi d).toNat < (c'.byteAt p d).toNat) ∧
      ((List.range' lo (hi - lo + 1)).map c'.idxAt).Perm ((List.range' lo (hi - lo + 1)).map c.idxAt) ∧
      (∀ p, p < lo ∨ hi < p → c'.idxAt p = c.idxAt p) ∧ c'.db = c.db

/-- LENGTH (R145). -/
def Obligations.LengthReturnsSlen : Prop :=
  encode .length = 0x21#8 ∧
  ∀ s : State, s.fatal = false → exec .length s = .next { s with eos := false, err := none, res := s.css.slen }

/-- SUFSTART (R146): the offset at a rank below SLEN, which under the invariant is below SLEN, and IndexOutOfRange
otherwise. -/
def Obligations.SufstartReturnsTheOffset : Prop :=
  encode .sufstart = 0x22#8 ∧
  ∀ s : State, s.fatal = false →
    (s.arg.toNat < s.css.slen.toNat →
      exec .sufstart s = .next { s with eos := false, err := none, res := s.css.idxAt s.arg.toNat } ∧
        (s.Inv → (s.css.idxAt s.arg.toNat).toNat < s.css.slen.toNat)) ∧
    (s.css.slen.toNat ≤ s.arg.toNat →
      exec .sufstart s = .next { s with eos := false, err := some .indexOutOfRange, res := 0#32 })

/-- Under the invariant of the machine, CSS holds a block (DB is `B ++ B`, R32, R142) and its suffix array, and a
successful SUFSTART returns the offset at its rank, one of that block (R146, R143). -/
def Obligations.SufstartAnswersFromTheBlock : Prop :=
  ∀ s : State, s.Inv → s.fatal = false → s.arg.toNat < s.css.slen.toNat →
    ∃ block t, s.css.Holds block ∧ IsSuffixArray block s.css.ranks ∧ exec .sufstart s = .next t ∧ t.err = none ∧
      t.res.toNat < s.css.slen.toNat ∧ block.length = s.css.slen.toNat ∧
      s.css.ranks[s.arg.toNat]? = some t.res.toNat

/-- RELEASE (R147): no element of DB or IDX is specified any more, LENGTH gives 0 and SUFSTART IndexOutOfRange. -/
def Obligations.ReleaseDropsTheSuffixArray : Prop :=
  encode .release = 0x23#8 ∧
  ∀ s : State, s.fatal = false →
    ∃ db idx t, exec .release s = .next t ∧
      t = { s with
        css := { s.css with db := db, idx := idx, slen := 0#32, svalid := false }
        eos := false, err := none, res := 0#32 } ∧
      (∀ k, db.get? k = none ∧ idx.get? k = none) ∧
      exec .length t = .next { t with res := 0#32 } ∧
      ∀ v, exec .sufstart (t.withArg v) = .next { t.withArg v with err := some .indexOutOfRange, res := 0#32 }

/-! ## HUF: COMPRESS -/

/-- The preconditions of COMPRESS, in their order (R181). -/
def Obligations.CompressPreconditions : Prop :=
  ∀ s : State, s.fatal = false →
    (s.wr.cnt ≠ 0#3 →
      exec .compress s = .next { s with eos := false, err := some .illegalCommand, res := 0#32 }) ∧
    (s.wr.cnt = 0#3 → s.nmax.toNat < s.len.toNat →
      exec .compress s = .next { s with eos := false, err := some .capacityExceeded, res := 0#32 })

/-- COMPRESS appends the artifact of the block, whose trie is the Huffman trie of R184 to R190 and whose body is the
codes of the block's bytes, and changes nothing else but its scratch (R180, R97, R203). -/
def Obligations.CompressAppendsTheArtifact : Prop :=
  encode .compress = 0x30#8 ∧
  ∀ s : State, s.fatal = false → s.wr.cnt = 0#3 → s.len.toNat ≤ s.nmax.toNat →
    (∃ w h, exec .compress s = .next { s with wr := w, huf := h, eos := false, err := none, res := 0#32 } ∧
      w.snk = s.wr.snk ++ artifact s.len s.block ∧ w.cnt = 0#3 ∧ (s.wr.acc = 0#8 → w.acc = 0#8) ∧
      ScratchUnspecified h) ∧
    (s.block ≠ [] →
      CodesOf (huffmanTrie s.block) (s.block.map (huffmanCode s.block)) s.block ∧
      (huffmanTrie s.block).branches = true ∧ (huffmanTrie s.block).symbols.Nodup)

/-- The artifact of the empty block is the six bytes of R186. -/
def Obligations.CompressOfTheEmptyBlock : Prop :=
  ∀ s : State, s.fatal = false → s.wr.cnt = 0#3 → s.len = 0#32 →
    ∃ t, exec .compress s = .next t ∧ t.err = none ∧
      t.wr.snk = s.wr.snk ++ [0x80#8, 0x00#8, 0x00#8, 0x00#8, 0x00#8, 0x00#8]

/-- A block of one distinct byte gets the two-leaf trie with the placeholder on the left, and its body is one 1 per byte
(R185). -/
def Obligations.CompressOfOneDistinctByte : Prop :=
  ∀ (s : State) (v : Byte), s.fatal = false → s.wr.cnt = 0#3 → s.len.toNat ≤ s.nmax.toNat → s.len ≠ 0#32 →
    s.block = List.replicate s.len.toNat v →
    ∃ t, exec .compress s = .next t ∧ t.err = none ∧
      t.wr.snk = s.wr.snk ++
        packed (artifactBits (.node (.leaf (if v = 0#8 then 1#8 else 0#8)) (.leaf v)) s.len
          (List.replicate s.len.toNat [true]))

/-- Phase 1 counts the bytes of the block, without a wrap (R182, R183). -/
def Obligations.FrequencyCount : Prop :=
  ∀ (h : HufScratch) (block : List Byte), block.length < 2 ^ 32 →
    ∀ s, ((h.phase1Count block).freqAt s).toNat = block.count s

/-- RemoveMin returns a member of LIVE with no member's key before it, and leaves the others (R188). -/
def Obligations.RemoveMinTakesTheSmallestKey : Prop :=
  ∀ (h : HufScratch) (live : List NodeIdx), live ≠ [] →
    ∃ a others, h.removeMin live = some (a, others) ∧ live.Perm (a :: others) ∧
      ∀ x ∈ others, h.keyBefore x a = false

/-- The trie phase 2 builds for a block of at least one byte (R191, R189). -/
def Obligations.BuiltTrieInvariants : Prop :=
  ∀ (h : HufScratch) (block : List Byte), block ≠ [] → block.length < 2 ^ 32 →
    let h' := (h.phase1Count block).phase2Build
    let leaves := max (distinctBytes block) 2
    ∃ t, h'.HasTrie h'.rootVal t ∧ t.symbols.Nodup ∧ t.symbols.length = leaves ∧
      (∀ b ∈ block, b ∈ t.symbols) ∧ (h'.nodeAt h'.rootVal).frq.toNat = block.length ∧
      h'.ncntVal.toNat = 2 * leaves - 1 ∧ t.depth ≤ leaves - 1 ∧ leaves ≤ 256

/-- Phase 3 gives every symbol of the trie its path and every other symbol no code (R192). -/
def Obligations.CodeTableHoldsThePaths : Prop :=
  ∀ (h : HufScratch) (block : List Byte), block ≠ [] → block.length < 2 ^ 32 →
    ∀ s, (h.prepare block).codeAt s = ((huffmanTrie block).codeOf s).getD [] ∧
      (block.contains s = true →
        0 < ((h.prepare block).codeAt s).length ∧ ((h.prepare block).codeAt s).length ≤ 255)

/-- The code table is prefix-free and its lengths meet the Kraft equality (R193). -/
def Obligations.CodesArePrefixFree : Prop :=
  ∀ (h : HufScratch) (block : List Byte), block ≠ [] → block.length < 2 ^ 32 →
    let code := (h.prepare block).codeAt
    (∀ a b, a ≠ b → code a ≠ [] → code b ≠ [] → ¬ code a <+: code b) ∧
      ((allSymbols.filter (fun s => decide (code s ≠ []))).map (fun s => 2 ^ (255 - (code s).length))).sum = 2 ^ 255

/-- A more frequent byte never has the longer code (R193). -/
def Obligations.FrequentBytesHaveShortCodes : Prop :=
  ∀ (h : HufScratch) (block : List Byte) (a b : Byte), block.length < 2 ^ 32 →
    block.count b < block.count a → 0 < block.count b →
      ((h.prepare block).codeAt a).length ≤ ((h.prepare block).codeAt b).length

/-- The size of the trie section, an odd number, and so where the length field starts (R196). -/
def Obligations.TrieSectionSize : Prop :=
  ∀ (h : HufScratch) (w : BitWriter) (block : List Byte), block.length < 2 ^ 32 → w.cnt = 0#3 →
    let w' := (h.prepare block).phase4WriteTrie block.length w
    let bits := 10 * leafRecords block - 1
    w'.cnt.toNat = bits % 8 ∧ w'.snk.length = w.snk.length + bits / 8 ∧
      (w'.cnt.toNat = 1 ∨ w'.cnt.toNat = 3 ∨ w'.cnt.toNat = 5 ∨ w'.cnt.toNat = 7) ∧ 9 ≤ bits ∧ bits ≤ 2559

/-- The size of an artifact, and that a block of nine or more equal bytes gets smaller (R200). -/
def Obligations.ArtifactSize : Prop :=
  ∀ s : State, s.fatal = false → s.wr.cnt = 0#3 → s.len.toNat ≤ s.nmax.toNat →
    ∃ t, exec .compress s = .next t ∧
      (let code := (s.huf.prepare s.block).codeAt
       let bits := (10 * leafRecords s.block - 1) + 32 +
         (allSymbols.map (fun b => s.block.count b * (code b).length)).sum
       t.wr.snk.length = s.wr.snk.length + (bits + 7) / 8) ∧
      (∀ v, s.block = List.replicate s.len.toNat v → 9 ≤ s.len.toNat →
        t.wr.snk.length < s.wr.snk.length + s.len.toNat)

/-- The bytes COMPRESS appends depend only on LEN and the block (R180, R202). -/
def Obligations.CompressDependsOnlyOnTheBlock : Prop :=
  ∀ s s' : State, s.fatal = false → s'.fatal = false → s.wr.cnt = 0#3 → s'.wr.cnt = 0#3 →
    s.len.toNat ≤ s.nmax.toNat → s'.len.toNat ≤ s'.nmax.toNat → s.len = s'.len → s.block = s'.block →
    ∃ t t' out, exec .compress s = .next t ∧ exec .compress s' = .next t' ∧
      t.wr.snk = s.wr.snk ++ out ∧ t'.wr.snk = s'.wr.snk ++ out

/-! ## HUF: EXPAND -/

/-- The precondition of EXPAND (R221). -/
def Obligations.ExpandPrecondition : Prop :=
  ∀ s : State, s.fatal = false → s.rd.cnt ≠ 0#4 →
    exec .expand s = .next { s with eos := false, err := some .illegalCommand, res := 0#32 }

/-- EXPAND decodes every artifact whose trie fits the arena, whoever wrote it, stops at its last byte, and changes nothing
else but its scratch (R220, R230, R231, R233, R234). -/
def Obligations.ExpandDecodesAnArtifact : Prop :=
  encode .expand = 0x31#8 ∧
  ∀ (s : State) (trie : Trie) (n : Word) (codes : List (List Bool)) (out : List Byte) (pad : List Bool)
    (extra : List Byte),
    s.fatal = false → s.rd.cnt = 0#4 → n.toNat ≤ s.nmax.toNat →
    trie.branches = true → trie.size ≤ 511 → out.length = n.toNat → CodesOf trie codes out → pad.length < 8 →
    bitsOfBytes s.rd.src = artifactBits trie n codes ++ pad ++ bitsOfBytes extra →
    ∃ buf front obuf h,
      exec .expand s = .next { s with
        rd := { buf := buf, cnt := 0#4, src := extra }, obuf := obuf, huf := h, olen := n
        eos := false, err := none, res := 0#32 } ∧
      s.rd.src = front ++ buf :: extra ∧ (∀ k, obuf.get? k = out[k]?) ∧ ScratchUnspecified h

/-- A trie section that is a single leaf (R229): the empty output for length 0, MalformedArtifact otherwise. -/
def Obligations.ExpandOfARootLeaf : Prop :=
  ∀ (s : State) (sym : Byte) (n : Word) (pad : List Bool) (extra : List Byte),
    s.fatal = false → s.rd.cnt = 0#4 → n.toNat ≤ s.nmax.toNat → pad.length < 8 →
    bitsOfBytes s.rd.src = (Trie.leaf sym).section ++ lengthBits n ++ pad ++ bitsOfBytes extra →
    ∃ t, exec .expand s = .next t ∧ t.rd.src = extra ∧ t.rd.cnt = 0#4 ∧ t.olen = 0#32 ∧ t.res = 0#32 ∧
      t.eos = false ∧ (∀ k, t.obuf.get? k = none) ∧ ScratchUnspecified t.huf ∧
      t.err = if n = 0#32 then none else some .malformedArtifact

/-- What EXPAND rejects without an exhaustion. A trie of more than NODE_MAX nodes: SRC need hold its first NODE_MAX
records only, and not a bit beyond them is read (R224). A declared length above NMAX (R228). -/
def Obligations.ExpandRejectsWhatDoesNotFit : Prop :=
  ∀ (s : State) (trie : Trie), s.fatal = false → s.rd.cnt = 0#4 →
    (∀ (pad : List Bool) (extra : List Byte), 511 < trie.size → pad.length < 8 →
      bitsOfBytes s.rd.src = (trie.records.take 511).flatMap recordBits ++ pad ++ bitsOfBytes extra →
      ∃ t, exec .expand s = .next t ∧ t.err = some .malformedArtifact ∧ t.eos = false ∧ t.olen = 0#32 ∧
        t.rd.cnt = 0#4 ∧ t.rd.src = extra) ∧
    (∀ (n : Word) (pad : List Bool) (extra : List Byte), trie.size ≤ 511 → s.nmax.toNat < n.toNat →
      pad.length < 8 → bitsOfBytes s.rd.src = trie.section ++ lengthBits n ++ pad ++ bitsOfBytes extra →
      ∃ t, exec .expand s = .next t ∧ t.err = some .capacityExceeded ∧ t.eos = false ∧ t.olen = 0#32 ∧
        t.rd.cnt = 0#4 ∧ t.rd.src = extra)

/-- What EXPAND reports and outputs depends only on the bytes of SRC, and on NMAX (R220, R225). -/
def Obligations.ExpandDependsOnlyOnTheSource : Prop :=
  ∀ s s' : State, s.fatal = false → s'.fatal = false → s.rd.cnt = 0#4 → s'.rd.cnt = 0#4 →
    s.rd.src = s'.rd.src → s.nmax = s'.nmax →
    ∃ t t', exec .expand s = .next t ∧ exec .expand s' = .next t' ∧ t.err = t'.err ∧ t.eos = t'.eos ∧
      t.olen = t'.olen ∧ t.rd.src = t'.rd.src ∧ ∀ k, t.obuf.get? k = t'.obuf.get? k

/-- The round trip (R235): EXPAND of the bytes a COMPRESS appended gives the block back and leaves what follows them. -/
def Obligations.RoundTrip : Prop :=
  ∀ (s u : State) (extra : List Byte), s.fatal = false → s.wr.cnt = 0#3 → s.len.toNat ≤ s.nmax.toNat →
    u.fatal = false → u.rd.cnt = 0#4 → s.len.toNat ≤ u.nmax.toNat →
    ∃ t a, exec .compress s = .next t ∧ t.err = none ∧ t.wr.snk = s.wr.snk ++ a ∧
      (u.rd.src = a ++ extra →
        ∃ v, exec .expand u = .next v ∧ v.err = none ∧ v.olen = s.len ∧ v.rd.src = extra ∧
          ∀ k, k < s.len.toNat → v.obuf.get? k = some (s.ibufAt k))

/-- Truncation (R236): an artifact without a non-empty suffix of its bytes gives MalformedArtifact with EOS = 1, and no
output. -/
def Obligations.TruncationIsReported : Prop :=
  ∀ (s u : State), s.fatal = false → s.wr.cnt = 0#3 → s.len.toNat ≤ s.nmax.toNat →
    u.fatal = false → u.rd.cnt = 0#4 → s.len.toNat ≤ u.nmax.toNat →
    ∃ t a, exec .compress s = .next t ∧ t.wr.snk = s.wr.snk ++ a ∧
      ∀ m, m < a.length → u.rd.src = a.take m →
        ∃ v, exec .expand u = .next v ∧ v.err = some .malformedArtifact ∧ v.eos = true ∧ v.olen = 0#32 ∧
          v.rd.src = [] ∧ v.rd.cnt = 0#4

/-! ## The invariant -/

/-- The state after reset meets the invariant. -/
def Obligations.ResetMeetsTheInvariant : Prop := State.reset.Inv

/-- Every step of the machine, whatever the HOST does, keeps the invariant. -/
def Obligations.EveryStepKeepsTheInvariant : Prop :=
  ∀ s t : State, s.Inv → step s = .next t → t.Inv

/-! ## Sources that end early, and the SUFFIXARRAY script -/

/-- EXPAND of any source that ends before its artifact does, whoever wrote it: inside the records of a trie of any size that
the arena has room for (R253 a; past them R224 applies), inside the length field (R253 c), or inside the body (R253 e). -/
def Obligations.ExpandReportsExhaustion : Prop :=
  ∀ (s : State) (trie : Trie) (n : Word) (missing : List Bool), s.fatal = false → s.rd.cnt = 0#4 →
    missing ≠ [] →
    let endsEarly :=
      ∃ t, exec .expand s = .next t ∧ t.err = some .malformedArtifact ∧ t.eos = true ∧ t.olen = 0#32 ∧ t.res = 0#32 ∧
        t.rd.src = [] ∧ t.rd.cnt = 0#4 ∧ (∀ k, t.obuf.get? k = none) ∧ ScratchUnspecified t.huf
    ((trie.records.take 511).flatMap recordBits = bitsOfBytes s.rd.src ++ missing → endsEarly) ∧
    (trie.size ≤ 511 → trie.section ++ lengthBits n = bitsOfBytes s.rd.src ++ missing → endsEarly) ∧
    (∀ (codes : List (List Bool)) (out : List Byte), trie.size ≤ 511 → n.toNat ≤ s.nmax.toNat → out.length = n.toNat →
      CodesOf trie codes out → artifactBits trie n codes = bitsOfBytes s.rd.src ++ missing → endsEarly)

/-- What a HOST reads that runs SUFFIXARRAY (R102): the length and the suffix array of the bytes; when CONSTRUCT is refused
(R141), what CSS held before; while FATAL = 1 (R258), one 0. That the script is a list computed from the state the HOST begins
in is the model's choice (log 24), and so is that a LOAD past NMAX completes (log 14). -/
def Obligations.SuffixArrayScriptReadsTheArray : Prop :=
  ∀ (s : State) (bytes : List Byte), bytes.length < 2 ^ 32 →
    ∃ t, runMoves (scriptSuffixArray bytes s) s = .next t ∧
      (s.fatal = false → bytes.length ≤ s.nmax.toNat →
        ∃ idx : List Word, IsSuffixArray bytes (idx.map BitVec.toNat) ∧
          t.host.seen = s.host.seen ++ .word (BitVec.ofNat 32 bytes.length) :: idx.map .word) ∧
      (s.fatal = false → s.nmax.toNat < bytes.length →
        t.css = s.css ∧
          t.host.seen = s.host.seen ++ .word s.css.slen ::
            (List.range s.css.slen.toNat).map (fun i => .word (s.css.idxAt i))) ∧
      (s.fatal = true → t.host.seen = s.host.seen ++ [.word 0#32])
end

