-- ==== Sys2Proof/Laws/Memory.lean ====
section
/-! SUPPORT. The laws of the memories: a read after a write, the canonical form and its preservation, and equality
of memories by their reads. -/

namespace Sys2Proof.Machine

variable {α : Type}

/-! ## Cell lists -/

theorem lookupCell_insertCell (l : List (Nat × α)) (k j : Nat) (v : α) :
    lookupCell (insertCell l k v) j = if j = k then some v else lookupCell l j := by
  induction l with
  | nil => simp [insertCell, lookupCell, eq_comm]
  | cons c rest ih =>
    obtain ⟨i, u⟩ := c
    rcases Nat.lt_trichotomy k i with h | h | h
    · by_cases hj : j = k
      · simp [insertCell, lookupCell, h, hj]
      · simp [insertCell, lookupCell, h, hj, Ne.symm hj]
    · subst h
      by_cases hj : j = k
      · simp [insertCell, lookupCell, hj]
      · simp [insertCell, lookupCell, hj, Ne.symm hj]
    · have h1 : ¬ k < i := by omega
      have h2 : i ≠ k := by omega
      by_cases hj : i = j
      · subst hj; simp [insertCell, lookupCell, h1, h2]
      · simp [insertCell, lookupCell, h1, h2, hj, ih]

theorem risingFrom_mono {l : List (Nat × α)} {a b : Nat} (hab : b ≤ a) (h : risingFrom a l = true) :
    risingFrom b l = true := by
  cases l with
  | nil => rfl
  | cons c rest =>
    obtain ⟨i, u⟩ := c
    simp only [risingFrom, Bool.and_eq_true, decide_eq_true_eq] at h ⊢
    exact ⟨by omega, h.2⟩

theorem risingFrom_insertCell {l : List (Nat × α)} {least k : Nat} {v : α} (hk : least ≤ k)
    (h : risingFrom least l = true) : risingFrom least (insertCell l k v) = true := by
  induction l generalizing least with
  | nil => simp [insertCell, risingFrom, hk]
  | cons c rest ih =>
    obtain ⟨i, u⟩ := c
    simp only [risingFrom, Bool.and_eq_true, decide_eq_true_eq] at h
    simp only [insertCell]
    split
    · simp only [risingFrom, Bool.and_eq_true, decide_eq_true_eq]
      exact ⟨hk, by omega, h.2⟩
    · split
      · subst i
        simp only [risingFrom, Bool.and_eq_true, decide_eq_true_eq]
        exact ⟨hk, h.2⟩
      · simp only [risingFrom, Bool.and_eq_true, decide_eq_true_eq]
        exact ⟨h.1, ih (by omega) h.2⟩

theorem risingFrom_cellsFrom (vs : List α) (start : Nat) : risingFrom start (cellsFrom start vs) = true := by
  induction vs generalizing start with
  | nil => rfl
  | cons v rest ih => simp [cellsFrom, risingFrom, ih]

theorem lookupCell_of_lt {l : List (Nat × α)} {least k : Nat} (h : risingFrom least l = true) (hk : k < least) :
    lookupCell l k = none := by
  induction l generalizing least with
  | nil => rfl
  | cons c rest ih =>
    obtain ⟨i, u⟩ := c
    simp only [risingFrom, Bool.and_eq_true, decide_eq_true_eq] at h
    simp only [lookupCell]
    rw [if_neg (by omega)]
    exact ih h.2 (by omega)

theorem lookupCell_cellsFrom (vs : List α) (start k : Nat) :
    lookupCell (cellsFrom start vs) k = if start ≤ k then vs[k - start]? else none := by
  induction vs generalizing start with
  | nil => simp [cellsFrom, lookupCell]
  | cons v rest ih =>
    simp only [cellsFrom, lookupCell, ih]
    by_cases h1 : start = k
    · subst h1; simp
    · by_cases h2 : start ≤ k
      · have h3 : k - start = (k - (start + 1)) + 1 := by omega
        rw [if_neg h1, if_pos h2, if_pos (by omega), h3, List.getElem?_cons_succ]
      · rw [if_neg h1, if_neg h2, if_neg (by omega)]

/-- Lists in the canonical form that read alike are equal. -/
theorem cells_ext {l m : List (Nat × α)} {a : Nat} (hl : risingFrom a l = true) (hm : risingFrom a m = true)
    (h : ∀ k, lookupCell l k = lookupCell m k) : l = m := by
  induction l generalizing m a with
  | nil =>
    cases m with
    | nil => rfl
    | cons d m' => have := h d.1; simp [lookupCell] at this
  | cons c l' ih =>
    obtain ⟨i, u⟩ := c
    cases m with
    | nil => have := h i; simp [lookupCell] at this
    | cons d m' =>
      obtain ⟨j, w⟩ := d
      simp only [risingFrom, Bool.and_eq_true, decide_eq_true_eq] at hl hm
      have hij : i = j := by
        rcases Nat.lt_trichotomy i j with hlt | heq | hgt
        · have := h i
          simp only [lookupCell, if_true] at this
          rw [if_neg (by omega), lookupCell_of_lt hm.2 (by omega)] at this
          simp at this
        · exact heq
        · have := h j
          simp only [lookupCell, if_true] at this
          rw [if_neg (by omega), lookupCell_of_lt hl.2 (by omega)] at this
          simp at this
      subst hij
      have huw : u = w := by have := h i; simpa [lookupCell] using this
      subst huw
      have : l' = m' := by
        apply ih hl.2 hm.2
        intro k
        by_cases hk : i = k
        · subst hk
          rw [lookupCell_of_lt hl.2 (by omega), lookupCell_of_lt hm.2 (by omega)]
        · have := h k
          simpa [lookupCell, hk] using this
      rw [this]

/-! ## Memories -/

@[simp] theorem Memory.set_gen (m : Memory α) (k : Nat) (v : α) : (m.set k v).gen = m.gen := rfl

@[simp] theorem Memory.forget_cells (m : Memory α) : m.forget.cells = [] := rfl

@[simp] theorem Memory.forget_gen (m : Memory α) : m.forget.gen = m.gen + 1 := rfl

@[simp] theorem Memory.fill_cells (m : Memory α) (vs : List α) : (m.fill vs).cells = cellsFrom 0 vs := rfl

@[simp] theorem Memory.fill_gen (m : Memory α) (vs : List α) : (m.fill vs).gen = m.gen + 1 := rfl

@[simp] theorem Memory.blank_cells : (Memory.blank α).cells = [] := rfl

@[simp] theorem Memory.get?_blank (k : Nat) : (Memory.blank α).get? k = none := rfl

@[simp] theorem Memory.get?_forget (m : Memory α) (k : Nat) : m.forget.get? k = none := rfl

theorem Memory.get?_set (m : Memory α) (k j : Nat) (v : α) :
    (m.set k v).get? j = if j = k then some v else m.get? j := lookupCell_insertCell _ _ _ _

@[simp] theorem Memory.get?_set_same (m : Memory α) (k : Nat) (v : α) : (m.set k v).get? k = some v := by
  simp [Memory.get?_set]

theorem Memory.get?_set_other (m : Memory α) {k j : Nat} (v : α) (h : j ≠ k) :
    (m.set k v).get? j = m.get? j := by
  simp [Memory.get?_set, h]

theorem Memory.get?_fill (m : Memory α) (vs : List α) (k : Nat) : (m.fill vs).get? k = vs[k]? := by
  simp [Memory.get?, lookupCell_cellsFrom]

theorem Memory.wf_blank : (Memory.blank α).wf = true := rfl

theorem Memory.wf_forget (m : Memory α) : m.forget.wf = true := rfl

theorem Memory.wf_fill (m : Memory α) (vs : List α) : (m.fill vs).wf = true := risingFrom_cellsFrom vs 0

theorem Memory.wf_set {m : Memory α} (k : Nat) (v : α) (h : m.wf = true) : (m.set k v).wf = true :=
  risingFrom_insertCell (Nat.zero_le k) h

/-- Memories in the canonical form that read alike, with the same free values, are equal data. -/
theorem Memory.ext_reads {m n : Memory α} (hm : m.wf = true) (hn : n.wf = true) (hg : m.gen = n.gen)
    (h : ∀ k, m.get? k = n.get? k) : m = n := by
  cases m; cases n
  simp only [Memory.mk.injEq]
  exact ⟨cells_ext hm hn h, hg⟩

/-! ## Reads of single elements -/

theorem byteOr_set (what : Unspecified) (m : Memory Byte) (k j : Nat) (v : Byte) :
    byteOr what (m.set k v) j = if j = k then v else byteOr what m j := by
  unfold byteOr
  rw [Memory.get?_set]
  split <;> simp

theorem byteOr_fill (what : Unspecified) (m : Memory Byte) (vs : List Byte) {k : Nat} (h : k < vs.length) :
    byteOr what (m.fill vs) k = vs[k] := by
  simp [byteOr, Memory.get?_fill, h]

theorem wordOr_set (what : Unspecified) (m : Memory Word) (k j : Nat) (v : Word) :
    wordOr what (m.set k v) j = if j = k then v else wordOr what m j := by
  unfold wordOr
  rw [Memory.get?_set]
  split <;> simp

theorem wordOr_fill (what : Unspecified) (m : Memory Word) (vs : List Word) {k : Nat} (h : k < vs.length) :
    wordOr what (m.fill vs) k = vs[k] := by
  simp [wordOr, Memory.get?_fill, h]

theorem nodeOr_set (m : Memory NodeRec) (k j : Nat) (v : NodeRec) :
    nodeOr (m.set k v) j = if j = k then v else nodeOr m j := by
  unfold nodeOr
  rw [Memory.get?_set]
  split <;> simp

theorem codeOr_set (m : Memory (List Bool)) (k j : Nat) (v : List Bool) :
    codeOr (m.set k v) j = if j = k then v else codeOr m j := by
  unfold codeOr
  rw [Memory.get?_set]
  split <;> simp

theorem codeOr_fill (m : Memory (List Bool)) (vs : List (List Bool)) {k : Nat} (h : k < vs.length) :
    codeOr (m.fill vs) k = vs[k] := by
  simp [codeOr, Memory.get?_fill, h]

end Sys2Proof.Machine
end

