-- ==== Sys2Proof/Laws/Bits.lean ====
section
/-! SUPPORT. The bit packer and the bit reader: one lemma per operation, in terms of the bits written and the bits still
to be delivered (rules R110 to R128). -/

namespace Sys2Proof.Machine

/-! ## Packing -/

theorem packedByte_of_bits {bits : List Bool} {j : Nat} {v : Byte}
    (h : ∀ k, k < 8 → bits.getD (8 * j + k) false = v.getLsbD (7 - k)) : packedByte bits j = v := by
  have all : ∀ v : Byte,
      BitVec.ofNat 8 ((List.range 8).map (fun k => if v.getLsbD (7 - k) then 2 ^ (7 - k) else 0)).sum = v := by
    decide +kernel
  rw [packedByte, ← all v]
  congr 2
  apply List.map_congr_left
  intro k hk
  rw [h k (List.mem_range.mp hk)]

theorem packed_nil : packed [] = [] := rfl

theorem packed_append {x : List Bool} (y : List Bool) (h : x.length = 8) :
    packed (x ++ y) = packedByte x 0 :: packed y := by
  have hlen : (List.length (x ++ y) + 7) / 8 = (y.length + 7) / 8 + 1 := by
    simp only [List.length_append, h]; omega
  rw [packed, hlen, List.range_succ_eq_map, List.map_cons, List.map_map, packed]
  congr 1
  · simp only [packedByte]
    congr 2
    apply List.map_congr_left
    intro k hk
    have := List.mem_range.mp hk
    simp only [List.getD_eq_getElem?_getD]
    rw [List.getElem?_append_left (by omega)]
  · apply List.map_congr_left
    intro j _
    simp only [packedByte, Function.comp]
    congr 2
    apply List.map_congr_left
    intro k _
    simp only [List.getD_eq_getElem?_getD]
    rw [List.getElem?_append_right (by omega), h, show 8 * (j + 1) + k - 8 = 8 * j + k by omega]

theorem packed_short {x : List Bool} (h0 : 0 < x.length) (h : x.length < 8) : packed x = [packedByte x 0] := by
  rw [packed, show (x.length + 7) / 8 = 1 by omega]
  rfl

@[simp] theorem bitsOfByte_length (v : Byte) : (bitsOfByte v).length = 8 := by simp [bitsOfByte]

theorem bitsOfByte_getElem? (v : Byte) (k : Nat) :
    (bitsOfByte v)[k]? = if k < 8 then some (v.getLsbD (7 - k)) else none := by
  simp only [bitsOfByte, List.getElem?_map]
  by_cases hk : k < 8
  · rw [List.getElem?_range hk, if_pos hk]; rfl
  · rw [List.getElem?_eq_none (by simpa using hk), if_neg hk]; rfl

theorem packedByte_bitsOfByte (v : Byte) : packedByte (bitsOfByte v) 0 = v := by
  apply packedByte_of_bits
  intro k hk
  rw [List.getD_eq_getElem?_getD, Nat.mul_zero, Nat.zero_add, bitsOfByte_getElem?, if_pos hk]
  rfl

theorem bitsOfByte_inj {u v : Byte} (h : bitsOfByte u = bitsOfByte v) : u = v := by
  rw [← packedByte_bitsOfByte u, h, packedByte_bitsOfByte]

/-- Packing the bits of bytes gives the bytes. -/
theorem packed_bitsOfBytes (l : List Byte) : packed (bitsOfBytes l) = l := by
  induction l with
  | nil => rfl
  | cons v l ih =>
    show packed (bitsOfByte v ++ bitsOfBytes l) = v :: l
    rw [packed_append _ (bitsOfByte_length v), packedByte_bitsOfByte, ih]

@[simp] theorem bitsOfBytes_length (l : List Byte) : (bitsOfBytes l).length = 8 * l.length := by
  induction l with
  | nil => rfl
  | cons v l ih =>
    show (bitsOfByte v ++ bitsOfBytes l).length = 8 * (l.length + 1)
    rw [List.length_append, bitsOfByte_length, ih]; omega

theorem bitsOfBytes_cons (v : Byte) (l : List Byte) : bitsOfBytes (v :: l) = bitsOfByte v ++ bitsOfBytes l := rfl

theorem bitsOfBytes_append (l m : List Byte) : bitsOfBytes (l ++ m) = bitsOfBytes l ++ bitsOfBytes m := by
  simp [bitsOfBytes]

/-- The bits of the packed bytes are the bits, followed by the padding zeros (R119). -/
theorem bitsOfBytes_packed (bits : List Bool) :
    ∃ pad : List Bool, pad.length < 8 ∧ (∀ b ∈ pad, b = false) ∧ bitsOfBytes (packed bits) = bits ++ pad := by
  obtain ⟨n, hn⟩ : ∃ n, bits.length ≤ 8 * n := ⟨bits.length, by omega⟩
  induction n generalizing bits with
  | zero =>
    have : bits = [] := List.length_eq_zero_iff.mp (by omega)
    subst this
    exact ⟨[], by simp, by simp, rfl⟩
  | succ n ih =>
    rcases Nat.lt_or_ge bits.length 8 with hlt | hge
    · rcases Nat.eq_zero_or_pos bits.length with h0 | h0
      · have : bits = [] := List.length_eq_zero_iff.mp h0
        subst this
        exact ⟨[], by simp, by simp, rfl⟩
      · refine ⟨List.replicate (8 - bits.length) false, by simp; omega, by simp, ?_⟩
        rw [packed_short h0 hlt]
        show bitsOfByte (packedByte bits 0) ++ [] = _
        rw [List.append_nil]
        have hbyte : packedByte bits 0 = packedByte (bits ++ List.replicate (8 - bits.length) false) 0 := by
          simp only [packedByte]
          congr 2
          apply List.map_congr_left
          intro k hk
          simp only [List.getD_eq_getElem?_getD]
          by_cases hkl : 8 * 0 + k < bits.length
          · rw [List.getElem?_append_left hkl]
          · rw [List.getElem?_append_right (by omega), List.getElem?_eq_none (by omega)]
            have hz : (if 8 * 0 + k - bits.length < 8 - bits.length then some false else none).getD false
                = false := by split <;> rfl
            rw [List.getElem?_replicate, hz]
            rfl
        rw [hbyte]
        generalize hx : bits ++ List.replicate (8 - bits.length) false = x
        have hxl : x.length = 8 := by rw [← hx]; simp; omega
        clear hx hbyte hn ih h0 hlt
        match x, hxl with
        | [a, b, c, d, e, f, g, h], _ =>
          revert a b c d e f g h
          decide +kernel
    · obtain ⟨pad, h1, h2, h3⟩ := ih (bits.drop 8) (by rw [List.length_drop]; omega)
      refine ⟨pad, h1, h2, ?_⟩
      have htake : (bits.take 8).length = 8 := by rw [List.length_take]; omega
      conv_lhs => rw [← List.take_append_drop 8 bits]
      conv_rhs => rw [← List.take_append_drop 8 bits]
      rw [packed_append _ htake, bitsOfBytes_cons, h3, List.append_assoc]
      congr 1
      generalize bits.take 8 = x at htake
      match x, htake with
      | [a, b, c, d, e, f, g, h], _ =>
        revert a b c d e f g h
        decide +kernel

/-! ## Writer -/

/-- The bits written since the last emitted byte, the earliest first (R36). -/
def BitWriter.pendingBits (w : BitWriter) : List Bool :=
  (List.range w.cnt.toNat).map (fun k => w.acc.getLsbD (w.cnt.toNat - 1 - k))

@[simp] theorem BitWriter.pendingBits_length (w : BitWriter) : w.pendingBits.length = w.cnt.toNat := by
  simp [BitWriter.pendingBits]

theorem putBits_nil (w : BitWriter) : w.putBits [] = w := rfl

theorem putBits_cons (w : BitWriter) (b : Bool) (bits : List Bool) :
    w.putBits (b :: bits) = (w.putBit b).putBits bits := rfl

theorem putBits_append (w : BitWriter) (x y : List Bool) : w.putBits (x ++ y) = (w.putBits x).putBits y := by
  simp [BitWriter.putBits]

theorem putByte_eq (w : BitWriter) (v : Byte) : w.putByte v = w.putBits (bitsOfByte v) := rfl

theorem shiftIn_bit (acc : Byte) (b : Bool) (i : Nat) (hi : i < 8) :
    ((acc <<< 1) ||| (BitVec.ofBool b).setWidth 8).getLsbD i = if i = 0 then b else acc.getLsbD (i - 1) := by
  cases i with
  | zero => cases b <;> simp
  | succ i =>
    have hb : ((BitVec.ofBool b).setWidth 8).getLsbD (i + 1) = false := by
      cases b <;> simp
    rw [BitVec.getLsbD_or, hb, BitVec.getLsbD_shiftLeft]
    simp [hi]

/-- PutBit either completes a byte or lengthens the pending bits (R111). -/
theorem putBit_spec (w : BitWriter) (b : Bool) :
    (w.cnt.toNat = 7 ∧ ∃ v : Byte, bitsOfByte v = w.pendingBits ++ [b] ∧
        w.putBit b = { acc := 0#8, cnt := 0#3, snk := w.snk ++ [v] }) ∨
      (w.cnt.toNat < 7 ∧ (w.putBit b).pendingBits = w.pendingBits ++ [b] ∧ (w.putBit b).snk = w.snk ∧
        (w.putBit b).cnt.toNat = w.cnt.toNat + 1) := by
  by_cases h : w.cnt = 7#3
  · left
    refine ⟨by rw [h]; rfl, (w.acc <<< 1) ||| (BitVec.ofBool b).setWidth 8, ?_, ?_⟩
    · apply List.ext_getElem?
      intro k
      rw [bitsOfByte_getElem?]
      have h7 : w.cnt.toNat = 7 := by rw [h]; rfl
      by_cases hk : k < 7
      · rw [if_pos (by omega), shiftIn_bit _ _ _ (by omega), if_neg (by omega),
          List.getElem?_append_left (by simpa [h7] using hk)]
        simp only [BitWriter.pendingBits, List.getElem?_map, h7]
        rw [List.getElem?_range hk]
        simp only [Option.map_some, Option.some.injEq]
        congr 1
        omega
      · by_cases hk7 : k = 7
        · subst hk7
          rw [if_pos (by omega), shiftIn_bit _ _ _ (by omega), if_pos (by omega),
            List.getElem?_append_right (by simp [h7])]
          simp [h7]
        · rw [if_neg (by omega), List.getElem?_eq_none (by simp [h7]; omega)]
    · simp [BitWriter.putBit, h, BitWriter.snkPut]
  · right
    have hlt : w.cnt.toNat < 7 := by
      have h1 := w.cnt.isLt
      have h2 : w.cnt.toNat ≠ 7 := fun h' => h (BitVec.eq_of_toNat_eq (by rw [h']; rfl))
      omega
    have hcnt : (w.cnt + 1#3).toNat = w.cnt.toNat + 1 := by
      rw [BitVec.toNat_add]; simp; omega
    refine ⟨hlt, ?_, by simp [BitWriter.putBit, h], by simp [BitWriter.putBit, h, hcnt]⟩
    apply List.ext_getElem?
    intro k
    have e : w.putBit b = { w with
        acc := (w.acc <<< 1) ||| (BitVec.ofBool b).setWidth 8, cnt := w.cnt + 1#3 } := by
      simp [BitWriter.putBit, h]
    rw [e]
    simp only [BitWriter.pendingBits, List.getElem?_map, hcnt]
    by_cases hk : k < w.cnt.toNat
    · rw [List.getElem?_range (by omega), List.getElem?_append_left (by simpa using hk), List.getElem?_map,
        List.getElem?_range hk]
      simp only [Option.map_some, Option.some.injEq]
      rw [shiftIn_bit _ _ _ (by omega), if_neg (by omega)]
      congr 1
      omega
    · by_cases hk2 : k = w.cnt.toNat
      · subst hk2
        rw [List.getElem?_range (by omega), List.getElem?_append_right (by simp)]
        simp only [Option.map_some, List.length_map, List.length_range, Nat.sub_self, List.getElem?_cons_zero,
          Option.some.injEq]
        rw [shiftIn_bit _ _ _ (by omega), if_pos (by omega)]
      · rw [List.getElem?_eq_none (by simp; omega), List.getElem?_eq_none (by simp; omega)]
        rfl

/-- FlushBits emits the pending bits, zero-padded, or does nothing (R116). -/
theorem flushBits_spec (w : BitWriter) :
    w.flushBits.snk = w.snk ++ packed w.pendingBits ∧ w.flushBits.cnt = 0#3 ∧
      (0 < w.cnt.toNat → w.flushBits.acc = 0#8) ∧ (w.cnt.toNat = 0 → w.flushBits = w) := by
  unfold BitWriter.flushBits
  by_cases h : w.cnt.toNat > 0
  · rw [if_pos h]
    refine ⟨?_, rfl, fun _ => rfl, fun h0 => by omega⟩
    show w.snk ++ [w.acc <<< (8 - w.cnt.toNat)] = _
    have h8 := w.cnt.isLt
    rw [packed_short (by simpa using h) (by rw [BitWriter.pendingBits_length]; omega)]
    congr 2
    symm
    apply packedByte_of_bits
    intro k hk
    simp only [List.getD_eq_getElem?_getD, BitWriter.pendingBits, List.getElem?_map, Nat.mul_zero, Nat.zero_add]
    by_cases hkc : k < w.cnt.toNat
    · rw [List.getElem?_range hkc]
      simp only [Option.map_some, Option.getD_some, BitVec.getLsbD_shiftLeft]
      rw [decide_eq_true (show 7 - k < 8 by omega), decide_eq_false (show ¬ 7 - k < 8 - w.cnt.toNat by omega)]
      simp only [Bool.not_false, Bool.true_and]
      congr 1
      omega
    · rw [List.getElem?_eq_none (by simp; omega)]
      simp only [Option.map_none, Option.getD_none, BitVec.getLsbD_shiftLeft]
      rw [decide_eq_true (show 7 - k < 8 - w.cnt.toNat by omega)]
      simp
  · have h0 : w.cnt.toNat = 0 := by omega
    rw [if_neg h]
    refine ⟨?_, BitVec.eq_of_toNat_eq (by simpa using h0), fun h' => by omega, fun _ => rfl⟩
    have : w.pendingBits = [] := List.length_eq_zero_iff.mp (by simpa using h0)
    rw [this, packed_nil, List.append_nil]

/-- Writing bits and flushing emits the pending bits and the written ones, packed (R119). -/
theorem putBits_flush (w : BitWriter) (bits : List Bool) :
    (w.putBits bits).flushBits.snk = w.snk ++ packed (w.pendingBits ++ bits) := by
  induction bits generalizing w with
  | nil => rw [putBits_nil, List.append_nil]; exact (flushBits_spec w).1
  | cons b bits ih =>
    rw [putBits_cons, ih]
    rcases putBit_spec w b with ⟨_, v, hv, he⟩ | ⟨_, hp, hs, _⟩
    · have e : w.pendingBits ++ b :: bits = bitsOfByte v ++ bits := by rw [hv]; simp
      rw [he, e, packed_append _ (bitsOfByte_length v), packedByte_bitsOfByte]
      simp [BitWriter.pendingBits]
    · rw [hp, hs, List.append_assoc]; rfl

theorem pendingBits_of_empty {w : BitWriter} (h : w.cnt = 0#3) : w.pendingBits = [] :=
  List.length_eq_zero_iff.mp (by rw [BitWriter.pendingBits_length, h]; rfl)

/-- Writing bits after a non-empty bit string and flushing leaves WACC and WCNT 0. -/
theorem flush_clears (w : BitWriter) (h : w.cnt.toNat = 0 → w.acc = 0#8) :
    w.flushBits.acc = 0#8 ∧ w.flushBits.cnt = 0#3 := by
  obtain ⟨_, hc, ha, h0⟩ := flushBits_spec w
  refine ⟨?_, hc⟩
  rcases Nat.eq_zero_or_pos w.cnt.toNat with hz | hp
  · rw [h0 hz]; exact h hz
  · exact ha hp

theorem putBit_zero_acc (w : BitWriter) (b : Bool) : (w.putBit b).cnt.toNat = 0 → (w.putBit b).acc = 0#8 := by
  intro h
  rcases putBit_spec w b with ⟨_, v, _, he⟩ | ⟨_, _, _, hc⟩
  · rw [he]
  · omega

theorem putBits_zero_acc (w : BitWriter) (bits : List Bool) (h : w.cnt.toNat = 0 → w.acc = 0#8) :
    (w.putBits bits).cnt.toNat = 0 → (w.putBits bits).acc = 0#8 := by
  induction bits generalizing w with
  | nil => exact h
  | cons b bits ih => exact ih _ (putBit_zero_acc w b)

/-- The number of pending bits after writing (R196). -/
theorem putBits_cnt (w : BitWriter) (bits : List Bool) :
    (w.putBits bits).cnt.toNat = (w.cnt.toNat + bits.length) % 8 := by
  induction bits generalizing w with
  | nil => simp [putBits_nil]; have := w.cnt.isLt; omega
  | cons b bits ih =>
    rw [putBits_cons, ih, List.length_cons]
    rcases putBit_spec w b with ⟨h7, v, _, he⟩ | ⟨_, _, _, hc⟩
    · rw [he, h7]; simp; omega
    · rw [hc]; congr 1; omega

/-- The sink only grows (R47, R67). -/
theorem putBits_snk (w : BitWriter) (bits : List Bool) : w.snk <+: (w.putBits bits).snk := by
  induction bits generalizing w with
  | nil => exact List.prefix_refl _
  | cons b bits ih =>
    refine List.IsPrefix.trans ?_ (ih (w.putBit b))
    rcases putBit_spec w b with ⟨_, v, _, he⟩ | ⟨_, _, hs, _⟩
    · rw [he]; exact List.prefix_append _ _
    · rw [hs]

/-- The number of bytes emitted by writing bits (R67). -/
theorem putBits_snk_length (w : BitWriter) (bits : List Bool) :
    (w.putBits bits).snk.length = w.snk.length + (w.cnt.toNat + bits.length) / 8 := by
  induction bits generalizing w with
  | nil => simp [putBits_nil]; have := w.cnt.isLt; omega
  | cons b bits ih =>
    rw [putBits_cons, ih, List.length_cons]
    rcases putBit_spec w b with ⟨h7, v, _, he⟩ | ⟨_, _, hs, hc⟩
    · rw [he, h7]; simp; omega
    · rw [hc, hs]; congr 2; omega

/-- `WACC[7:WCNT] = 0` (R110). -/
def BitWriter.TopClear (w : BitWriter) : Prop := w.acc.toNat < 2 ^ w.cnt.toNat

theorem TopClear.putBit {w : BitWriter} (h : w.TopClear) (b : Bool) : (w.putBit b).TopClear := by
  unfold BitWriter.TopClear BitWriter.putBit at *
  have h8 := w.cnt.isLt
  split
  · simp
  · rename_i hc
    have hcn : w.cnt.toNat < 7 := by
      have : w.cnt.toNat ≠ 7 := fun e => hc (BitVec.eq_of_toNat_eq e)
      omega
    have hc1 : (w.cnt + 1#3).toNat = w.cnt.toNat + 1 := by rw [BitVec.toNat_add]; simp; omega
    have hp : 2 ^ (w.cnt.toNat + 1) = 2 ^ w.cnt.toNat * 2 := pow_succ 2 _
    have h1 : 0 < 2 ^ w.cnt.toNat := Nat.two_pow_pos _
    simp only [hc1]
    rw [BitVec.toNat_or]
    refine Nat.or_lt_two_pow ?_ ?_
    · rw [BitVec.toNat_shiftLeft, Nat.shiftLeft_eq]
      exact Nat.lt_of_le_of_lt (Nat.mod_le _ _) (by omega)
    · cases b <;> simp

theorem TopClear.putBits {w : BitWriter} (h : w.TopClear) (bits : List Bool) : (w.putBits bits).TopClear := by
  induction bits generalizing w with
  | nil => exact h
  | cons b bits ih => exact ih (TopClear.putBit h b)

theorem TopClear.flushBits {w : BitWriter} (h : w.TopClear) : w.flushBits.TopClear := by
  unfold BitWriter.flushBits
  split
  · simp [BitWriter.TopClear]
  · exact h

/-! ## Reader -/

/-- `r'` is what is left of `r` after the bits were delivered. -/
structure ReadsTo (r : BitReader) (bits : List Bool) (r' : BitReader) : Prop where
  bits : r.pendingBits = bits ++ r'.pendingBits
  count : r'.cnt.toNat ≤ 7
  suffix : r'.src <:+ r.src

theorem ReadsTo.trans {r r' r'' : BitReader} {x y : List Bool} (h : ReadsTo r x r') (h' : ReadsTo r' y r'') :
    ReadsTo r (x ++ y) r'' :=
  ⟨by rw [h.bits, h'.bits, List.append_assoc], h'.count, h'.suffix.trans h.suffix⟩

theorem pendingBits_length (r : BitReader) : r.pendingBits.length = r.bitsLeft := by
  simp [BitReader.pendingBits, BitReader.bitsLeft]

theorem deliver_spec (r : BitReader) (h0 : 0 < r.cnt.toNat) (h8 : r.cnt.toNat ≤ 8) :
    ∃ b r', r.deliver = .ok b r' ∧ ReadsTo r [b] r' ∧ r'.src = r.src ∧ r'.cnt.toNat = r.cnt.toNat - 1 ∧
      r'.buf = r.buf := by
  have hc : (r.cnt - 1#4).toNat = r.cnt.toNat - 1 := by
    rw [BitVec.toNat_sub]; simp; omega
  refine ⟨_, _, rfl, ⟨?_, by rw [hc]; omega, List.suffix_refl _⟩, rfl, hc, rfl⟩
  simp only [BitReader.pendingBits, hc]
  rw [← List.append_assoc]
  congr 1
  obtain ⟨m, hm⟩ : ∃ m, r.cnt.toNat = m + 1 := ⟨r.cnt.toNat - 1, by omega⟩
  rw [hm, List.range_succ_eq_map]
  simp only [List.map_cons, List.map_map, Nat.add_sub_cancel, List.singleton_append, Nat.sub_zero,
    List.cons.injEq, true_and]
  apply List.map_congr_left
  intro k _
  simp only [Function.comp]
  congr 1
  omega

/-- With no bit buffered, what is pending is SRC (R122, R222). -/
theorem pendingBits_of_aligned {r : BitReader} (h : r.cnt = 0#4) : r.pendingBits = bitsOfBytes r.src := by
  simp [BitReader.pendingBits, h]

/-- GetBit delivers the next pending bit, or fails with nothing changed when there is none (R120, R122, R123). -/
theorem getBit_spec (r : BitReader) (h7 : r.cnt.toNat ≤ 7) :
    (r.pendingBits = [] ∧ r.src = [] ∧ r.cnt = 0#4 ∧ r.getBit = .raised .endOfStream r) ∨
      ∃ b r', r.getBit = .ok b r' ∧ ReadsTo r [b] r' := by
  unfold BitReader.getBit
  by_cases h : r.cnt = 0#4
  · rw [if_pos h]
    cases hs : r.src with
    | nil =>
      left
      refine ⟨?_, rfl, h, rfl⟩
      simp [BitReader.pendingBits, h, hs, bitsOfBytes]
    | cons v rest =>
      right
      obtain ⟨b, r', he, hr, hsrc, _⟩ :=
        deliver_spec { buf := v, cnt := 8#4, src := rest } (by simp) (by simp)
      refine ⟨b, r', he, ?_, hr.count, ?_⟩
      · rw [← hr.bits]
        simp only [BitReader.pendingBits, h, hs, bitsOfBytes_cons]
        rfl
      · rw [hsrc, hs]; exact List.suffix_cons _ _
  · rw [if_neg h]
    right
    have : r.cnt.toNat ≠ 0 := fun h' => h (BitVec.eq_of_toNat_eq (by simpa using h'))
    obtain ⟨b, r', he, hr, _⟩ := deliver_spec r (by omega) (by omega)
    exact ⟨b, r', he, hr⟩

/-- GetBit when a bit is pending. -/
theorem getBit_ok {r : BitReader} (h7 : r.cnt.toNat ≤ 7) {b : Bool} {rest : List Bool}
    (h : r.pendingBits = b :: rest) : ∃ r', r.getBit = .ok b r' ∧ ReadsTo r [b] r' := by
  rcases getBit_spec r h7 with ⟨he, _⟩ | ⟨b', r', hr, hto⟩
  · rw [h] at he; simp at he
  · have := hto.bits
    rw [h] at this
    simp only [List.singleton_append, List.cons.injEq] at this
    rw [← this.1] at hr hto
    exact ⟨r', hr, hto⟩

/-- GetBit when no bit is pending. -/
theorem getBit_eos {r : BitReader} (h7 : r.cnt.toNat ≤ 7) (h : r.pendingBits = []) :
    r.getBit = .raised .endOfStream r ∧ r.src = [] ∧ r.cnt = 0#4 := by
  rcases getBit_spec r h7 with ⟨_, hs, hc, hr⟩ | ⟨b', r', hr, hto⟩
  · exact ⟨hr, hs, hc⟩
  · have := hto.bits
    rw [h] at this
    simp at this

/-- Repeated GetBit. -/
theorem getBits_spec {bits : List Bool} : ∀ {r : BitReader} {rest : List Bool}, r.cnt.toNat ≤ 7 →
    r.pendingBits = bits ++ rest →
    ∃ r', BitReader.getBits bits.length r = .ok bits r' ∧ ReadsTo r bits r' ∧ r'.pendingBits = rest := by
  induction bits with
  | nil => intro r rest h7 h; exact ⟨r, rfl, ⟨by simp, h7, List.suffix_refl _⟩, by simpa using h⟩
  | cons b bits ih =>
    intro r rest h7 h
    obtain ⟨r1, e1, t1⟩ := getBit_ok h7 (b := b) (rest := bits ++ rest) (by simpa using h)
    have hb : r1.pendingBits = bits ++ rest := by
      have := t1.bits
      rw [h] at this
      simpa using this.symm
    obtain ⟨r2, e2, t2, p2⟩ := ih t1.count hb
    refine ⟨r2, ?_, t1.trans t2, p2⟩
    simp [BitReader.getBits, e1, e2, Attempt.andThen]

theorem getBitsInto_spec {bits : List Bool} : ∀ {r : BitReader} {rest : List Bool} (v : Byte), r.cnt.toNat ≤ 7 →
    r.pendingBits = bits ++ rest →
    ∃ r', BitReader.getBitsInto bits.length v r =
        .ok (bits.foldl (fun (v : Byte) b => (v <<< 1) ||| (BitVec.ofBool b).setWidth 8) v) r' ∧ ReadsTo r bits r' := by
  induction bits with
  | nil => intro r rest v h7 h; exact ⟨r, rfl, by simp, h7, List.suffix_refl _⟩
  | cons b bits ih =>
    intro r rest v h7 h
    obtain ⟨r1, e1, t1⟩ := getBit_ok h7 (b := b) (rest := bits ++ rest) (by simpa using h)
    have hb : r1.pendingBits = bits ++ rest := by
      have := t1.bits
      rw [h] at this
      simpa using this.symm
    obtain ⟨r2, e2, t2⟩ := ih ((v <<< 1) ||| (BitVec.ofBool b).setWidth 8) t1.count hb
    refine ⟨r2, ?_, t1.trans t2⟩
    simp [BitReader.getBitsInto, e1, e2, Attempt.andThen]

theorem fold_bitsOfByte (v : Byte) :
    (bitsOfByte v).foldl (fun (v : Byte) b => (v <<< 1) ||| (BitVec.ofBool b).setWidth 8) 0#8 = v := by
  revert v
  decide +kernel

/-- GetByte delivers the next eight pending bits as a byte (R124). -/
theorem getByte_ok {r : BitReader} (h7 : r.cnt.toNat ≤ 7) {v : Byte} {rest : List Bool}
    (h : r.pendingBits = bitsOfByte v ++ rest) : ∃ r', r.getByte = .ok v r' ∧ ReadsTo r (bitsOfByte v) r' := by
  have hleft : ¬ r.bitsLeft < 8 := by
    rw [← pendingBits_length, h, List.length_append, bitsOfByte_length]; omega
  obtain ⟨r', e, t⟩ := getBitsInto_spec 0#8 h7 h
  rw [bitsOfByte_length, fold_bitsOfByte] at e
  exact ⟨r', by rw [BitReader.getByte, if_neg hleft, e], t⟩

/-- GetByte with fewer than eight pending bits fails with nothing consumed (R124, R125). -/
theorem getByte_eos {r : BitReader} (h : r.pendingBits.length < 8) :
    r.getByte = .raised .endOfStream r ∧ r.src = [] := by
  rw [pendingBits_length] at h
  refine ⟨by rw [BitReader.getByte, if_pos h], ?_⟩
  cases hs : r.src with
  | nil => rfl
  | cons v l => simp [BitReader.bitsLeft, hs] at h; omega

/-- Eight bits are the bits of a byte. -/
theorem exists_byte {x : List Bool} (h : x.length = 8) : ∃ v : Byte, bitsOfByte v = x := by
  match x, h with
  | [a, b, c, d, e, f, g, i], _ =>
    refine ⟨packedByte [a, b, c, d, e, f, g, i] 0, ?_⟩
    revert a b c d e f g i
    decide +kernel

/-- GetByte in full: fewer than eight pending bits, or the next byte. -/
theorem getByte_spec (r : BitReader) (h7 : r.cnt.toNat ≤ 7) :
    (r.pendingBits.length < 8 ∧ r.src = [] ∧ r.getByte = .raised .endOfStream r) ∨
      ∃ v r', r.getByte = .ok v r' ∧ ReadsTo r (bitsOfByte v) r' := by
  rcases Nat.lt_or_ge r.pendingBits.length 8 with h | h
  · exact .inl ⟨h, (getByte_eos h).2, (getByte_eos h).1⟩
  · right
    obtain ⟨v, hv⟩ := exists_byte (x := r.pendingBits.take 8) (by rw [List.length_take]; omega)
    obtain ⟨r', e, t⟩ := getByte_ok h7 (v := v) (rest := r.pendingBits.drop 8)
      (by rw [hv, List.take_append_drop])
    exact ⟨v, r', e, t⟩

/-- Bytes whose bits are the end of a byte string's bits are its end. -/
theorem suffix_of_bits {src extra : List Byte} {bits : List Bool} (h : bitsOfBytes src = bits ++ bitsOfBytes extra) :
    extra <:+ src := by
  have hl := congrArg List.length h
  rw [List.length_append, bitsOfBytes_length, bitsOfBytes_length] at hl
  have e : bitsOfBytes (src.drop (src.length - extra.length)) = bitsOfBytes extra := by
    have h2 : bitsOfBytes src = bitsOfBytes (src.take (src.length - extra.length)) ++
        bitsOfBytes (src.drop (src.length - extra.length)) := by
      rw [← bitsOfBytes_append, List.take_append_drop]
    rw [h2] at h
    exact (List.append_inj' h (by simp; omega)).2
  have e' := congrArg packed e
  rw [packed_bitsOfBytes, packed_bitsOfBytes] at e'
  rw [← e']
  exact List.drop_suffix _ _

/-- Two ways to cut one bit string into a short head and whole bytes agree on the bytes when one byte string is a
suffix of the other's source. -/
theorem src_of_pending {r : BitReader} {pad : List Bool} {extra : List Byte} (h7 : r.cnt.toNat ≤ 7)
    (hp : pad.length < 8) (h : r.pendingBits = pad ++ bitsOfBytes extra) {whole : List Byte}
    (hs : r.src <:+ whole) (he : extra <:+ whole) : r.src = extra := by
  have hlen : r.cnt.toNat + 8 * r.src.length = pad.length + 8 * extra.length := by
    have := congrArg List.length h
    rw [pendingBits_length, List.length_append, bitsOfBytes_length] at this
    exact this
  exact (List.suffix_of_suffix_length_le hs he (by omega)).eq_of_length (by omega)

end Sys2Proof.Machine
end

