-- ==== Sys2Proof/Laws/Expand.lean ====
section
/-! SUPPORT. The phases of EXPAND: what each reads, what it builds, and how it ends when the stream runs out (rules R223
to R232). -/

namespace Sys2Proof.Machine

/-! ## Tries in the arena -/

/-- The subtree at node `x` is the trie, and its records have indexes from `lo` up to, not including, `hi`. -/
def HufScratch.TrieIn (h : HufScratch) (lo hi : Nat) : NodeIdx → Trie → Prop
  | x, .leaf s => lo ≤ x.toNat ∧ x.toNat < hi ∧ (h.nodeAt x).leaf = true ∧ (h.nodeAt x).sym = s
  | x, .node l r =>
    lo ≤ x.toNat ∧ x.toNat < hi ∧ (h.nodeAt x).leaf = false ∧ h.TrieIn lo hi (h.nodeAt x).left l ∧
      h.TrieIn lo hi (h.nodeAt x).right r

theorem TrieIn.hasTrie {h : HufScratch} {lo hi : Nat} {t : Trie} {x : NodeIdx} (ht : h.TrieIn lo hi x t) :
    h.HasTrie x t := by
  induction t generalizing x with
  | leaf s => exact ⟨ht.2.2.1, ht.2.2.2⟩
  | node l r ihl ihr => exact ⟨ht.2.2.1, ihl ht.2.2.2.1, ihr ht.2.2.2.2⟩

theorem TrieIn.congr {h h' : HufScratch} {lo hi : Nat} {t : Trie} {x : NodeIdx}
    (he : ∀ y : NodeIdx, lo ≤ y.toNat → y.toNat < hi → h'.nodeAt y = h.nodeAt y) (ht : h.TrieIn lo hi x t) :
    h'.TrieIn lo hi x t := by
  induction t generalizing x with
  | leaf s => obtain ⟨h1, h2, h3, h4⟩ := ht; exact ⟨h1, h2, by rw [he x h1 h2]; exact h3, by rw [he x h1 h2]; exact h4⟩
  | node l r ihl ihr =>
    obtain ⟨h1, h2, h3, h4, h5⟩ := ht
    refine ⟨h1, h2, ?_, ?_, ?_⟩ <;> rw [he x h1 h2]
    · exact h3
    · exact ihl h4
    · exact ihr h5

theorem TrieIn.mono {h : HufScratch} {lo hi lo' hi' : Nat} {t : Trie} {x : NodeIdx} (hl : lo' ≤ lo) (hh : hi ≤ hi')
    (ht : h.TrieIn lo hi x t) : h.TrieIn lo' hi' x t := by
  induction t generalizing x with
  | leaf s => exact ⟨by have := ht.1; omega, by have := ht.2.1; omega, ht.2.2⟩
  | node l r ihl ihr =>
    exact ⟨by have := ht.1; omega, by have := ht.2.1; omega, ht.2.2.1, ihl ht.2.2.2.1, ihr ht.2.2.2.2⟩

theorem HasTrie.congr {h h' : HufScratch} {t : Trie} {x : NodeIdx} (he : ∀ y, h'.nodeAt y = h.nodeAt y)
    (ht : h.HasTrie x t) : h'.HasTrie x t := by
  induction t generalizing x with
  | leaf s => exact ⟨by rw [he]; exact ht.1, by rw [he]; exact ht.2⟩
  | node l r ihl ihr => exact ⟨by rw [he]; exact ht.1, by rw [he]; exact ihl ht.2.1, by rw [he]; exact ihr ht.2.2⟩

theorem HasTrie.leaf_iff {h : HufScratch} {t : Trie} {x : NodeIdx} (ht : h.HasTrie x t) :
    (h.nodeAt x).leaf = !t.branches := by
  cases t with
  | leaf s => exact ht.1
  | node l r => exact ht.1

theorem Trie.size_pos (t : Trie) : 0 < t.size := by cases t <;> simp [Trie.size]

/-- A trie section is the bits of its records (R98). -/
theorem Trie.section_eq_records (t : Trie) : t.section = t.records.flatMap recordBits := by
  induction t with
  | leaf s => simp [Trie.section, Trie.records, recordBits]
  | node l r ihl ihr => simp [Trie.section, Trie.records, recordBits, ihl, ihr]

/-- A trie section has one record for each node. -/
@[simp] theorem Trie.records_length (t : Trie) : t.records.length = t.size := by
  induction t with
  | leaf s => rfl
  | node l r ihl ihr => simp [Trie.records, Trie.size, ihl, ihr]

theorem nodeAt_setNode (d : Decoder) (x y : NodeIdx) (rec : NodeRec) :
    (d.setNode x rec).huf.nodeAt y = if y = x then rec else d.huf.nodeAt y := by
  have e : (y.toNat = x.toNat) = (y = x) := by
    simp only [eq_iff_iff]; exact ⟨BitVec.eq_of_toNat_eq, fun h => by rw [h]⟩
  simp only [Decoder.setNode, HufScratch.nodeAt, nodeOr_set, e]

theorem ncnt_succ {n : BitVec 10} (h : n.toNat < 511) :
    (n + 1#10).toNat = n.toNat + 1 ∧ (n.setWidth 9).toNat = n.toNat := by
  refine ⟨?_, ?_⟩
  · rw [BitVec.toNat_add]; simp; omega
  · rw [BitVec.toNat_setWidth]; omega

/-! ## Reading through the decoder -/

theorem Decoder.reading_ok {α : Type} {d : Decoder} {op : BitReader → Attempt BitReader α} {v : α} {r : BitReader}
    (h : op d.rd = .ok v r) : d.reading op = .ok v { d with rd := r } := by simp [Decoder.reading, h]

theorem Decoder.reading_raised {α : Type} {d : Decoder} {op : BitReader → Attempt BitReader α} {k : ErrKind}
    {r : BitReader} (h : op d.rd = .raised k r) : d.reading op = .raised k { d with rd := r } := by
  simp [Decoder.reading, h]

/-- An attempt of EXPAND that ended in an exhaustion of the stream: nothing of SRC is left (R232). -/
def Exhausted {α : Type} (a : Attempt Decoder α) : Prop :=
  ∃ d, a = .raised .endOfStream d ∧ d.rd.src = [] ∧ d.rd.cnt.toNat ≤ 7

theorem pending_after {r r' : BitReader} {bits rest : List Bool} (t : ReadsTo r bits r')
    (h : r.pendingBits = bits ++ rest) : r'.pendingBits = rest := by
  have := t.bits
  rw [h] at this
  exact (List.append_cancel_left this).symm

/-! ## Phase 1 -/

/-- ReadNode on the trie section of a trie that fits the arena (R223, R98). -/
theorem readNode_spec (t : Trie) : ∀ (frames : Nat) (d : Decoder) (rest : List Bool),
    d.rd.cnt.toNat ≤ 7 → d.rd.pendingBits = t.section ++ rest →
    d.huf.ncntVal.toNat + t.size ≤ 511 → t.size ≤ frames →
    ∃ x d', Decoder.readNode frames d = .ok x d' ∧ ReadsTo d.rd t.section d'.rd ∧
      d'.huf.ncntVal.toNat = d.huf.ncntVal.toNat + t.size ∧
      d'.huf.TrieIn d.huf.ncntVal.toNat (d.huf.ncntVal.toNat + t.size) x t ∧
      (∀ y : NodeIdx, y.toNat < d.huf.ncntVal.toNat → d'.huf.nodeAt y = d.huf.nodeAt y) := by
  induction t with
  | leaf s =>
    intro frames d rest h7 hp hn hf
    simp only [Trie.size] at hn hf
    obtain ⟨frames, rfl⟩ : ∃ m, frames = m + 1 := ⟨frames - 1, by omega⟩
    obtain ⟨hsucc, hidx⟩ := ncnt_succ (n := d.huf.ncntVal) (by omega)
    obtain ⟨r1, e1, t1⟩ := getBit_ok h7 (b := true) (rest := bitsOfByte s ++ rest) (by simpa [Trie.section] using hp)
    obtain ⟨r2, e2, t2⟩ := getByte_ok t1.count (v := s) (rest := rest)
      (pending_after t1 (by simpa [Trie.section] using hp))
    have e1' : d.allocate.reading BitReader.getBit = .ok true { d.allocate with rd := r1 } := Decoder.reading_ok e1
    have e2' : ({ d.allocate with rd := r1 } : Decoder).reading BitReader.getByte =
        .ok s { d.allocate with rd := r2 } := Decoder.reading_ok e2
    refine ⟨d.huf.ncntVal.setWidth 9, ({ d.allocate with rd := r2 } : Decoder).setNode (d.huf.ncntVal.setWidth 9)
      (d.allocate.huf.readLeafRec (d.huf.ncntVal.setWidth 9) s), ?_, ?_, ?_, ?_, ?_⟩
    · simp only [Decoder.readNode]
      rw [if_neg (by simp only [Config.nodeMax]; omega)]
      simp only [e1', Attempt.andThen, if_true, e2']
    · exact t1.trans t2
    · exact hsucc
    · refine ⟨?_, ?_, ?_, ?_⟩
      · rw [hidx]
      · rw [hidx, Trie.size]; omega
      · rw [nodeAt_setNode]; simp [HufScratch.readLeafRec]
      · rw [nodeAt_setNode]; simp [HufScratch.readLeafRec]
    · intro y hy
      rw [nodeAt_setNode, if_neg]
      · rfl
      · rintro rfl; rw [hidx] at hy; omega
  | node l r ihl ihr =>
    intro frames d rest h7 hp hn hf
    simp only [Trie.size] at hn hf
    have hl := l.size_pos
    have hr := r.size_pos
    obtain ⟨frames, rfl⟩ : ∃ m, frames = m + 1 := ⟨frames - 1, by omega⟩
    obtain ⟨hsucc, hidx⟩ := ncnt_succ (n := d.huf.ncntVal) (by omega)
    obtain ⟨r1, e1, t1⟩ := getBit_ok h7 (b := false) (rest := l.section ++ (r.section ++ rest))
      (by simpa [Trie.section] using hp)
    have e1' : d.allocate.reading BitReader.getBit = .ok false { d.allocate with rd := r1 } := Decoder.reading_ok e1
    have n1 : ({ d.allocate with rd := r1 } : Decoder).huf.ncntVal.toNat = d.huf.ncntVal.toNat + 1 := hsucc
    obtain ⟨xl, d2, e2, t2, n2, w2, f2⟩ := ihl frames { d.allocate with rd := r1 } (r.section ++ rest) t1.count
      (pending_after t1 (by simpa [Trie.section] using hp)) (by rw [n1]; omega) (by omega)
    have p2 : d2.rd.pendingBits = r.section ++ rest :=
      pending_after t2 (pending_after t1 (by simpa [Trie.section] using hp))
    rw [n1] at n2 w2 f2
    obtain ⟨xr, d3, e3, t3, n3, w3, f3⟩ := ihr frames d2 rest t2.count p2 (by rw [n2]; omega) (by omega)
    rw [n2] at n3 w3 f3
    refine ⟨d.huf.ncntVal.setWidth 9, d3.setNode (d.huf.ncntVal.setWidth 9)
      (d3.huf.readInnerRec (d.huf.ncntVal.setWidth 9) xl xr), ?_, ?_, ?_, ?_, ?_⟩
    · simp only [Decoder.readNode]
      rw [if_neg (by simp only [Config.nodeMax]; omega)]
      simp only [e1', Attempt.andThen, e2, e3, Bool.false_eq_true, if_false]
    · have := (t1.trans t2).trans t3
      show ReadsTo d.rd _ d3.rd
      simpa [Trie.section] using this
    · show d3.huf.ncntVal.toNat = _
      rw [n3, Trie.size]; omega
    · have hne : ∀ y : NodeIdx, d.huf.ncntVal.toNat + 1 ≤ y.toNat →
          (d3.setNode (d.huf.ncntVal.setWidth 9)
            (d3.huf.readInnerRec (d.huf.ncntVal.setWidth 9) xl xr)).huf.nodeAt y = d3.huf.nodeAt y := by
        intro y hy
        rw [nodeAt_setNode, if_neg]
        rintro rfl
        rw [hidx] at hy; omega
      have hroot : (d3.setNode (d.huf.ncntVal.setWidth 9)
            (d3.huf.readInnerRec (d.huf.ncntVal.setWidth 9) xl xr)).huf.nodeAt (d.huf.ncntVal.setWidth 9) =
          d3.huf.readInnerRec (d.huf.ncntVal.setWidth 9) xl xr := by rw [nodeAt_setNode, if_pos rfl]
      have wl : d3.huf.TrieIn (d.huf.ncntVal.toNat + 1) (d.huf.ncntVal.toNat + 1 + l.size) xl l :=
        TrieIn.congr (fun y y1 y2 => f3 y (by omega)) w2
      refine ⟨by rw [hidx], by rw [hidx, Trie.size]; omega, by rw [hroot]; rfl, ?_, ?_⟩
      · rw [hroot]
        exact TrieIn.mono (by omega) (by rw [Trie.size]; omega) (TrieIn.congr (fun y y1 _ => hne y y1) wl)
      · rw [hroot]
        exact TrieIn.mono (by omega) (by rw [Trie.size]; omega)
          (TrieIn.congr (fun y y1 _ => hne y (by omega)) w3)
    · intro y hy
      rw [nodeAt_setNode, if_neg (by rintro rfl; rw [hidx] at hy; omega), f3 y (by omega), f2 y (by omega)]
      rfl

/-- ReadNode when the stream ends inside the records that the arena has room for, whether or not the whole trie fits
(R223, R253 a). -/
theorem readNode_truncated (t : Trie) : ∀ (frames : Nat) (d : Decoder) (missing : List Bool),
    d.rd.cnt.toNat ≤ 7 →
    (t.records.take (511 - d.huf.ncntVal.toNat)).flatMap recordBits = d.rd.pendingBits ++ missing → missing ≠ [] →
    511 ≤ frames + d.huf.ncntVal.toNat → Exhausted (Decoder.readNode frames d) := by
  induction t with
  | leaf s =>
    intro frames d missing h7 hp hm hf
    obtain ⟨room, hroom⟩ : ∃ m, 511 - d.huf.ncntVal.toNat = m + 1 := by
      refine ⟨510 - d.huf.ncntVal.toNat, ?_⟩
      by_contra h
      rw [show 511 - d.huf.ncntVal.toNat = 0 by omega] at hp
      exact hm (List.append_eq_nil_iff.mp hp.symm).2
    obtain ⟨frames, rfl⟩ : ∃ m, frames = m + 1 := ⟨frames - 1, by omega⟩
    simp only [hroom, Trie.records, List.take_succ_cons, List.take_nil, List.flatMap_cons, recordBits,
      List.flatMap_nil, List.append_nil] at hp
    simp only [Decoder.readNode]
    rw [if_neg (by simp only [Config.nodeMax]; omega)]
    cases hb : d.rd.pendingBits with
    | nil =>
      obtain ⟨e, hs, hc⟩ := getBit_eos h7 hb
      have e' : d.allocate.reading BitReader.getBit = .raised .endOfStream { d.allocate with rd := d.rd } :=
        Decoder.reading_raised e
      exact ⟨{ d.allocate with rd := d.rd }, by simp only [e', Attempt.andThen], hs, h7⟩
    | cons b bits =>
      rw [hb] at hp
      simp only [List.cons_append, List.cons.injEq] at hp
      obtain ⟨r1, e1, t1⟩ := getBit_ok h7 hb
      rw [← hp.1] at e1 t1
      have e1' : d.allocate.reading BitReader.getBit = .ok true { d.allocate with rd := r1 } := Decoder.reading_ok e1
      have hlen : r1.pendingBits.length < 8 := by
        have h1 := pending_after t1 (rest := bits) (by rw [hb, hp.1]; rfl)
        have h2 := congrArg List.length hp.2
        have h3 : missing.length ≠ 0 := fun h => hm (List.length_eq_zero_iff.mp h)
        rw [h1]; simp at h2; omega
      obtain ⟨e2, hs⟩ := getByte_eos hlen
      have e2' : ({ d.allocate with rd := r1 } : Decoder).reading BitReader.getByte =
          .raised .endOfStream { d.allocate with rd := r1 } := Decoder.reading_raised e2
      exact ⟨{ d.allocate with rd := r1 }, by simp only [e1', Attempt.andThen, if_true, e2'], hs, t1.count⟩
  | node l r ihl ihr =>
    intro frames d missing h7 hp hm hf
    obtain ⟨room, hroom⟩ : ∃ m, 511 - d.huf.ncntVal.toNat = m + 1 := by
      refine ⟨510 - d.huf.ncntVal.toNat, ?_⟩
      by_contra h
      rw [show 511 - d.huf.ncntVal.toNat = 0 by omega] at hp
      exact hm (List.append_eq_nil_iff.mp hp.symm).2
    obtain ⟨frames, rfl⟩ : ∃ m, frames = m + 1 := ⟨frames - 1, by omega⟩
    obtain ⟨hsucc, hidx⟩ := ncnt_succ (n := d.huf.ncntVal) (by omega)
    simp only [hroom, Trie.records, List.take_succ_cons, List.flatMap_cons, recordBits, List.cons_append,
      List.nil_append, List.take_append, List.flatMap_append, Trie.records_length] at hp
    simp only [Decoder.readNode]
    rw [if_neg (by simp only [Config.nodeMax]; omega)]
    cases hb : d.rd.pendingBits with
    | nil =>
      obtain ⟨e, hs, hc⟩ := getBit_eos h7 hb
      have e' : d.allocate.reading BitReader.getBit = .raised .endOfStream { d.allocate with rd := d.rd } :=
        Decoder.reading_raised e
      exact ⟨{ d.allocate with rd := d.rd }, by simp only [e', Attempt.andThen], hs, h7⟩
    | cons b bits =>
      rw [hb] at hp
      simp only [List.cons_append, List.cons.injEq] at hp
      obtain ⟨r1, e1, t1⟩ := getBit_ok h7 hb
      rw [← hp.1] at e1 t1
      have e1' : d.allocate.reading BitReader.getBit = .ok false { d.allocate with rd := r1 } := Decoder.reading_ok e1
      have p1 : r1.pendingBits = bits := pending_after t1 (by rw [hb, hp.1]; rfl)
      have n1 : ({ d.allocate with rd := r1 } : Decoder).huf.ncntVal.toNat = d.huf.ncntVal.toNat + 1 := hsucc
      have inRight : ∀ more, bits = (l.records.take room).flatMap recordBits ++ more →
          (r.records.take (room - l.size)).flatMap recordBits = more ++ missing →
          Exhausted ((Decoder.readNode frames { d.allocate with rd := r1 }).andThen fun xl d2 =>
            (Decoder.readNode frames d2).andThen fun xr d3 =>
              .ok (d.huf.ncntVal.setWidth 9) (d3.setNode (d.huf.ncntVal.setWidth 9)
                (d3.huf.readInnerRec (d.huf.ncntVal.setWidth 9) xl xr))) := by
        intro more hbits hmore
        have hfit : l.size < room := by
          by_contra h
          rw [show room - l.size = 0 by omega] at hmore
          exact hm (List.append_eq_nil_iff.mp hmore.symm).2
        rw [List.take_of_length_le (by rw [Trie.records_length]; omega), ← Trie.section_eq_records] at hbits
        obtain ⟨xl, d2, e2, t2, n2, _, _⟩ := readNode_spec l frames { d.allocate with rd := r1 } more t1.count
          (p1.trans hbits) (by rw [n1]; omega) (by omega)
        have p2 : d2.rd.pendingBits = more := pending_after t2 (p1.trans hbits)
        rw [n1] at n2
        obtain ⟨d3, e3, hs, hc⟩ := ihr frames d2 missing t2.count
          (by rw [n2, show 511 - (d.huf.ncntVal.toNat + 1 + l.size) = room - l.size by omega, p2]; exact hmore) hm
          (by rw [n2]; omega)
        exact ⟨d3, by simp only [e2, Attempt.andThen, e3], hs, hc⟩
      simp only [e1', Attempt.andThen, Bool.false_eq_true, if_false]
      rcases List.append_eq_append_iff.mp hp.2 with ⟨more, hbits, hright⟩ | ⟨more, hleft, hmis⟩
      · exact inRight more hbits hright
      · rcases Decidable.em (more = []) with rfl | hmore
        · exact inRight [] (by rw [List.append_nil] at hleft ⊢; exact hleft.symm) hmis.symm
        · obtain ⟨d3, e3, hs, hc⟩ := ihl frames { d.allocate with rd := r1 } more t1.count
            (by rw [n1, show 511 - (d.huf.ncntVal.toNat + 1) = room by omega]; exact hleft.trans (by rw [← p1])) hmore
            (by rw [n1]; omega)
          exact ⟨d3, by simp only [e3], hs, hc⟩

/-- ReadNode where the arena has no room for the trie: it reads the records that fit, and no bit more (R224). -/
theorem readNode_overflow (t : Trie) : ∀ (frames : Nat) (d : Decoder) (rest : List Bool),
    d.rd.cnt.toNat ≤ 7 →
    d.rd.pendingBits = (t.records.take (511 - d.huf.ncntVal.toNat)).flatMap recordBits ++ rest →
    511 < d.huf.ncntVal.toNat + t.size → d.huf.ncntVal.toNat ≤ 511 → 511 ≤ frames + d.huf.ncntVal.toNat →
    ∃ d', Decoder.readNode frames d = .raised .malformedArtifact d' ∧ d'.rd.pendingBits = rest := by
  have full : ∀ (frames : Nat) (d : Decoder), 511 ≤ d.huf.ncntVal.toNat →
      Decoder.readNode frames d = .raised .malformedArtifact d := by
    intro frames d h
    cases frames with
    | zero => rfl
    | succ frames => rw [Decoder.readNode, if_pos (by simp only [Config.nodeMax]; omega)]
  induction t with
  | leaf s =>
    intro frames d rest h7 hp hn hle hf
    simp only [Trie.size] at hn
    have h511 : d.huf.ncntVal.toNat = 511 := by omega
    exact ⟨d, full frames d (by omega), by simpa [h511] using hp⟩
  | node l r ihl ihr =>
    intro frames d rest h7 hp hn hle hf
    simp only [Trie.size] at hn
    rcases Nat.lt_or_ge d.huf.ncntVal.toNat 511 with hlt | hge
    · obtain ⟨frames, rfl⟩ : ∃ m, frames = m + 1 := ⟨frames - 1, by omega⟩
      obtain ⟨hsucc, _⟩ := ncnt_succ hlt
      obtain ⟨room, hroom⟩ : ∃ m, 511 - d.huf.ncntVal.toNat = m + 1 := ⟨510 - d.huf.ncntVal.toNat, by omega⟩
      rw [hroom] at hp
      simp only [Trie.records, List.take_succ_cons, List.flatMap_cons, recordBits, List.cons_append,
        List.nil_append, List.take_append, List.flatMap_append, Trie.records_length, List.append_assoc] at hp
      obtain ⟨r1, e1, t1⟩ := getBit_ok h7 hp
      have p1 := pending_after t1 (show d.rd.pendingBits = [false] ++ _ from hp)
      have e1' : d.allocate.reading BitReader.getBit = .ok false { d.allocate with rd := r1 } := Decoder.reading_ok e1
      have n1 : ({ d.allocate with rd := r1 } : Decoder).huf.ncntVal.toNat = d.huf.ncntVal.toNat + 1 := hsucc
      have unfold1 : Decoder.readNode (frames + 1) d =
          (Decoder.readNode frames { d.allocate with rd := r1 }).andThen fun xl d2 =>
            (Decoder.readNode frames d2).andThen fun xr d3 =>
              .ok (d.huf.ncntVal.setWidth 9) (d3.setNode (d.huf.ncntVal.setWidth 9)
                (d3.huf.readInnerRec (d.huf.ncntVal.setWidth 9) xl xr)) := by
        conv_lhs => unfold Decoder.readNode
        rw [if_neg (by simp only [Config.nodeMax]; omega)]
        simp only [e1', Attempt.andThen, Bool.false_eq_true, if_false]
      rcases Nat.lt_or_ge 511 (d.huf.ncntVal.toNat + 1 + l.size) with hl | hl
      · -- the arena fills up inside the left subtree
        rw [show room - l.size = 0 by omega, List.take_zero, List.flatMap_nil, List.nil_append] at p1
        obtain ⟨d', e, p⟩ := ihl frames { d.allocate with rd := r1 } rest t1.count
          (by rw [n1, show 511 - (d.huf.ncntVal.toNat + 1) = room by omega]; exact p1) (by rw [n1]; omega)
          (by rw [n1]; omega) (by rw [n1]; omega)
        exact ⟨d', by rw [unfold1, e]; rfl, p⟩
      · -- the left subtree is read whole
        rw [List.take_of_length_le (by rw [Trie.records_length]; omega), ← Trie.section_eq_records] at p1
        obtain ⟨xl, d2, e2, t2, n2, _, _⟩ := readNode_spec l frames { d.allocate with rd := r1 } _ t1.count p1
          (by rw [n1]; omega) (by omega)
        rw [n1] at n2
        have p2 := pending_after t2 p1
        obtain ⟨d', e, p⟩ := ihr frames d2 rest t2.count
          (by rw [n2, show 511 - (d.huf.ncntVal.toNat + 1 + l.size) = room - l.size by omega]; exact p2)
          (by rw [n2]; omega) (by rw [n2]; omega) (by rw [n2]; omega)
        refine ⟨d', ?_, p⟩
        rw [unfold1, e2]
        simp only [Attempt.andThen, e]
    · have h511 : d.huf.ncntVal.toNat = 511 := by omega
      exact ⟨d, full frames d hge, by simpa [h511] using hp⟩

/-! ## Phase 2 -/

theorem wordOfBytes_wordByte (n : Word) :
    wordOfBytes (wordByte n 0) (wordByte n 1) (wordByte n 2) (wordByte n 3) = n := by
  apply BitVec.eq_of_toNat_eq
  have h := n.isLt
  simp only [wordOfBytes, wordByte, BitVec.toNat_ofNat, BitVec.extractLsb'_toNat, Nat.shiftRight_eq_div_pow]
  omega

/-- ReadLength on the length field (R226, R99). -/
theorem readLength_spec {d : Decoder} {n : Word} {rest : List Bool} (h7 : d.rd.cnt.toNat ≤ 7)
    (hp : d.rd.pendingBits = lengthBits n ++ rest) :
    ∃ r, d.readLength = .ok n { d with rd := r } ∧ ReadsTo d.rd (lengthBits n) r := by
  have hp' : d.rd.pendingBits = bitsOfByte (wordByte n 0) ++ (bitsOfByte (wordByte n 1) ++
      (bitsOfByte (wordByte n 2) ++ (bitsOfByte (wordByte n 3) ++ rest))) := by
    rw [hp]; simp [lengthBits, bitsOfBytes]
  obtain ⟨r1, e1, t1⟩ := getByte_ok h7 hp'
  have p1 := pending_after t1 hp'
  obtain ⟨r2, e2, t2⟩ := getByte_ok t1.count p1
  have p2 := pending_after t2 p1
  obtain ⟨r3, e3, t3⟩ := getByte_ok t2.count p2
  have p3 := pending_after t3 p2
  obtain ⟨r4, e4, t4⟩ := getByte_ok t3.count p3
  refine ⟨r4, ?_, ?_⟩
  · simp only [Decoder.readLength, Decoder.reading, e1, e2, e3, e4, Attempt.andThen, wordOfBytes_wordByte]
  · have := ((t1.trans t2).trans t3).trans t4
    simpa [lengthBits, bitsOfBytes] using this

theorem lengthBits_length (n : Word) : (lengthBits n).length = 32 := by simp [lengthBits]

/-- ReadLength when the stream ends inside the length field (R226, R253). -/
theorem readLength_truncated {d : Decoder} (h7 : d.rd.cnt.toNat ≤ 7) (hp : d.rd.pendingBits.length < 32) :
    Exhausted d.readLength := by
  unfold Decoder.readLength
  rcases getByte_spec d.rd h7 with ⟨_, hs, e1⟩ | ⟨v1, r1, e1, t1⟩
  · exact ⟨{ d with rd := d.rd }, by simp only [Decoder.reading, e1, Attempt.andThen], hs, h7⟩
  have l1 : d.rd.pendingBits.length = 8 + r1.pendingBits.length := by rw [t1.bits]; simp
  rcases getByte_spec r1 t1.count with ⟨_, hs, e2⟩ | ⟨v2, r2, e2, t2⟩
  · exact ⟨{ d with rd := r1 }, by simp only [Decoder.reading, e1, e2, Attempt.andThen], hs, t1.count⟩
  have l2 : r1.pendingBits.length = 8 + r2.pendingBits.length := by rw [t2.bits]; simp
  rcases getByte_spec r2 t2.count with ⟨_, hs, e3⟩ | ⟨v3, r3, e3, t3⟩
  · exact ⟨{ d with rd := r2 }, by simp only [Decoder.reading, e1, e2, e3, Attempt.andThen], hs, t2.count⟩
  have l3 : r2.pendingBits.length = 8 + r3.pendingBits.length := by rw [t3.bits]; simp
  obtain ⟨e4, hs⟩ := getByte_eos (r := r3) (by omega)
  exact ⟨{ d with rd := r3 }, by simp only [Decoder.reading, e1, e2, e3, e4, Attempt.andThen], hs, t3.count⟩

/-! ## Phases 3 and 4 -/

/-- The decode walk along a root-to-leaf path (R230). -/
theorem decodeFrom_spec {h : HufScratch} {t : Trie} {path : List Bool} {s : Byte} (hf : t.follow path = some s) :
    ∀ (bits : Nat) (x : NodeIdx) (r : BitReader) (rest : List Bool), h.HasTrie x t → r.cnt.toNat ≤ 7 →
      r.pendingBits = path ++ rest → path.length ≤ bits →
      ∃ r', h.decodeFrom bits x r = .ok s r' ∧ ReadsTo r path r' := by
  induction t generalizing path with
  | leaf s' =>
    intro bits x r rest ht h7 hp hb
    cases path with
    | cons b path => simp [Trie.follow] at hf
    | nil =>
      simp only [Trie.follow, Option.some.injEq] at hf
      refine ⟨r, ?_, by simp, h7, List.suffix_refl _⟩
      unfold HufScratch.decodeFrom
      rw [if_pos ht.1, ht.2, hf]
  | node l r ihl ihr =>
    intro bits x rd rest ht h7 hp hb
    cases path with
    | nil => simp [Trie.follow] at hf
    | cons b path =>
      obtain ⟨r1, e1, t1⟩ := getBit_ok h7 (b := b) (rest := path ++ rest) (by simpa using hp)
      have p1 : r1.pendingBits = path ++ rest := pending_after t1 (by simpa using hp)
      obtain ⟨bits, rfl⟩ : ∃ m, bits = m + 1 := ⟨bits - 1, by simp at hb; omega⟩
      have hb' : path.length ≤ bits := by simpa using hb
      have unfold1 : h.decodeFrom (bits + 1) x rd =
          h.decodeFrom bits (if b then (h.nodeAt x).right else (h.nodeAt x).left) r1 := by
        conv_lhs => unfold HufScratch.decodeFrom
        rw [if_neg (by rw [ht.1]; simp), e1]
        rfl
      rw [unfold1]
      simp only [Trie.follow] at hf
      cases b with
      | false =>
        obtain ⟨r2, e2, t2⟩ := ihl (by simpa using hf) bits (h.nodeAt x).left r1 rest ht.2.1 t1.count p1 hb'
        exact ⟨r2, by simpa using e2, t1.trans t2⟩
      | true =>
        obtain ⟨r2, e2, t2⟩ := ihr (by simpa using hf) bits (h.nodeAt x).right r1 rest ht.2.2 t1.count p1 hb'
        exact ⟨r2, by simpa using e2, t1.trans t2⟩

/-- The decode walk when the stream ends inside a path (R230, R253). -/
theorem decodeFrom_truncated {h : HufScratch} {t : Trie} {path : List Bool} {s : Byte} (hf : t.follow path = some s) :
    ∀ (bits : Nat) (x : NodeIdx) (r : BitReader) (missing : List Bool), h.HasTrie x t → r.cnt.toNat ≤ 7 →
      path = r.pendingBits ++ missing → missing ≠ [] → r.pendingBits.length ≤ bits →
      ∃ r', h.decodeFrom bits x r = .raised .endOfStream r' ∧ r'.src = [] ∧ r'.cnt.toNat ≤ 7 := by
  induction t generalizing path with
  | leaf s' =>
    intro bits x r missing ht h7 hp hm hb
    cases path with
    | cons b path => simp [Trie.follow] at hf
    | nil => exact absurd (List.append_eq_nil_iff.mp hp.symm).2 hm
  | node l r ihl ihr =>
    intro bits x rd missing ht h7 hp hm hb
    have hleaf : ¬ (h.nodeAt x).leaf = true := by rw [ht.1]; simp
    cases hpd : rd.pendingBits with
    | nil =>
      obtain ⟨e, hs, hc⟩ := getBit_eos h7 hpd
      refine ⟨rd, ?_, hs, h7⟩
      unfold HufScratch.decodeFrom
      rw [if_neg hleaf, e]
      rfl
    | cons b more =>
      rw [hpd] at hp hb
      obtain ⟨r1, e1, t1⟩ := getBit_ok h7 hpd
      have p1 : r1.pendingBits = more := pending_after t1 (by rw [hpd]; rfl)
      obtain ⟨bits, rfl⟩ : ∃ m, bits = m + 1 := ⟨bits - 1, by simp at hb; omega⟩
      have unfold1 : h.decodeFrom (bits + 1) x rd =
          h.decodeFrom bits (if b then (h.nodeAt x).right else (h.nodeAt x).left) r1 := by
        conv_lhs => unfold HufScratch.decodeFrom
        rw [if_neg hleaf, e1]
        rfl
      rw [unfold1]
      subst hp
      simp only [List.cons_append, Trie.follow] at hf
      have hb' : r1.pendingBits.length ≤ bits := by rw [p1]; simpa using hb
      cases b with
      | false =>
        obtain ⟨r2, e2, hs⟩ := ihl (by simpa using hf) bits (h.nodeAt x).left r1 missing ht.2.1 t1.count
          (by rw [p1]) hm hb'
        exact ⟨r2, by simpa using e2, hs⟩
      | true =>
        obtain ⟨r2, e2, hs⟩ := ihr (by simpa using hf) bits (h.nodeAt x).right r1 missing ht.2.2 t1.count
          (by rw [p1]) hm hb'
        exact ⟨r2, by simpa using e2, hs⟩

/-- The loop over the symbols (R230). -/
theorem decodeSymbols_spec {h : HufScratch} {t : Trie} {codes : List (List Bool)} {syms : List Byte}
    (ht : h.HasTrie h.rootVal t) (hc : CodesOf t codes syms) :
    ∀ (r : BitReader) (rest : List Bool), r.cnt.toNat ≤ 7 → r.pendingBits = codes.flatten ++ rest →
      ∃ r', h.decodeSymbols syms.length r = .ok syms r' ∧ ReadsTo r codes.flatten r' := by
  induction hc with
  | nil => intro r rest h7 hp; exact ⟨r, rfl, by simp, h7, List.suffix_refl _⟩
  | @cons c s codes syms hf hc ih =>
    intro r rest h7 hp
    have hp' : r.pendingBits = c ++ (codes.flatten ++ rest) := by simpa using hp
    have hlen : c.length ≤ r.bitsLeft := by rw [← pendingBits_length, hp', List.length_append]; omega
    obtain ⟨r1, e1, t1⟩ := decodeFrom_spec hf r.bitsLeft h.rootVal r _ ht h7 hp' hlen
    obtain ⟨r2, e2, t2⟩ := ih r1 rest t1.count (pending_after t1 hp')
    exact ⟨r2, by simp [HufScratch.decodeSymbols, e1, e2, Attempt.andThen], by simpa using t1.trans t2⟩

/-- The loop over the symbols when the stream ends inside the body (R230, R253). -/
theorem decodeSymbols_truncated {h : HufScratch} {t : Trie} {codes : List (List Bool)} {syms : List Byte}
    (ht : h.HasTrie h.rootVal t) (hc : CodesOf t codes syms) :
    ∀ (r : BitReader) (missing : List Bool), r.cnt.toNat ≤ 7 → codes.flatten = r.pendingBits ++ missing →
      missing ≠ [] →
      ∃ r', h.decodeSymbols syms.length r = .raised .endOfStream r' ∧ r'.src = [] ∧ r'.cnt.toNat ≤ 7 := by
  induction hc with
  | nil =>
    intro r missing h7 hp hm
    exact absurd (List.append_eq_nil_iff.mp hp.symm).2 hm
  | @cons c s codes syms hf hc ih =>
    intro r missing h7 hp hm
    rw [List.flatten_cons] at hp
    rcases List.append_eq_append_iff.mp hp with ⟨more, hbits, hmis⟩ | ⟨more, hl', hr'⟩
    · have hlen : c.length ≤ r.bitsLeft := by rw [← pendingBits_length, hbits, List.length_append]; omega
      obtain ⟨r1, e1, t1⟩ := decodeFrom_spec hf r.bitsLeft h.rootVal r more ht h7 hbits hlen
      obtain ⟨r2, e2, hs⟩ := ih r1 missing t1.count (by rw [pending_after t1 hbits]; exact hmis) hm
      exact ⟨r2, by simp [HufScratch.decodeSymbols, e1, e2, Attempt.andThen], hs⟩
    · rcases Decidable.em (more = []) with rfl | hmore
      · simp only [List.append_nil] at hl'
        simp only [List.nil_append] at hr'
        have hlen : c.length ≤ r.bitsLeft := by rw [← pendingBits_length, ← hl']
        obtain ⟨r1, e1, t1⟩ := decodeFrom_spec hf r.bitsLeft h.rootVal r [] ht h7 (by rw [List.append_nil, hl']) hlen
        obtain ⟨r2, e2, hs⟩ := ih r1 missing t1.count
          (by rw [pending_after t1 (rest := []) (by rw [List.append_nil, hl'])]; exact hr'.symm) hm
        exact ⟨r2, by simp [HufScratch.decodeSymbols, e1, e2, Attempt.andThen], hs⟩
      · obtain ⟨r1, e1, hs⟩ := decodeFrom_truncated hf r.bitsLeft h.rootVal r more ht h7 hl' hmore
          (by rw [pendingBits_length])
        exact ⟨r1, by simp [HufScratch.decodeSymbols, e1, Attempt.andThen], hs⟩

end Sys2Proof.Machine
end

