-- ==== Sys2Proof/Laws/Tries.lean ====
section
/-! SUPPORT. Tries as trees: sizes, codes, and the queue of weighted subtrees that is merged into the Huffman trie (rules
R184 to R193). -/

namespace Sys2Proof.Machine

/-! ## Shape -/

theorem Trie.leaves_pos (t : Trie) : 0 < t.symbols.length := by
  induction t with
  | leaf s => simp [Trie.symbols]
  | node l r ihl ihr => simp [Trie.symbols]; omega

theorem Trie.size_eq (t : Trie) : t.size + 1 = 2 * t.symbols.length := by
  induction t with
  | leaf s => simp [Trie.symbols, Trie.size]
  | node l r ihl ihr => simp [Trie.symbols, Trie.size]; omega

theorem Trie.depth_lt (t : Trie) : t.depth < t.symbols.length := by
  induction t with
  | leaf s => simp [Trie.symbols, Trie.depth]
  | node l r ihl ihr => simp [Trie.symbols, Trie.depth]; omega

theorem Trie.section_length (t : Trie) : t.section.length + 1 = 10 * t.symbols.length := by
  induction t with
  | leaf s => simp [Trie.symbols, Trie.section, bitsOfByte]
  | node l r ihl ihr => simp [Trie.symbols, Trie.section]; omega

theorem Trie.branches_iff (t : Trie) : t.branches = true ↔ 2 ≤ t.symbols.length := by
  cases t with
  | leaf s => simp [Trie.symbols, Trie.branches]
  | node l r => have := l.leaves_pos; have := r.leaves_pos; simp [Trie.symbols, Trie.branches]; omega

/-! ## Codes -/

theorem Trie.codeOf_isSome (t : Trie) (b : Byte) : (t.codeOf b).isSome = true ↔ b ∈ t.symbols := by
  induction t with
  | leaf s => by_cases h : b = s <;> simp [Trie.codeOf, Trie.symbols, h]
  | node l r ihl ihr =>
    simp only [Trie.codeOf, Trie.symbols, List.mem_append, ← ihl, ← ihr]
    cases l.codeOf b <;> simp

theorem Trie.codeOf_eq_none {t : Trie} {b : Byte} : t.codeOf b = none ↔ b ∉ t.symbols := by
  rw [← t.codeOf_isSome b]; simp

theorem Trie.follow_codeOf {t : Trie} {b : Byte} {path : List Bool} (h : t.codeOf b = some path) :
    t.follow path = some b := by
  induction t generalizing path with
  | leaf s =>
    by_cases hb : b = s
    · simp [Trie.codeOf, hb] at h; subst h; simp [Trie.follow, hb]
    · simp [Trie.codeOf, hb] at h
  | node l r ihl ihr =>
    simp only [Trie.codeOf] at h
    cases hl : l.codeOf b with
    | some p => rw [hl] at h; simp at h; subst h; simpa [Trie.follow] using ihl hl
    | none =>
      rw [hl] at h
      obtain ⟨p, hp, rfl⟩ := Option.map_eq_some_iff.mp h
      simpa [Trie.follow] using ihr hp

theorem Trie.codeOf_length {t : Trie} {b : Byte} {path : List Bool} (h : t.codeOf b = some path) :
    path.length ≤ t.depth := by
  induction t generalizing path with
  | leaf s =>
    by_cases hb : b = s
    · simp [Trie.codeOf, hb] at h; subst h; simp
    · simp [Trie.codeOf, hb] at h
  | node l r ihl ihr =>
    simp only [Trie.codeOf] at h
    cases hl : l.codeOf b with
    | some p => rw [hl] at h; simp at h; subst h; have := ihl hl; simp [Trie.depth]; omega
    | none =>
      rw [hl] at h
      obtain ⟨p, hp, rfl⟩ := Option.map_eq_some_iff.mp h
      have := ihr hp; simp [Trie.depth]; omega

theorem Trie.codeOf_pos {t : Trie} {b : Byte} {path : List Bool} (h : t.codeOf b = some path)
    (ht : t.branches = true) : 0 < path.length := by
  cases path with
  | cons => simp
  | nil =>
    have := Trie.follow_codeOf h
    cases t with
    | leaf s => simp [Trie.branches] at ht
    | node l r => simp [Trie.follow] at this

/-- No path to a leaf goes on to another leaf. -/
theorem Trie.follow_append {t : Trie} {path more : List Bool} {a b : Byte} (ha : t.follow path = some a)
    (hb : t.follow (path ++ more) = some b) : more = [] := by
  induction t generalizing path with
  | leaf s =>
    cases path with
    | cons => simp [Trie.follow] at ha
    | nil =>
      cases more with
      | nil => rfl
      | cons => simp [Trie.follow] at hb
  | node l r ihl ihr =>
    cases path with
    | nil => simp [Trie.follow] at ha
    | cons c path =>
      simp only [List.cons_append, Trie.follow] at ha hb
      cases c with
      | false => exact ihl (by simpa using ha) (by simpa using hb)
      | true => exact ihr (by simpa using ha) (by simpa using hb)

/-! ## Sums over a block -/

theorem mem_allSymbols (s : Byte) : s ∈ allSymbols :=
  List.mem_map.mpr ⟨s.toNat, List.mem_range.mpr s.isLt, by simp⟩

theorem allSymbols_nodup : allSymbols.Nodup := by
  refine (List.nodup_map_iff_inj_on List.nodup_range).mpr ?_
  intro a ha b hb h
  have := congrArg BitVec.toNat h
  simp only [List.mem_range] at ha hb
  simp only [BitVec.toNat_ofNat] at this
  omega

theorem sum_pick {l : List Byte} (hd : l.Nodup) {b : Byte} (hb : b ∈ l) (g f : Byte → Nat) :
    (l.map (fun s => (g s + if b = s then 1 else 0) * f s)).sum = (l.map (fun s => g s * f s)).sum + f b := by
  induction l with
  | nil => simp at hb
  | cons a l ih =>
    have hd' := List.nodup_cons.mp hd
    simp only [List.map_cons, List.sum_cons]
    by_cases h : b = a
    · subst h
      have : l.map (fun s => (g s + if b = s then 1 else 0) * f s) = l.map (fun s => g s * f s) := by
        apply List.map_congr_left
        intro s hs
        rw [if_neg (by rintro rfl; exact hd'.1 hs), Nat.add_zero]
      rw [this, if_pos rfl, Nat.add_mul, Nat.one_mul]; omega
    · rw [ih hd'.2 (by simpa [h] using hb), if_neg h, Nat.add_zero]; omega

/-- A sum over the bytes of a block, byte value by byte value. -/
theorem sum_over_block (block : List Byte) (f : Byte → Nat) :
    (block.map f).sum = (allSymbols.map (fun s => block.count s * f s)).sum := by
  induction block with
  | nil => simp
  | cons b block ih =>
    have : allSymbols.map (fun s => (b :: block).count s * f s) =
        allSymbols.map (fun s => (block.count s + if b = s then 1 else 0) * f s) := by
      apply List.map_congr_left
      intro s _
      rw [List.count_cons]; simp
    rw [this, sum_pick allSymbols_nodup (mem_allSymbols b), ← ih, List.map_cons, List.sum_cons, Nat.add_comm]

/-! ## The queue -/

theorem Weighted.before_iff (x y : Weighted) :
    x.before y = true ↔ x.frq < y.frq ∨ (x.frq = y.frq ∧ x.minsym < y.minsym) := by
  simp [Weighted.before]

theorem Weighted.before_trans {x y z : Weighted} (h : x.before y = true) (h' : y.before z = true) :
    x.before z = true := by
  rw [Weighted.before_iff] at *; omega

theorem Weighted.before_total {x y : Weighted} (h : x.minsym ≠ y.minsym) (h' : x.before y = false) :
    y.before x = true := by
  rw [Weighted.before_iff]
  have : ¬ (x.frq < y.frq ∨ (x.frq = y.frq ∧ x.minsym < y.minsym)) := by rw [← Weighted.before_iff, h']; simp
  omega

/-- A queue in strict key order whose subtrees have different smallest symbols (R187). -/
structure Ordered (queue : List Weighted) : Prop where
  sorted : queue.Pairwise (fun x y => x.before y = true)
  distinct : (queue.map Weighted.minsym).Nodup

theorem enqueue_perm (x : Weighted) (queue : List Weighted) : (enqueue x queue).Perm (x :: queue) := by
  induction queue with
  | nil => exact List.Perm.refl _
  | cons y rest ih =>
    unfold enqueue
    split
    · exact List.Perm.refl _
    · exact (ih.cons y).trans (List.Perm.swap x y rest)

theorem enqueue_length (x : Weighted) (queue : List Weighted) : (enqueue x queue).length = queue.length + 1 := by
  rw [(enqueue_perm x queue).length_eq]; rfl

theorem Ordered.enqueue {x : Weighted} {queue : List Weighted} (h : Ordered queue)
    (hx : x.minsym ∉ queue.map Weighted.minsym) : Ordered (enqueue x queue) := by
  refine ⟨?_, ?_⟩
  · induction queue with
    | nil => simp [Machine.enqueue]
    | cons y rest ih =>
      have hs := List.pairwise_cons.mp h.sorted
      have hd := List.nodup_cons.mp h.distinct
      simp only [List.map_cons, List.mem_cons, not_or] at hx
      unfold Machine.enqueue
      cases hb : x.before y with
      | true =>
        rw [if_pos rfl]
        refine List.pairwise_cons.mpr ⟨?_, h.sorted⟩
        intro z hz
        rcases List.mem_cons.mp hz with rfl | hz
        · exact hb
        · exact Weighted.before_trans hb (hs.1 z hz)
      | false =>
        rw [if_neg (by simp)]
        refine List.pairwise_cons.mpr ⟨?_, ih ⟨hs.2, hd.2⟩ hx.2⟩
        intro z hz
        rcases List.mem_cons.mp ((enqueue_perm x rest).mem_iff.mp hz) with rfl | hz
        · exact Weighted.before_total hx.1 hb
        · exact hs.1 z hz
  · have := (enqueue_perm x queue).map Weighted.minsym
    rw [this.nodup_iff]
    exact List.nodup_cons.mpr ⟨hx, h.distinct⟩

theorem Ordered.step {a b : Weighted} {rest : List Weighted} (h : Ordered (a :: b :: rest)) :
    Ordered (Machine.enqueue (a.join b) rest) := by
  have hs := List.pairwise_cons.mp h.sorted
  have hs' := List.pairwise_cons.mp hs.2
  have hd := List.nodup_cons.mp h.distinct
  have hd' := List.nodup_cons.mp hd.2
  refine Ordered.enqueue ⟨hs'.2, hd'.2⟩ ?_
  have h1 := hd.1
  simp only [List.map_cons, List.mem_cons, not_or] at h1
  rcases Nat.le_total a.minsym b.minsym with hle | hle
  · have : (a.join b).minsym = a.minsym := Nat.min_eq_left hle
    rw [this]; exact h1.2
  · have : (a.join b).minsym = b.minsym := Nat.min_eq_right hle
    rw [this]; exact hd'.1

/-- The frequencies of a queue, added up. -/
def totalFrq (queue : List Weighted) : Nat := (queue.map Weighted.frq).sum

theorem totalFrq_perm {q q' : List Weighted} (h : q.Perm q') : totalFrq q = totalFrq q' :=
  (h.map Weighted.frq).sum_eq

theorem totalFrq_step (a b : Weighted) (rest : List Weighted) :
    totalFrq (enqueue (a.join b) rest) = totalFrq (a :: b :: rest) := by
  rw [totalFrq_perm (enqueue_perm _ _)]
  simp [totalFrq, Weighted.join]; omega

/-- The leaves of a queue's subtrees. -/
def queueSymbols (queue : List Weighted) : List Byte := queue.flatMap (fun w => w.trie.symbols)

theorem queueSymbols_step (a b : Weighted) (rest : List Weighted) :
    (queueSymbols (enqueue (a.join b) rest)).Perm (queueSymbols (a :: b :: rest)) := by
  refine ((enqueue_perm _ _).flatMap_right _).trans ?_
  simp [queueSymbols, Weighted.join, Trie.symbols]

theorem mergeQueue_symbols : ∀ (rounds : Nat) (queue : List Weighted), queue ≠ [] → queue.length ≤ rounds + 1 →
    (mergeQueue rounds queue).symbols.Perm (queueSymbols queue) := by
  intro rounds
  induction rounds with
  | zero =>
    intro queue hne hl
    match queue, hne, hl with
    | [a], _, _ => simp [mergeQueue, queueSymbols]
  | succ rounds ih =>
    intro queue hne hl
    match queue, hne, hl with
    | [a], _, _ => simp [mergeQueue, queueSymbols]
    | a :: b :: rest, _, hl =>
      rw [mergeQueue]
      refine (ih _ ?_ ?_).trans (queueSymbols_step a b rest)
      · intro h
        have := enqueue_length (a.join b) rest
        rw [h] at this; simp at this
      · rw [enqueue_length]; simp at hl; omega

/-! ## The seeds -/

theorem mem_blockSymbols {block : List Byte} {s : Byte} : s ∈ blockSymbols block ↔ s ∈ block := by
  simp [blockSymbols, mem_allSymbols]

theorem blockSymbols_nodup (block : List Byte) : (blockSymbols block).Nodup := allSymbols_nodup.filter _

theorem distinctBytes_le (block : List Byte) : distinctBytes block ≤ 256 := by
  have := List.length_filter_le (fun s => block.contains s) allSymbols
  simpa [distinctBytes, blockSymbols, allSymbols] using this

theorem distinctBytes_pos {block : List Byte} (h : block ≠ []) : 0 < distinctBytes block := by
  obtain ⟨b, hb⟩ := List.exists_mem_of_ne_nil block h
  exact List.length_pos_of_mem (mem_blockSymbols.mpr hb)

/-- The symbols of the seeds: the block's, and the placeholder beside a lone one. -/
def seedSymbols (block : List Byte) : List Byte :=
  blockSymbols block ++ if distinctBytes block = 1 then [placeholderSym block] else []

theorem placeholder_not_mem {block : List Byte} (h : distinctBytes block = 1) : placeholderSym block ∉ block := by
  obtain ⟨v, hv⟩ := List.length_eq_one_iff.mp h
  have only : ∀ b, b ∈ block ↔ b = v := fun b => by rw [← mem_blockSymbols, hv]; simp
  unfold placeholderSym
  split
  · rename_i h0
    have h0 := (only _).mp (by simpa using h0)
    rw [only, ← h0]
    decide
  · rename_i h0
    simpa using h0

theorem seedSymbols_nodup (block : List Byte) : (seedSymbols block).Nodup := by
  unfold seedSymbols
  split
  · rename_i h
    refine List.Nodup.append (blockSymbols_nodup block) (by simp) ?_
    intro a ha hb
    simp only [List.mem_singleton] at hb
    subst hb
    exact placeholder_not_mem h (mem_blockSymbols.mp ha)
  · simpa using blockSymbols_nodup block

theorem seedQueue_minsym (block : List Byte) :
    (seedQueue block).map Weighted.minsym = (seedSymbols block).map BitVec.toNat := by
  unfold seedQueue seedSymbols
  split <;> simp [Function.comp_def]

theorem seedQueue_symbols (block : List Byte) : queueSymbols (seedQueue block) = seedSymbols block := by
  unfold seedQueue seedSymbols queueSymbols
  split <;> simp [List.flatMap_append, List.flatMap_map, Trie.symbols]

theorem seedQueue_length {block : List Byte} (h : block ≠ []) :
    (seedQueue block).length = max (distinctBytes block) 2 := by
  have := distinctBytes_pos h
  unfold seedQueue
  split
  · rename_i h1
    rw [List.length_append, List.length_map]
    show distinctBytes block + 1 = _
    omega
  · rw [List.append_nil, List.length_map]
    show distinctBytes block = _
    omega

theorem sum_filter_count (block l : List Byte) :
    ((l.filter (fun s => block.contains s)).map (fun s => block.count s)).sum =
      (l.map (fun s => block.count s * 1)).sum := by
  induction l with
  | nil => rfl
  | cons a l ih =>
    rw [List.filter_cons]
    split
    · simp only [List.map_cons, List.sum_cons, ih, Nat.mul_one]
    · rename_i h
      rw [ih, List.map_cons, List.sum_cons, List.count_eq_zero.mpr (by simpa using h)]; simp

theorem totalFrq_seedQueue (block : List Byte) : totalFrq (seedQueue block) = block.length := by
  have h := sum_over_block block (fun _ => 1)
  rw [← sum_filter_count] at h
  have hl : (block.map (fun _ => 1)).sum = block.length := by simp
  rw [hl] at h
  rw [h]
  unfold seedQueue totalFrq
  split <;> simp [Function.comp_def, blockSymbols]

theorem foldl_enqueue_perm (seeds queue : List Weighted) :
    (seeds.foldl (fun queue x => enqueue x queue) queue).Perm (seeds ++ queue) := by
  induction seeds generalizing queue with
  | nil => exact List.Perm.refl _
  | cons x seeds ih =>
    refine (ih (enqueue x queue)).trans ?_
    refine ((enqueue_perm x queue).append_left seeds).trans ?_
    exact List.perm_middle

theorem foldl_enqueue_ordered (seeds queue : List Weighted) (h : Ordered queue)
    (hd : ((seeds ++ queue).map Weighted.minsym).Nodup) :
    Ordered (seeds.foldl (fun queue x => enqueue x queue) queue) := by
  induction seeds generalizing queue with
  | nil => exact h
  | cons x seeds ih =>
    have hp : (seeds ++ enqueue x queue).Perm (x :: (seeds ++ queue)) :=
      ((enqueue_perm x queue).append_left seeds).trans List.perm_middle
    have hd' : ((x :: (seeds ++ queue)).map Weighted.minsym).Nodup := hd
    refine ih (enqueue x queue) (h.enqueue ?_) ?_
    · have := (List.nodup_cons.mp hd').1
      simp only [List.map_append, List.mem_append, not_or] at this
      exact this.2
    · exact ((hp.map Weighted.minsym).nodup_iff).mpr hd'

/-- The queue the merging starts from. -/
def startQueue (block : List Byte) : List Weighted :=
  (seedQueue block).foldl (fun queue x => enqueue x queue) []

theorem startQueue_perm (block : List Byte) : (startQueue block).Perm (seedQueue block) := by
  have := foldl_enqueue_perm (seedQueue block) []
  rwa [List.append_nil] at this

theorem startQueue_ordered (block : List Byte) : Ordered (startQueue block) := by
  refine foldl_enqueue_ordered _ _ ⟨List.Pairwise.nil, List.nodup_nil⟩ ?_
  rw [List.append_nil, seedQueue_minsym]
  exact (seedSymbols_nodup block).map (fun a b h => BitVec.eq_of_toNat_eq h)

theorem huffmanTrie_eq (block : List Byte) :
    huffmanTrie block = mergeQueue (startQueue block).length (startQueue block) := by
  rw [(startQueue_perm block).length_eq]; rfl

theorem startQueue_ne_nil {block : List Byte} (h : block ≠ []) : startQueue block ≠ [] := by
  intro he
  have h1 := (startQueue_perm block).length_eq
  rw [he, seedQueue_length h] at h1
  simp at h1; omega

/-- The leaves of the Huffman trie are the symbols of the seeds, each once. -/
theorem huffmanTrie_symbols {block : List Byte} (h : block ≠ []) :
    (huffmanTrie block).symbols.Perm (seedSymbols block) := by
  rw [huffmanTrie_eq]
  refine (mergeQueue_symbols _ _ (startQueue_ne_nil h) (by omega)).trans ?_
  rw [← seedQueue_symbols]
  exact (startQueue_perm block).flatMap_right _

theorem huffmanTrie_nodup {block : List Byte} (h : block ≠ []) : (huffmanTrie block).symbols.Nodup :=
  (huffmanTrie_symbols h).nodup_iff.mpr (seedSymbols_nodup block)

theorem huffmanTrie_leaves {block : List Byte} (h : block ≠ []) :
    (huffmanTrie block).symbols.length = max (distinctBytes block) 2 := by
  rw [(huffmanTrie_symbols h).length_eq, ← seedQueue_length h]
  have := congrArg List.length (seedQueue_minsym block)
  simpa using this.symm

theorem huffmanTrie_nil : huffmanTrie [] = .leaf 0#8 := by decide +kernel

/-- Every byte of a block has a code in the block's trie. -/
theorem huffmanCode_spec {block : List Byte} {b : Byte} (hb : b ∈ block) :
    (huffmanTrie block).codeOf b = some (huffmanCode block b) := by
  have hne : block ≠ [] := by rintro rfl; simp at hb
  have : b ∈ (huffmanTrie block).symbols := by
    rw [(huffmanTrie_symbols hne).mem_iff]
    exact List.mem_append_left _ (mem_blockSymbols.mpr hb)
  rw [← (huffmanTrie block).codeOf_isSome] at this
  obtain ⟨p, hp⟩ := Option.isSome_iff_exists.mp this
  rw [huffmanCode, hp, Option.getD_some]

theorem huffmanCode_codes (block : List Byte) :
    CodesOf (huffmanTrie block) (block.map (huffmanCode block)) block := by
  have : ∀ l : List Byte, (∀ b ∈ l, b ∈ block) →
      CodesOf (huffmanTrie block) (l.map (huffmanCode block)) l := by
    intro l
    induction l with
    | nil => intro _; exact List.Forall₂.nil
    | cons b l ih =>
      intro h
      exact List.Forall₂.cons (Trie.follow_codeOf (huffmanCode_spec (h b (by simp))))
        (ih (fun b' hb' => h b' (by simp [hb'])))
  exact this block (fun _ h => h)

end Sys2Proof.Machine
end

