-- ==== Sys2Proof/Laws/Arena.lean ====
section
/-! SUPPORT. Phases 1 and 2 of COMPRESS on the arena: the frequency count, the seeding, RemoveMin and the merge loop,
against the queue of weighted trees (rules R182 to R190). -/

namespace Sys2Proof.Machine

/-! ## Phase 1 -/

theorem toNat_ne_of_ne {a b : Byte} (h : a ≠ b) : a.toNat ≠ b.toNat := fun e => h (BitVec.eq_of_toNat_eq e)

theorem freqAt_clearFreq (h : HufScratch) (s : Byte) : h.clearFreq.freqAt s = 0#32 := by
  unfold HufScratch.clearFreq HufScratch.freqAt
  rw [wordOr_fill _ _ _ (by rw [List.length_replicate]; exact s.isLt), List.getElem_replicate]

theorem freqAt_countByte (h : HufScratch) (b s : Byte) :
    (h.countByte b).freqAt s = if s = b then h.freqAt s + 1#32 else h.freqAt s := by
  unfold HufScratch.countByte HufScratch.freqAt
  rw [wordOr_set]
  by_cases hs : s = b
  · subst hs; simp
  · rw [if_neg (toNat_ne_of_ne hs), if_neg hs]

theorem countFrom_freqAt (block : List Byte) : ∀ (h : HufScratch) (s : Byte),
    (h.freqAt s).toNat + block.length < 2 ^ 32 →
    ((block.foldl HufScratch.countByte h).freqAt s).toNat = (h.freqAt s).toNat + block.count s := by
  induction block with
  | nil => intro h s _; simp
  | cons b block ih =>
    intro h s hl
    simp only [List.length_cons] at hl
    have hstep : ((h.countByte b).freqAt s).toNat = (h.freqAt s).toNat + if b = s then 1 else 0 := by
      rw [freqAt_countByte]
      by_cases hs : s = b
      · rw [if_pos hs, if_pos hs.symm, BitVec.toNat_add]; simp; omega
      · rw [if_neg hs, if_neg (fun e => hs e.symm)]; simp
    rw [List.foldl_cons, ih _ _ (by rw [hstep]; split <;> omega), hstep, List.count_cons]
    simp only [beq_iff_eq]
    omega

/-- Phase 1 counts the bytes of the block (R182, R183). -/
theorem phase1_freqAt {block : List Byte} (h : HufScratch) (hl : block.length < 2 ^ 32) (s : Byte) :
    ((h.phase1Count block).freqAt s).toNat = block.count s := by
  rw [HufScratch.phase1Count, countFrom_freqAt, freqAt_clearFreq]
  · simp
  · rw [freqAt_clearFreq]; simpa using hl

theorem alphabet_phase1 {block : List Byte} (h : HufScratch) (hl : block.length < 2 ^ 32) :
    (h.phase1Count block).alphabet = blockSymbols block := by
  unfold HufScratch.alphabet blockSymbols
  apply List.filter_congr
  intro s _
  rw [phase1_freqAt h hl]
  simp [List.count_pos_iff]

/-! ## Records -/

/-- Node `x` is the root of a subtree with the weight and the tree of `w`, below the arena's first free index. -/
structure Stands (h : HufScratch) (x : NodeIdx) (w : Weighted) : Prop where
  trie : h.TrieIn 0 h.ncntVal.toNat x w.trie
  frq : (h.nodeAt x).frq.toNat = w.frq
  minsym : (h.nodeAt x).minsym.toNat = w.minsym

theorem trieIn_root_lt {h : HufScratch} {lo hi : Nat} {t : Trie} {x : NodeIdx} (ht : h.TrieIn lo hi x t) :
    x.toNat < hi := by
  cases t with
  | leaf s => exact ht.2.1
  | node l r => exact ht.2.1

theorem ncntVal_addLive (h : HufScratch) (rec : NodeRec) (hn : h.ncntVal.toNat < 511) :
    (h.addLive rec).ncntVal.toNat = h.ncntVal.toNat + 1 := (ncnt_succ hn).1

theorem liveVal_addLive (h : HufScratch) (rec : NodeRec) :
    (h.addLive rec).liveVal = h.liveVal ++ [h.ncntVal.setWidth 9] := rfl

theorem freqAt_addLive (h : HufScratch) (rec : NodeRec) (s : Byte) : (h.addLive rec).freqAt s = h.freqAt s := rfl

theorem nodeAt_addLive (h : HufScratch) (rec : NodeRec) (y : NodeIdx) :
    (h.addLive rec).nodeAt y = if y.toNat = h.ncntVal.toNat then rec else h.nodeAt y := by
  unfold HufScratch.addLive HufScratch.nodeAt
  rw [nodeOr_set]

theorem Stands.addLive {h : HufScratch} {x : NodeIdx} {w : Weighted} (hs : Stands h x w) (rec : NodeRec)
    (hn : h.ncntVal.toNat < 511) : Stands (h.addLive rec) x w := by
  have hx : (h.addLive rec).nodeAt x = h.nodeAt x := by
    rw [nodeAt_addLive h rec, if_neg (by have := trieIn_root_lt hs.trie; omega)]
  refine ⟨?_, by rw [hx]; exact hs.frq, by rw [hx]; exact hs.minsym⟩
  rw [ncntVal_addLive h rec hn]
  refine TrieIn.mono (Nat.le_refl _) (Nat.le_succ _) (TrieIn.congr ?_ hs.trie)
  intro y _ hy
  rw [nodeAt_addLive h rec, if_neg (by omega)]

/-- LIVE stands for the weighted subtrees, in some order. -/
def Arena (h : HufScratch) (queue : List Weighted) : Prop :=
  ∃ ws, List.Forall₂ (Stands h) h.liveVal ws ∧ ws.Perm queue

theorem forall₂_stands_addLive {h : HufScratch} {live : List NodeIdx} {ws : List Weighted}
    (hf : List.Forall₂ (Stands h) live ws) (rec : NodeRec) (hn : h.ncntVal.toNat < 511) :
    List.Forall₂ (Stands (h.addLive rec)) live ws := hf.imp (fun _ _ hs => hs.addLive rec hn)

theorem idx_toNat {n : BitVec 10} (h : n.toNat < 511) : (n.setWidth 9).toNat = n.toNat := (ncnt_succ h).2

/-- A leaf added to the arena (R184, R185). -/
theorem Arena.addLeaf {h : HufScratch} {queue : List Weighted} (ha : Arena h queue) (s : Byte) (f : Word)
    (hn : h.ncntVal.toNat < 511) :
    Arena (h.addLive (h.leafRec s f)) (queue ++ [⟨f.toNat, s.toNat, .leaf s⟩]) := by
  obtain ⟨ws, hf, hp⟩ := ha
  refine ⟨ws ++ [⟨f.toNat, s.toNat, .leaf s⟩], ?_, hp.append_right _⟩
  rw [liveVal_addLive]
  refine List.rel_append (forall₂_stands_addLive hf _ hn) (List.Forall₂.cons ?_ List.Forall₂.nil)
  have hx := idx_toNat hn
  have he : (h.addLive (h.leafRec s f)).nodeAt (h.ncntVal.setWidth 9) = h.leafRec s f := by
    rw [nodeAt_addLive h _, if_pos hx]
  refine ⟨⟨Nat.zero_le _, ?_, by rw [he]; rfl, by rw [he]; rfl⟩, by rw [he]; rfl, by rw [he]; rfl⟩
  rw [ncntVal_addLive h _ hn, hx]; omega

/-! ## RemoveMin -/

/-- RemoveMin on weighted trees. -/
def takeMin : List Weighted → Option (Weighted × List Weighted)
  | [] => none
  | x :: rest =>
    match takeMin rest with
    | none => some (x, [])
    | some (y, others) => if y.before x then some (y, x :: others) else some (x, rest)

theorem keyBefore_eq {h : HufScratch} {x y : NodeIdx} {v w : Weighted} (hx : Stands h x v) (hy : Stands h y w) :
    h.keyBefore x y = v.before w := by
  unfold HufScratch.keyBefore Weighted.before
  rw [← hx.frq, ← hx.minsym, ← hy.frq, ← hy.minsym]

theorem removeMin_none {h : HufScratch} {live : List NodeIdx} (he : h.removeMin live = none) : live = [] := by
  cases live with
  | nil => rfl
  | cons x rest =>
    unfold HufScratch.removeMin at he
    split at he
    · simp at he
    · split at he <;> simp at he

theorem takeMin_none {ws : List Weighted} (he : takeMin ws = none) : ws = [] := by
  cases ws with
  | nil => rfl
  | cons x rest =>
    unfold takeMin at he
    split at he
    · simp at he
    · split at he <;> simp at he

theorem removeMin_stands {h : HufScratch} {live : List NodeIdx} {ws : List Weighted}
    (hf : List.Forall₂ (Stands h) live ws) :
    ∀ {w : Weighted} {others : List Weighted}, takeMin ws = some (w, others) →
      ∃ x rest, h.removeMin live = some (x, rest) ∧ Stands h x w ∧ List.Forall₂ (Stands h) rest others := by
  induction hf with
  | nil => intro w others he; simp [takeMin] at he
  | @cons x v live ws hx hf ih =>
    intro w others he
    cases ht : takeMin ws with
    | none =>
      have := takeMin_none ht
      subst this
      cases hf
      simp only [takeMin, Option.some.injEq, Prod.mk.injEq] at he
      obtain ⟨rfl, rfl⟩ := he
      exact ⟨x, [], rfl, hx, List.Forall₂.nil⟩
    | some p =>
      obtain ⟨u, us⟩ := p
      obtain ⟨y, rest, hr, hy, hrest⟩ := ih ht
      unfold takeMin at he
      rw [ht] at he
      unfold HufScratch.removeMin
      rw [hr]
      simp only [keyBefore_eq hy hx]
      cases hb : u.before v with
      | true =>
        simp only [hb, if_true, Option.some.injEq, Prod.mk.injEq] at he ⊢
        obtain ⟨rfl, rfl⟩ := he
        exact ⟨y, x :: rest, ⟨rfl, rfl⟩, hy, List.Forall₂.cons hx hrest⟩
      | false =>
        simp only [hb, Bool.false_eq_true, if_false, Option.some.injEq, Prod.mk.injEq] at he ⊢
        obtain ⟨rfl, rfl⟩ := he
        exact ⟨x, live, ⟨rfl, rfl⟩, hx, hf⟩

theorem takeMin_spec : ∀ {ws : List Weighted} {w : Weighted} {others : List Weighted}, takeMin ws = some (w, others) →
    ws.Perm (w :: others) ∧ ∀ z ∈ others, z.before w = false := by
  intro ws
  induction ws with
  | nil => intro w others he; simp [takeMin] at he
  | cons x rest ih =>
    intro w others he
    cases ht : takeMin rest with
    | none =>
      have := takeMin_none ht
      subst this
      simp only [takeMin, Option.some.injEq, Prod.mk.injEq] at he
      obtain ⟨rfl, rfl⟩ := he
      simp
    | some p =>
      obtain ⟨u, us⟩ := p
      obtain ⟨hp, hmin⟩ := ih ht
      unfold takeMin at he
      rw [ht] at he
      cases hb : u.before x with
      | true =>
        simp only [hb, if_true, Option.some.injEq, Prod.mk.injEq] at he
        obtain ⟨rfl, rfl⟩ := he
        refine ⟨(hp.cons x).trans (List.Perm.swap _ _ _), ?_⟩
        intro z hz
        rcases List.mem_cons.mp hz with rfl | hz
        · rw [Bool.eq_false_iff, ne_eq, Weighted.before_iff]
          rw [Weighted.before_iff] at hb
          omega
        · exact hmin z hz
      | false =>
        simp only [hb, Bool.false_eq_true, if_false, Option.some.injEq, Prod.mk.injEq] at he
        obtain ⟨rfl, rfl⟩ := he
        refine ⟨List.Perm.refl _, ?_⟩
        intro z hz
        have hx : ¬ (u.before x = true) := by rw [hb]; simp
        rw [Weighted.before_iff] at hx
        rcases List.mem_cons.mp (hp.mem_iff.mp hz) with rfl | hz
        · exact hb
        · have := hmin z hz
          rw [Bool.eq_false_iff, ne_eq, Weighted.before_iff] at this ⊢
          omega

/-- In a permutation of a queue in strict order, RemoveMin takes the queue's head. -/
theorem takeMin_head {ws : List Weighted} {a : Weighted} {rest : List Weighted} (hp : ws.Perm (a :: rest))
    (ha : ∀ z ∈ rest, a.before z = true) : ∃ others, takeMin ws = some (a, others) ∧ others.Perm rest := by
  cases ht : takeMin ws with
  | none =>
    have := takeMin_none ht
    subst this
    exact absurd hp.length_eq (by simp)
  | some p =>
    obtain ⟨w, others⟩ := p
    obtain ⟨hp', hmin⟩ := takeMin_spec ht
    have hperm : (w :: others).Perm (a :: rest) := hp'.symm.trans hp
    have hwa : w = a := by
      rcases List.mem_cons.mp (hperm.mem_iff.mp (List.mem_cons_self ..)) with h | h
      · exact h
      · rcases List.mem_cons.mp (hperm.symm.mem_iff.mp (List.mem_cons_self ..)) with h' | h'
        · exact h'.symm
        · have h1 := ha w h
          rw [hmin a h'] at h1
          simp at h1
    subst hwa
    exact ⟨others, rfl, hperm.cons_inv⟩

/-- RemoveMin on the arena takes the head of the queue (R188). -/
theorem Arena.removeMin {h : HufScratch} {live : List NodeIdx} {ws rest : List Weighted} {a : Weighted}
    (hf : List.Forall₂ (Stands h) live ws) (hp : ws.Perm (a :: rest)) (ho : Ordered (a :: rest)) :
    ∃ x others ws', h.removeMin live = some (x, others) ∧ Stands h x a ∧ List.Forall₂ (Stands h) others ws' ∧
      ws'.Perm rest := by
  obtain ⟨ws', ht, hp'⟩ := takeMin_head hp (List.pairwise_cons.mp ho.sorted).1
  obtain ⟨x, others, hr, hx, hf'⟩ := removeMin_stands hf ht
  exact ⟨x, others, ws', hr, hx, hf', hp'⟩

/-! ## The merge loop -/

/-- The internal node over two subtrees added to the arena (R189, R190). -/
theorem Arena.addMerge {h : HufScratch} {x y : NodeIdx} {a b : Weighted} {others : List NodeIdx}
    {ws : List Weighted} (hx : Stands h x a) (hy : Stands h y b) (hf : List.Forall₂ (Stands h) others ws)
    (hn : h.ncntVal.toNat < 511) (hfrq : a.frq + b.frq < 2 ^ 32) :
    List.Forall₂ (Stands ({ h with live := .holds others }.addLive (h.mergeRec x y)))
      ({ h with live := .holds others }.addLive (h.mergeRec x y)).liveVal (ws ++ [a.join b]) := by
  set g : HufScratch := { h with live := .holds others } with hg
  have same : ∀ {z : NodeIdx} {w : Weighted}, Stands h z w → Stands g z w := fun hs =>
    ⟨by rw [show g.ncntVal = h.ncntVal from rfl]; exact TrieIn.congr (h := h) (fun _ _ _ => rfl) hs.trie, hs.frq, hs.minsym⟩
  have hx' := (same hx).addLive (h.mergeRec x y) hn
  have hy' := (same hy).addLive (h.mergeRec x y) hn
  rw [liveVal_addLive]
  refine List.rel_append (forall₂_stands_addLive (hf.imp fun _ _ => same) _ hn)
    (List.Forall₂.cons ?_ List.Forall₂.nil)
  have hi : (g.ncntVal.setWidth 9).toNat = g.ncntVal.toNat := idx_toNat hn
  have he : (g.addLive (h.mergeRec x y)).nodeAt (g.ncntVal.setWidth 9) = h.mergeRec x y := by
    rw [nodeAt_addLive g _, if_pos hi]
  refine ⟨⟨Nat.zero_le _, ?_, by rw [he]; rfl, ?_, ?_⟩, ?_, ?_⟩
  · rw [ncntVal_addLive g _ hn, hi]; omega
  · rw [he]; exact hx'.trie
  · rw [he]; exact hy'.trie
  · rw [he]
    show ((h.nodeAt x).frq + (h.nodeAt y).frq).toNat = a.frq + b.frq
    rw [BitVec.toNat_add, hx.frq, hy.frq, Nat.mod_eq_of_lt hfrq]
  · rw [he]
    show (if (h.nodeAt y).minsym.toNat < (h.nodeAt x).minsym.toNat then (h.nodeAt y).minsym
      else (h.nodeAt x).minsym).toNat = min a.minsym b.minsym
    rw [← hx.minsym, ← hy.minsym]
    split <;> omega

/-- What the merge loop leaves for the queue LIVE stands for (R189). -/
theorem mergeLoop_spec : ∀ (rounds : Nat) (h : HufScratch) (queue : List Weighted), Arena h queue → Ordered queue →
    queue ≠ [] → queue.length ≤ rounds → h.ncntVal.toNat + queue.length ≤ 512 → totalFrq queue < 2 ^ 32 →
    let h' := HufScratch.mergeLoop rounds h
    h'.TrieIn 0 h'.ncntVal.toNat h'.rootVal (mergeQueue rounds queue) ∧
      (h'.nodeAt h'.rootVal).frq.toNat = totalFrq queue ∧
      h'.ncntVal.toNat + 1 = h.ncntVal.toNat + queue.length := by
  intro rounds
  induction rounds with
  | zero =>
    intro h queue ha ho hne hl hn hfrq
    exact absurd (List.length_eq_zero_iff.mp (Nat.le_zero.mp hl)) hne
  | succ rounds ih =>
    intro h queue ha ho hne hl hn hfrq
    obtain ⟨ws, hf, hp⟩ := ha
    match queue, hne, hl, hn, hfrq, ho, hp with
    | [a], _, hl, hn, hfrq, ho, hp =>
      obtain ⟨x, others, ws', hr, hx, hf', hp'⟩ := Arena.removeMin hf hp ho
      have hws : ws' = [] := List.perm_nil.mp hp'
      subst hws
      cases hf'
      have hm : HufScratch.mergeLoop (rounds + 1) h = { h with root := .holds x } := by
        simp [HufScratch.mergeLoop, hr, HufScratch.removeMin]
      intro h'
      have hh : h' = { h with root := .holds x } := hm
      rw [hh]
      refine ⟨?_, ?_, rfl⟩
      · rw [show ({ h with root := .holds x } : HufScratch).ncntVal = h.ncntVal from rfl]
        exact TrieIn.congr (h := h) (fun _ _ _ => rfl) hx.trie
      show (h.nodeAt x).frq.toNat = _
      rw [hx.frq]; simp [totalFrq]
    | a :: b :: rest, _, hl, hn, hfrq, ho, hp =>
      obtain ⟨x, others, ws1, hr, hx, hf1, hp1⟩ := Arena.removeMin hf hp ho
      have ho1 : Ordered (b :: rest) := ⟨(List.pairwise_cons.mp ho.sorted).2, (List.nodup_cons.mp ho.distinct).2⟩
      obtain ⟨y, others', ws2, hr2, hy, hf2, hp2⟩ := Arena.removeMin hf1 hp1 ho1
      simp only [List.length_cons] at hl hn
      have htot : totalFrq (a :: b :: rest) = a.frq + (b.frq + totalFrq rest) := by simp [totalFrq]
      have hn' : h.ncntVal.toNat < 511 := by omega
      have hf3 := Arena.addMerge hx hy hf2 hn' (by omega)
      set g : HufScratch := { h with live := .holds others' }.addLive (h.mergeRec x y) with hg
      have hgn : g.ncntVal.toNat = h.ncntVal.toNat + 1 := ncntVal_addLive { h with live := .holds others' } _ hn'
      have hm : HufScratch.mergeLoop (rounds + 1) h = HufScratch.mergeLoop rounds g := by
        simp [HufScratch.mergeLoop, hr, hr2, hg]
      have harena : Arena g (enqueue (a.join b) rest) := by
        refine ⟨ws2 ++ [a.join b], hf3, ?_⟩
        refine (hp2.append_right _).trans ?_
        exact List.perm_append_singleton _ _ |>.trans (enqueue_perm _ _).symm
      have hlen := enqueue_length (a.join b) rest
      obtain ⟨h1, h2, h3⟩ := ih g _ harena ho.step (by intro he; rw [he] at hlen; simp at hlen)
        (by omega) (by omega) (by rw [totalFrq_step]; exact hfrq)
      intro h'
      have hh : h' = HufScratch.mergeLoop rounds g := hm
      rw [hh]
      refine ⟨h1, by rw [h2, totalFrq_step], ?_⟩
      rw [h3, hgn, hlen]; simp only [List.length_cons]; omega

/-! ## Phase 2 -/

theorem seedLeaves_from : ∀ (syms : List Byte) (h : HufScratch) (queue : List Weighted), Arena h queue →
    h.ncntVal.toNat + syms.length ≤ 511 →
    let h' := syms.foldl (fun h s => h.addLive (h.leafRec s (h.freqAt s))) h
    Arena h' (queue ++ syms.map (fun s => ⟨(h.freqAt s).toNat, s.toNat, .leaf s⟩)) ∧
      h'.ncntVal.toNat = h.ncntVal.toNat + syms.length ∧ (∀ s, h'.freqAt s = h.freqAt s) := by
  intro syms
  induction syms with
  | nil => intro h queue ha _; simpa using ha
  | cons s syms ih =>
    intro h queue ha hn
    simp only [List.length_cons] at hn
    have hn' : h.ncntVal.toNat < 511 := by omega
    have hc := ncntVal_addLive h (h.leafRec s (h.freqAt s)) hn'
    obtain ⟨h1, h2, h3⟩ := ih _ _ (ha.addLeaf s (h.freqAt s) hn') (by rw [hc]; omega)
    refine ⟨?_, ?_, ?_⟩
    · simpa [freqAt_addLive] using h1
    · rw [List.foldl_cons, h2, hc, List.length_cons]; omega
    · intro u; rw [List.foldl_cons, h3, freqAt_addLive]

theorem placeholder_eq {h : HufScratch} {block : List Byte} (hc : ∀ s, (h.freqAt s).toNat = block.count s)
    (h1 : distinctBytes block = 1) : h.placeholder = placeholderSym block := by
  obtain ⟨v, hv⟩ := List.length_eq_one_iff.mp h1
  have only : ∀ b, b ∈ block ↔ b = v := fun b => by rw [← mem_blockSymbols, hv]; simp
  have hz : ∀ s, decide ((h.freqAt s).toNat = 0) = decide (s ≠ v) := by
    intro s
    rw [hc, decide_eq_decide, List.count_eq_zero, only]
  unfold HufScratch.placeholder placeholderSym
  rw [show (fun s => decide ((h.freqAt s).toNat = 0)) = fun s => decide (s ≠ v) from funext hz]
  by_cases h0 : v = 0#8
  · subst h0
    rw [if_pos (by simp [only])]
    decide +kernel
  · rw [if_neg (by simp [only]; exact fun e => h0 e.symm)]
    have : allSymbols = 0#8 :: allSymbols.tail := by decide +kernel
    rw [this, List.find?_cons_of_pos (by simp; exact fun e => h0 e.symm)]
    rfl

/-- Phase 2 puts the Huffman trie of a block at ROOT (R184, R185, R189, R191). -/
theorem phase2_spec {h : HufScratch} {block : List Byte} (hne : block ≠ []) (hl : block.length < 2 ^ 32)
    (hc : ∀ s, (h.freqAt s).toNat = block.count s) (hal : h.alphabet = blockSymbols block) :
    let h' := h.phase2Build
    h'.TrieIn 0 h'.ncntVal.toNat h'.rootVal (huffmanTrie block) ∧
      (h'.nodeAt h'.rootVal).frq.toNat = block.length ∧
      h'.ncntVal.toNat + 1 = 2 * max (distinctBytes block) 2 := by
  have hpos := distinctBytes_pos hne
  have hle := distinctBytes_le block
  intro h'
  set h0 : HufScratch := { h with ncnt := .holds 0#10, live := .holds [] } with hh0
  have e0 : h0.alphabet = blockSymbols block := hal
  have a0 : Arena h0 [] := ⟨[], List.Forall₂.nil, List.Perm.refl _⟩
  have n0 : h0.ncntVal.toNat = 0 := rfl
  have len : (blockSymbols block).length = distinctBytes block := rfl
  obtain ⟨a1, n1, f1⟩ := seedLeaves_from (blockSymbols block) h0 [] a0 (by rw [n0, len]; omega)
  rw [List.nil_append] at a1
  set h1 := (blockSymbols block).foldl (fun h s => h.addLive (h.leafRec s (h.freqAt s))) h0 with hh1
  have es : h0.seedLeaves = h1 := by rw [HufScratch.seedLeaves, e0]
  have c1 : ∀ s, (h1.freqAt s).toNat = block.count s := fun s => by rw [f1]; exact hc s
  have hq : (blockSymbols block).map (fun s => (⟨(h0.freqAt s).toNat, s.toNat, .leaf s⟩ : Weighted)) =
      (blockSymbols block).map (fun s => ⟨block.count s, s.toNat, .leaf s⟩) := by
    apply List.map_congr_left
    intro s _
    rw [show (h0.freqAt s).toNat = block.count s from hc s]
  rw [hq] at a1
  set ready := if h.alphabet.length = 1 then h1.addLive (h1.leafRec h1.placeholder 0#32) else h1 with hready
  have he : h' = HufScratch.mergeLoop ready.liveVal.length ready := by
    have hnil : ¬ h.alphabet = [] := by
      rw [hal]; intro e; rw [← List.length_eq_zero_iff, len] at e; omega
    show h.phase2Build = _
    rw [HufScratch.phase2Build, if_neg hnil]
    simp only [← hh0, es, hready]
  have hseed : Arena ready (seedQueue block) ∧ ready.ncntVal.toNat = max (distinctBytes block) 2 := by
    rw [hready, hal, len]
    unfold seedQueue
    split
    · rename_i h1'
      have hlt : h1.ncntVal.toNat < 511 := by rw [n1, n0, len]; omega
      refine ⟨?_, by rw [ncntVal_addLive h1 _ hlt, n1, n0, len]; omega⟩
      have := a1.addLeaf h1.placeholder 0#32 hlt
      rwa [placeholder_eq c1 h1'] at this ⊢
    · rw [List.append_nil]
      exact ⟨a1, by rw [n1, n0, len]; omega⟩
  obtain ⟨ar, nr⟩ := hseed
  have hlen : ready.liveVal.length = (startQueue block).length := by
    obtain ⟨ws, hf, hp⟩ := ar
    rw [hf.length_eq, hp.length_eq, (startQueue_perm block).length_eq]
  have hsl : (startQueue block).length = max (distinctBytes block) 2 := by
    rw [(startQueue_perm block).length_eq, seedQueue_length hne]
  have arena : Arena ready (startQueue block) := by
    obtain ⟨ws, hf, hp⟩ := ar
    exact ⟨ws, hf, hp.trans (startQueue_perm block).symm⟩
  have htot : totalFrq (startQueue block) < 2 ^ 32 := by
    rw [totalFrq_perm (startQueue_perm block)]
    rw [totalFrq_seedQueue]; exact hl
  obtain ⟨m1, m2, m3⟩ := mergeLoop_spec _ ready _ arena (startQueue_ordered block) (startQueue_ne_nil hne)
    (Nat.le_of_eq hlen.symm) (by rw [nr, hsl]; omega) htot
  rw [he]
  refine ⟨?_, by rw [m2, totalFrq_perm (startQueue_perm block), totalFrq_seedQueue], ?_⟩
  · rw [huffmanTrie_eq, ← hlen]; exact m1
  · rw [m3, nr, hsl]; omega

end Sys2Proof.Machine
end

