-- ==== Sys2Proof/Laws/Reads.lean ====
section
/-! SUPPORT. What a read can do on any input: which kinds it raises, and how it moves SRC, RBUF and RCNT. -/

namespace Sys2Proof.Machine

/-! ## Both ends of an attempt -/

/-- The attempt ends normally with `ok`, or raises a kind with `bad`. -/
def Attempt.Meets {σ α : Type} (a : Attempt σ α) (ok : α → σ → Prop) (bad : ErrKind → σ → Prop) : Prop :=
  match a with
  | .ok v s => ok v s
  | .raised k s => bad k s

theorem Attempt.Meets.andThen {σ α β : Type} {a : Attempt σ α} {f : α → σ → Attempt σ β} {ok : α → σ → Prop}
    {ok' : β → σ → Prop} {bad : ErrKind → σ → Prop} (h : a.Meets ok bad)
    (hf : ∀ v s, ok v s → (f v s).Meets ok' bad) : (a.andThen f).Meets ok' bad := by
  cases a with
  | ok v s => exact hf v s h
  | raised k s => exact h

theorem Attempt.Meets.mono {σ α : Type} {a : Attempt σ α} {ok ok' : α → σ → Prop} {bad bad' : ErrKind → σ → Prop}
    (h : a.Meets ok bad) (ho : ∀ v s, ok v s → ok' v s) (hb : ∀ k s, bad k s → bad' k s) : a.Meets ok' bad' := by
  cases a with
  | ok v s => exact ho v s h
  | raised k s => exact hb k s h

/-! ## The reader -/

/-- Bytes were taken from the front of SRC, RBUF is the last one taken, and at most 7 bits are left in it (R122). -/
structure Fetched (r r' : BitReader) : Prop where
  count : r'.cnt.toNat ≤ 7
  taken : (r'.src = r.src ∧ r'.buf = r.buf) ∨ ∃ front, r.src = front ++ r'.buf :: r'.src

theorem Fetched.refl {r : BitReader} (h : r.cnt.toNat ≤ 7) : Fetched r r := ⟨h, .inl ⟨rfl, rfl⟩⟩

theorem Fetched.trans {r r' r'' : BitReader} (h : Fetched r r') (h' : Fetched r' r'') : Fetched r r'' := by
  refine ⟨h'.count, ?_⟩
  rcases h.taken with ⟨e1, e2⟩ | ⟨f, e⟩ <;> rcases h'.taken with ⟨e1', e2'⟩ | ⟨f', e'⟩
  · exact .inl ⟨e1'.trans e1, e2'.trans e2⟩
  · exact .inr ⟨f', by rw [← e1]; exact e'⟩
  · exact .inr ⟨f, by rw [e1', e2', e]⟩
  · exact .inr ⟨f ++ r'.buf :: f', by rw [e, e', List.append_assoc, List.cons_append]⟩

theorem Fetched.suffix {r r' : BitReader} (h : Fetched r r') : r'.src <:+ r.src := by
  rcases h.taken with ⟨e, _⟩ | ⟨f, e⟩
  · rw [e]
  · exact ⟨f ++ [r'.buf], by rw [e]; simp⟩

/-- The way a reader operation ends badly: EndOfStream, with SRC empty. -/
def RanOut (r : BitReader) (k : ErrKind) (r' : BitReader) : Prop :=
  k = .endOfStream ∧ r'.src = [] ∧ Fetched r r'

theorem RanOut.after {r r' r'' : BitReader} {k : ErrKind} (h : Fetched r r') (h' : RanOut r' k r'') : RanOut r k r'' :=
  ⟨h'.1, h'.2.1, h.trans h'.2.2⟩

theorem getBit_meets (r : BitReader) (h7 : r.cnt.toNat ≤ 7) :
    r.getBit.Meets (fun _ r' => Fetched r r') (RanOut r) := by
  unfold BitReader.getBit
  by_cases h : r.cnt = 0#4
  · rw [if_pos h]
    cases hs : r.src with
    | nil => exact ⟨rfl, hs, Fetched.refl h7⟩
    | cons v rest =>
      refine ⟨by simp, .inr ⟨[], ?_⟩⟩
      rw [hs]; rfl
  · rw [if_neg h]
    have : r.cnt.toNat ≠ 0 := fun h' => h (BitVec.eq_of_toNat_eq (by simpa using h'))
    refine ⟨?_, .inl ⟨rfl, rfl⟩⟩
    show (r.cnt - 1#4).toNat ≤ 7
    rw [BitVec.toNat_sub]; simp; omega

theorem getBitsInto_meets : ∀ (m : Nat) (v : Byte) (r : BitReader), r.cnt.toNat ≤ 7 →
    (BitReader.getBitsInto m v r).Meets (fun _ r' => Fetched r r') (RanOut r) := by
  intro m
  induction m with
  | zero => intro v r h7; exact Fetched.refl h7
  | succ m ih =>
    intro v r h7
    refine (getBit_meets r h7).andThen ?_
    intro b r' h
    exact (ih _ r' h.count).mono (fun _ _ h' => h.trans h') (fun _ _ h' => RanOut.after h h')

theorem getByte_meets (r : BitReader) (h7 : r.cnt.toNat ≤ 7) :
    r.getByte.Meets (fun _ r' => Fetched r r') (RanOut r) := by
  unfold BitReader.getByte
  split
  · rename_i h
    refine ⟨rfl, ?_, Fetched.refl h7⟩
    cases hs : r.src with
    | nil => rfl
    | cons v l => simp [BitReader.bitsLeft, hs] at h; omega
  · exact getBitsInto_meets 8 _ r h7

/-! ## The phases of EXPAND -/

/-- The kinds EXPAND's phases raise, and what each leaves of SRC (R232). -/
def RejectedAt (r : BitReader) (k : ErrKind) (d : Decoder) : Prop :=
  (k = .endOfStream ∧ d.rd.src = [] ∨ k = .malformedArtifact ∨ k = .capacityExceeded) ∧ Fetched r d.rd

theorem RejectedAt.after {r : BitReader} {d d' : Decoder} {k : ErrKind} (h : Fetched r d.rd)
    (h' : RejectedAt d.rd k d') : RejectedAt r k d' := ⟨h'.1, h.trans h'.2⟩

theorem reading_meets {α : Type} {d : Decoder} {op : BitReader → Attempt BitReader α}
    (h : (op d.rd).Meets (fun _ r' => Fetched d.rd r') (RanOut d.rd)) :
    (d.reading op).Meets (fun _ d' => Fetched d.rd d'.rd) (RejectedAt d.rd) := by
  unfold Decoder.reading
  cases he : op d.rd with
  | ok v r => rw [he] at h; exact h
  | raised k r => rw [he] at h; exact ⟨.inl ⟨h.1, h.2.1⟩, h.2.2⟩

theorem readNode_meets : ∀ (frames : Nat) (d : Decoder), d.rd.cnt.toNat ≤ 7 →
    (Decoder.readNode frames d).Meets (fun _ d' => Fetched d.rd d'.rd) (RejectedAt d.rd) := by
  intro frames
  induction frames with
  | zero => intro d h7; exact ⟨.inr (.inl rfl), Fetched.refl h7⟩
  | succ frames ih =>
    intro d h7
    unfold Decoder.readNode
    split
    · exact ⟨.inr (.inl rfl), Fetched.refl h7⟩
    · refine (reading_meets (d := d.allocate) (getBit_meets d.rd h7)).andThen ?_
      intro f d1 h1
      cases f with
      | true =>
        simp only [if_true]
        refine Attempt.Meets.andThen (ok := fun _ d' => Fetched d.rd d'.rd) ?_ (fun v s (h : Fetched d.rd s.rd) => show Fetched d.rd _ from h)
        exact (reading_meets (getByte_meets d1.rd h1.count)).mono (fun _ _ h => Fetched.trans h1 h)
          (fun _ _ h => RejectedAt.after h1 h)
      | false =>
        simp only [Bool.false_eq_true, if_false]
        refine Attempt.Meets.andThen (ok := fun _ d' => Fetched d.rd d'.rd) ?_ ?_
        · exact (ih d1 h1.count).mono (fun _ _ h => Fetched.trans h1 h) (fun _ _ h => RejectedAt.after h1 h)
        · intro l d2 h2
          refine Attempt.Meets.andThen (ok := fun _ d' => Fetched d.rd d'.rd) ?_
            (fun v s (h : Fetched d.rd s.rd) => show Fetched d.rd _ from h)
          exact (ih d2 h2.count).mono (fun _ _ h => Fetched.trans h2 h) (fun _ _ h => RejectedAt.after h2 h)

theorem readLength_meets (d : Decoder) (h7 : d.rd.cnt.toNat ≤ 7) :
    d.readLength.Meets (fun _ d' => Fetched d.rd d'.rd) (RejectedAt d.rd) := by
  have byte : ∀ d' : Decoder, Fetched d.rd d'.rd →
      (d'.reading BitReader.getByte).Meets (fun _ d'' => Fetched d.rd d''.rd) (RejectedAt d.rd) := fun d' h =>
    (reading_meets (getByte_meets d'.rd h.count)).mono (fun _ _ h' => h.trans h') (fun _ _ h' => RejectedAt.after h h')
  unfold Decoder.readLength
  exact (byte d (Fetched.refl h7)).andThen fun b0 d0 h0 => (byte d0 h0).andThen fun b1 d1 h1 =>
    (byte d1 h1).andThen fun b2 d2 h2 => (byte d2 h2).andThen fun b3 d3 h3 => h3

theorem decodeFrom_meets (h : HufScratch) : ∀ (bits : Nat) (x : NodeIdx) (r : BitReader), r.cnt.toNat ≤ 7 →
    r.bitsLeft ≤ bits → (h.decodeFrom bits x r).Meets (fun _ r' => Fetched r r') (RanOut r) := by
  intro bits
  induction bits with
  | zero =>
    intro x r h7 hb
    unfold HufScratch.decodeFrom
    split
    · exact Fetched.refl h7
    · obtain ⟨e, hs, _⟩ := getBit_eos h7 (by
        rw [← List.length_eq_zero_iff, pendingBits_length]; omega)
      rw [e]
      exact ⟨rfl, hs, Fetched.refl h7⟩
  | succ bits ih =>
    intro x r h7 hb
    unfold HufScratch.decodeFrom
    split
    · exact Fetched.refl h7
    · rcases getBit_spec r h7 with ⟨_, hs, _, e⟩ | ⟨b, r', e, t⟩
      · rw [e]; exact ⟨rfl, hs, Fetched.refl h7⟩
      · have hm := getBit_meets r h7
        rw [e] at hm ⊢
        have hl : r'.bitsLeft ≤ bits := by
          have := congrArg List.length t.bits
          rw [List.length_append, pendingBits_length, pendingBits_length] at this
          simp at this; omega
        exact (ih _ r' hm.count hl).mono (fun _ _ h' => Fetched.trans hm h') (fun _ _ h' => RanOut.after hm h')

theorem decodeSymbols_meets (h : HufScratch) : ∀ (count : Nat) (r : BitReader), r.cnt.toNat ≤ 7 →
    (h.decodeSymbols count r).Meets (fun out r' => out.length = count ∧ Fetched r r') (RanOut r) := by
  intro count
  induction count with
  | zero => intro r h7; exact ⟨rfl, Fetched.refl h7⟩
  | succ count ih =>
    intro r h7
    unfold HufScratch.decodeSymbols
    refine (decodeFrom_meets h r.bitsLeft h.rootVal r h7 (Nat.le_refl _)).andThen ?_
    intro b r1 h1
    refine Attempt.Meets.andThen (ok := fun out r' => out.length = count ∧ Fetched r r') ?_ ?_
    · exact (ih r1 h1.count).mono (fun _ _ h => ⟨h.1, h1.trans h.2⟩) (fun _ _ h => RanOut.after h1 h)
    · intro out r2 h2
      exact ⟨by simp [h2.1], h2.2⟩

theorem decodeBody_meets (len : Nat) (d : Decoder) (h7 : d.rd.cnt.toNat ≤ 7) :
    (d.decodeBody len).Meets (fun out d' => out.length = len ∧ Fetched d.rd d'.rd) (RejectedAt d.rd) := by
  unfold Decoder.decodeBody
  split
  · split
    · exact ⟨.inr (.inl rfl), Fetched.refl h7⟩
    · rename_i h
      exact ⟨by simp at h; simp [h], Fetched.refl h7⟩
  · have := decodeSymbols_meets d.huf len d.rd h7
    unfold Decoder.reading
    cases he : d.huf.decodeSymbols len d.rd with
    | ok v r => rw [he] at this; exact this
    | raised k r => rw [he] at this; exact ⟨.inl ⟨this.1, this.2.1⟩, this.2.2⟩

/-- The `try` block of EXPAND on any source (R220, R232, R234). -/
theorem readArtifact_meets (nmax : Word) (d : Decoder) (h7 : d.rd.cnt.toNat ≤ 7) :
    (d.readArtifact nmax).Meets
      (fun p d' => p.1.toNat ≤ nmax.toNat ∧ p.2.length = p.1.toNat ∧ Fetched d.rd d'.rd) (RejectedAt d.rd) := by
  unfold Decoder.readArtifact
  refine (readNode_meets _ d h7).andThen ?_
  intro x d1 h1
  refine Attempt.Meets.andThen (ok := fun _ d' => Fetched d.rd d'.rd) ?_ ?_
  · exact (readLength_meets (d1.setRoot x) h1.count).mono (fun _ _ h => Fetched.trans h1 h)
      (fun _ _ h => RejectedAt.after h1 h)
  · intro len d2 h2
    split
    · exact ⟨.inr (.inr rfl), h2⟩
    · rename_i hn
      refine Attempt.Meets.andThen (ok := fun out d' => out.length = len.toNat ∧ Fetched d.rd d'.rd) ?_ ?_
      · exact (decodeBody_meets _ d2 h2.count).mono (fun _ _ h => ⟨h.1, h2.trans h.2⟩)
          (fun _ _ h => RejectedAt.after h2 h)
      · intro out d3 h3
        exact ⟨Nat.le_of_not_lt hn, h3.1, h3.2⟩

end Sys2Proof.Machine
end

