-- ==== Sys2Proof/Laws/Artifact.lean ====
section
/-! SUPPORT. The `try` block of EXPAND on the bits of an artifact, whole and cut short (rules R97, R220, R234, R236). -/

namespace Sys2Proof.Machine

/-- ReadNode and then the rest, in one equation. -/
theorem readArtifact_eq {d d1 : Decoder} {x : NodeIdx} (e : Decoder.readNode Config.nodeMax d = .ok x d1)
    {n : Word} {r : BitReader} (e' : (d1.setRoot x).readLength = .ok n { d1.setRoot x with rd := r }) {nmax : Word}
    (hn : n.toNat ≤ nmax.toNat) :
    d.readArtifact nmax =
      (Decoder.decodeBody n.toNat { d1.setRoot x with rd := r }).andThen fun out d => .ok (n, out) d := by
  rw [Decoder.readArtifact, e]
  simp only [Attempt.andThen]
  rw [e']
  simp only
  rw [if_neg (by omega)]

/-- The body of an artifact whose trie has an internal root (R230). -/
theorem decodeBody_branches {d1 : Decoder} {x : NodeIdx} {r : BitReader} {t : Trie} (ht : d1.huf.HasTrie x t)
    (hb : t.branches = true) (len : Nat) :
    Decoder.decodeBody len { d1.setRoot x with rd := r } =
      Decoder.reading { d1.setRoot x with rd := r } ((d1.setRoot x).huf.decodeSymbols len) := by
  have hl : ¬ ((d1.setRoot x).huf.nodeAt (d1.setRoot x).huf.rootVal).leaf = true := by
    have := HasTrie.leaf_iff ht
    rw [hb] at this
    rw [show (d1.setRoot x).huf.nodeAt (d1.setRoot x).huf.rootVal = d1.huf.nodeAt x from rfl, this]
    simp
  rw [Decoder.decodeBody, if_neg hl]

theorem setRoot_hasTrie {d1 : Decoder} {x : NodeIdx} {t : Trie} (ht : d1.huf.HasTrie x t) :
    (d1.setRoot x).huf.HasTrie (d1.setRoot x).huf.rootVal t := HasTrie.congr (h := d1.huf) (fun _ => rfl) ht

/-- A whole artifact with an internal root, and anything after it (R220, R230, R233). -/
theorem readArtifact_ok {d : Decoder} {trie : Trie} {n nmax : Word} {codes : List (List Bool)} {out : List Byte}
    {rest : List Bool} (h0 : d.huf.ncntVal = 0#10) (h7 : d.rd.cnt.toNat ≤ 7) (hn : n.toNat ≤ nmax.toNat)
    (hb : trie.branches = true) (hs : trie.size ≤ 511) (ho : out.length = n.toNat) (hc : CodesOf trie codes out)
    (hp : d.rd.pendingBits = artifactBits trie n codes ++ rest) :
    ∃ d', d.readArtifact nmax = .ok (n, out) d' ∧ d'.rd.pendingBits = rest ∧ Fetched d.rd d'.rd := by
  have hp' : d.rd.pendingBits = trie.section ++ (lengthBits n ++ (codes.flatten ++ rest)) := by
    rw [hp]; simp [artifactBits]
  obtain ⟨x, d1, e1, t1, _, w1, _⟩ :=
    readNode_spec trie Config.nodeMax d _ h7 hp' (by rw [h0]; simpa using hs) hs
  have p1 := pending_after t1 hp'
  obtain ⟨r2, e2, t2⟩ := readLength_spec (d := d1.setRoot x) (n := n) t1.count p1
  have p2 := pending_after t2 p1
  have ht := TrieIn.hasTrie w1
  obtain ⟨r3, e3, t3⟩ := decodeSymbols_spec (setRoot_hasTrie ht) hc r2 rest t2.count p2
  have key : d.readArtifact nmax = .ok (n, out) { d1.setRoot x with rd := r3 } := by
    rw [readArtifact_eq e1 e2 hn, decodeBody_branches ht hb, ← ho]
    simp only [Decoder.reading, e3, Attempt.andThen]
  refine ⟨{ d1.setRoot x with rd := r3 }, key, pending_after t3 p2, ?_⟩
  have := readArtifact_meets nmax d h7
  rw [key] at this
  exact this.2.2

/-- A source that ends inside the first 511 records of a trie, whatever the trie's size (R253 a). -/
theorem readArtifact_shortTrie {d : Decoder} {trie : Trie} {nmax : Word} {missing : List Bool}
    (h0 : d.huf.ncntVal = 0#10) (h7 : d.rd.cnt.toNat ≤ 7)
    (hp : (trie.records.take 511).flatMap recordBits = d.rd.pendingBits ++ missing) (hm : missing ≠ []) :
    Exhausted (d.readArtifact nmax) := by
  have hn : d.huf.ncntVal.toNat = 0 := by rw [h0]; rfl
  obtain ⟨d1, e1, hh⟩ := readNode_truncated trie Config.nodeMax d missing h7 (by rw [hn]; exact hp) hm
    (by simp [Config.nodeMax])
  exact ⟨d1, by rw [Decoder.readArtifact, e1]; rfl, hh⟩

/-- A source that ends inside the trie section or the length field, whatever the length (R253 a and c). -/
theorem readArtifact_short {d : Decoder} {trie : Trie} {n nmax : Word} {missing : List Bool}
    (h0 : d.huf.ncntVal = 0#10) (h7 : d.rd.cnt.toNat ≤ 7) (hs : trie.size ≤ 511)
    (hp : trie.section ++ lengthBits n = d.rd.pendingBits ++ missing) (hm : missing ≠ []) :
    Exhausted (d.readArtifact nmax) := by
  have hroom : d.huf.ncntVal.toNat + trie.size ≤ 511 := by rw [h0]; simpa using hs
  have inLength : ∀ more, d.rd.pendingBits = trie.section ++ more → more.length < 32 →
      Exhausted (d.readArtifact nmax) := by
    intro more hb h32
    obtain ⟨x, d1, e1, t1, _, _, _⟩ := readNode_spec trie Config.nodeMax d more h7 hb hroom hs
    have p1 : d1.rd.pendingBits = more := pending_after t1 hb
    obtain ⟨d2, e2, hh⟩ := readLength_truncated (d := d1.setRoot x) t1.count
      (by show d1.rd.pendingBits.length < 32; rw [p1]; exact h32)
    exact ⟨d2, by rw [Decoder.readArtifact, e1]; simp only [Attempt.andThen]; rw [e2], hh⟩
  rcases List.append_eq_append_iff.mp hp with ⟨more, hbits, hmis⟩ | ⟨more, hl', _⟩
  · refine inLength more hbits ?_
    have hx := congrArg List.length hmis
    rw [lengthBits_length, List.length_append] at hx
    have := List.length_pos_of_ne_nil hm
    omega
  · rcases Decidable.em (more = []) with rfl | hmore
    · exact inLength [] (by rw [List.append_nil] at hl' ⊢; exact hl'.symm) (by simp)
    · refine readArtifact_shortTrie (trie := trie) h0 h7 (missing := more) ?_ hmore
      rw [List.take_of_length_le (by rw [Trie.records_length]; exact hs), ← Trie.section_eq_records]
      exact hl'

/-- An artifact cut short before its last meaningful bit (R236). -/
theorem readArtifact_truncated {d : Decoder} {trie : Trie} {n nmax : Word} {codes : List (List Bool)} {out : List Byte}
    {missing : List Bool} (h0 : d.huf.ncntVal = 0#10) (h7 : d.rd.cnt.toNat ≤ 7) (hn : n.toNat ≤ nmax.toNat)
    (hs : trie.size ≤ 511) (ho : out.length = n.toNat) (hleaf : trie.branches = false → codes.flatten = [])
    (hc : trie.branches = true → CodesOf trie codes out)
    (hp : artifactBits trie n codes = d.rd.pendingBits ++ missing) (hm : missing ≠ []) :
    Exhausted (d.readArtifact nmax) := by
  have hroom : d.huf.ncntVal.toNat + trie.size ≤ 511 := by rw [h0]; simpa using hs
  have body : ∀ more, d.rd.pendingBits = trie.section ++ (lengthBits n ++ more) → codes.flatten = more ++ missing →
      Exhausted (d.readArtifact nmax) := by
    intro more hb hcut
    have hbr : trie.branches = true := by
      by_contra hx
      have hnil := hleaf (by simpa using hx)
      rw [hnil] at hcut
      exact hm (List.append_eq_nil_iff.mp hcut.symm).2
    obtain ⟨x, d1, e1, t1, _, w1, _⟩ := readNode_spec trie Config.nodeMax d _ h7 hb hroom hs
    have p1 := pending_after t1 hb
    obtain ⟨r2, e2, t2⟩ := readLength_spec (d := d1.setRoot x) (n := n) t1.count p1
    have p2 : r2.pendingBits = more := pending_after t2 p1
    have ht := TrieIn.hasTrie w1
    obtain ⟨r3, e3, h3⟩ := decodeSymbols_truncated (setRoot_hasTrie ht) (hc hbr) r2 missing t2.count
      (by rw [p2]; exact hcut) hm
    refine ⟨{ d1.setRoot x with rd := r3 }, ?_, h3⟩
    rw [readArtifact_eq e1 e2 hn, decodeBody_branches ht hbr, ← ho]
    simp only [Decoder.reading, e3, Attempt.andThen]
  rcases List.append_eq_append_iff.mp hp with ⟨more, hbits, hcut⟩ | ⟨more, hshort, hmis⟩
  · exact body more (by rw [hbits]; simp) hcut
  · rcases Decidable.em (more = []) with rfl | hmore
    · rw [List.append_nil] at hshort
      rw [List.nil_append] at hmis
      exact body [] (by rw [← hshort]; simp) (by rw [hmis]; rfl)
    · exact readArtifact_short h0 h7 hs hshort hmore

/-- A source whose first 511 records belong to a larger trie: it is rejected with nothing read beyond them (R224). -/
theorem readArtifact_overflow {d : Decoder} {trie : Trie} {nmax : Word} {rest : List Bool}
    (h0 : d.huf.ncntVal = 0#10) (h7 : d.rd.cnt.toNat ≤ 7) (hs : 511 < trie.size)
    (hp : d.rd.pendingBits = (trie.records.take 511).flatMap recordBits ++ rest) :
    ∃ d', d.readArtifact nmax = .raised .malformedArtifact d' ∧ d'.rd.pendingBits = rest ∧ Fetched d.rd d'.rd := by
  have hn : d.huf.ncntVal.toNat = 0 := by rw [h0]; rfl
  obtain ⟨d', e, p⟩ := readNode_overflow trie Config.nodeMax d rest h7 (by rw [hn]; exact hp) (by omega) (by omega)
    (by simp [Config.nodeMax])
  have hm := readNode_meets Config.nodeMax d h7
  rw [e] at hm
  exact ⟨d', by rw [Decoder.readArtifact, e]; rfl, p, hm.2⟩

end Sys2Proof.Machine
end

