-- ==== Sys2Proof/Laws/Sort.lean ====
section
/-! SUPPORT. The sort procedure of CSS: what each of its operations does to IDX, and the invariant of the work stack
(rules R150 to R163). -/

namespace Sys2Proof.Machine

/-! ## The order the procedure sorts by -/

/-- The key order of R140, read off DB. -/
def KeyBefore (n : Nat) (c : Sorter) (a b : Nat) : Prop :=
  (∃ k, k < n ∧ (∀ j, j < k → c.dbAt (a + j) = c.dbAt (b + j)) ∧
    (c.dbAt (a + k)).toNat < (c.dbAt (b + k)).toNat) ∨
  ((∀ j, j < n → c.dbAt (a + j) = c.dbAt (b + j)) ∧ a < b)

theorem KeyBefore.trans {n : Nat} {c : Sorter} {x y z : Nat} (h1 : KeyBefore n c x y)
    (h2 : KeyBefore n c y z) : KeyBefore n c x z := by
  rcases h1 with ⟨k, hk, e1, l1⟩ | ⟨e1, l1⟩ <;> rcases h2 with ⟨m, hm, e2, l2⟩ | ⟨e2, l2⟩
  · left
    rcases Nat.lt_trichotomy k m with h | h | h
    · exact ⟨k, hk, fun j hj => (e1 j hj).trans (e2 j (by omega)), by rw [← e2 k h]; exact l1⟩
    · subst h; exact ⟨k, hk, fun j hj => (e1 j hj).trans (e2 j hj), by omega⟩
    · exact ⟨m, hm, fun j hj => (e1 j (by omega)).trans (e2 j hj), by rw [e1 m h]; exact l2⟩
  · left; exact ⟨k, hk, fun j hj => (e1 j hj).trans (e2 j (by omega)), by rw [← e2 k hk]; exact l1⟩
  · left; exact ⟨m, hm, fun j hj => (e1 j (by omega)).trans (e2 j hj), by rw [e1 m hm]; exact l2⟩
  · right; exact ⟨fun j hj => (e1 j hj).trans (e2 j hj), by omega⟩

theorem KeyBefore.irrefl {n : Nat} {c : Sorter} {x : Nat} : ¬ KeyBefore n c x x := by
  rintro (⟨k, _, _, l⟩ | ⟨_, l⟩) <;> omega

theorem KeyBefore.total {n : Nat} {c : Sorter} {x y : Nat} (hne : x ≠ y) :
    KeyBefore n c x y ∨ KeyBefore n c y x := by
  by_cases h : ∀ j, j < n → c.dbAt (x + j) = c.dbAt (y + j)
  · rcases Nat.lt_or_gt_of_ne hne with hlt | hgt
    · exact .inl (.inr ⟨h, hlt⟩)
    · exact .inr (.inr ⟨fun j hj => (h j hj).symm, hgt⟩)
  · have hex : ∃ j, j < n ∧ c.dbAt (x + j) ≠ c.dbAt (y + j) := by
      by_contra hno
      exact h (fun j hj => by by_contra hj'; exact hno ⟨j, hj, hj'⟩)
    classical
    obtain ⟨hk, hne'⟩ := Nat.find_spec hex
    have hmin : ∀ j, j < Nat.find hex → c.dbAt (x + j) = c.dbAt (y + j) := by
      intro j hj
      by_contra hj'
      exact Nat.find_min hex hj ⟨by omega, hj'⟩
    have hnat : (c.dbAt (x + Nat.find hex)).toNat ≠ (c.dbAt (y + Nat.find hex)).toNat :=
      fun he => hne' (BitVec.eq_of_toNat_eq he)
    rcases Nat.lt_or_gt_of_ne hnat with hlt | hgt
    · exact .inl (.inl ⟨_, hk, hmin, hlt⟩)
    · exact .inr (.inl ⟨_, hk, fun j hj => (hmin j hj).symm, hgt⟩)

/-- What the comparison loop decides (R158). -/
theorem lessFrom_iff (c : Sorter) (a b count k : Nat) :
    c.lessFrom a b count k = true ↔
      (∃ m, m < count ∧ (∀ j, j < m → c.dbAt (a + (k + j)) = c.dbAt (b + (k + j))) ∧
        (c.dbAt (a + (k + m))).toNat < (c.dbAt (b + (k + m))).toNat) ∨
      ((∀ j, j < count → c.dbAt (a + (k + j)) = c.dbAt (b + (k + j))) ∧ a < b) := by
  induction count generalizing k with
  | zero => simp [Sorter.lessFrom]
  | succ count ih =>
    simp only [Sorter.lessFrom]
    have shift : ∀ j, k + 1 + j = k + (j + 1) := by intro j; omega
    split
    · rename_i hlt
      simp only [true_iff]
      exact .inl ⟨0, by omega, by simp, by simpa using hlt⟩
    · rename_i hnlt
      split
      · rename_i hgt
        simp only [Bool.false_eq_true, false_iff]
        rintro (⟨m, hm, he, hl⟩ | ⟨he, _⟩)
        · cases m with
          | zero => simp at hl; omega
          | succ m => have := he 0 (by omega); simp at this; rw [this] at hgt; omega
        · have := he 0 (by omega); simp at this; rw [this] at hgt; omega
      · rename_i hngt
        have heq : c.dbAt (a + k) = c.dbAt (b + k) := BitVec.eq_of_toNat_eq (by omega)
        rw [ih]
        constructor
        · rintro (⟨m, hm, he, hl⟩ | ⟨he, hab⟩)
          · refine .inl ⟨m + 1, by omega, ?_, by rw [← shift]; exact hl⟩
            intro j hj
            cases j with
            | zero => simpa using heq
            | succ j => rw [← shift]; exact he j (by omega)
          · refine .inr ⟨?_, hab⟩
            intro j hj
            cases j with
            | zero => simpa using heq
            | succ j => rw [← shift]; exact he j (by omega)
        · rintro (⟨m, hm, he, hl⟩ | ⟨he, hab⟩)
          · cases m with
            | zero => simp at hl; rw [heq] at hl; omega
            | succ m =>
              refine .inl ⟨m, by omega, ?_, by rw [shift]; exact hl⟩
              intro j hj; rw [shift]; exact he (j + 1) (by omega)
          · refine .inr ⟨?_, hab⟩
            intro j hj; rw [shift]; exact he (j + 1) (by omega)

/-- Among offsets that agree on their first `d` bytes, `Less` at depth `d` is the key order (R158, R150). -/
theorem less_iff {n d : Nat} {c : Sorter} {a b : Nat} (hd : d ≤ n)
    (agree : ∀ j, j < d → c.dbAt (a + j) = c.dbAt (b + j)) :
    c.less n a b d = true ↔ KeyBefore n c a b := by
  rw [Sorter.less, lessFrom_iff, KeyBefore]
  constructor
  · rintro (⟨m, hm, he, hl⟩ | ⟨he, hab⟩)
    · refine .inl ⟨d + m, by omega, ?_, hl⟩
      intro j hj
      by_cases hjd : j < d
      · exact agree j hjd
      · have := he (j - d) (by omega)
        rwa [show d + (j - d) = j by omega] at this
    · refine .inr ⟨?_, hab⟩
      intro j hj
      by_cases hjd : j < d
      · exact agree j hjd
      · have := he (j - d) (by omega)
        rwa [show d + (j - d) = j by omega] at this
  · rintro (⟨k, hk, he, hl⟩ | ⟨he, hab⟩)
    · by_cases hkd : k < d
      · rw [agree k hkd] at hl; omega
      · refine .inl ⟨k - d, by omega, fun j hj => he (d + j) (by omega), ?_⟩
        rwa [show d + (k - d) = k by omega]
    · exact .inr ⟨fun j hj => he (d + j) (by omega), hab⟩

/-! ## Rearrangements of a range -/

/-- IDX lists exactly the positions 0 to n-1. -/
def Dense (n : Nat) (c : Sorter) : Prop := ∃ offs, c.idx.cells = cellsFrom 0 offs ∧ offs.length = n

/-- `c'` is `c` with the entries of IDX at the positions from `lo` up to, not including, `stop` rearranged. -/
structure Rearranged (n lo stop : Nat) (c c' : Sorter) : Prop where
  db : c'.db = c.db
  work : c'.work = c.work
  gen : c'.idx.gen = c.idx.gen
  dense : Dense n c → Dense n c'
  perm : ∃ σ : Equiv.Perm ℕ, (∀ p, p < lo ∨ stop ≤ p → σ p = p) ∧ ∀ p, c'.idxAt p = c.idxAt (σ p)

theorem Rearranged.refl (n lo stop : Nat) (c : Sorter) : Rearranged n lo stop c c :=
  ⟨rfl, rfl, rfl, id, Equiv.refl ℕ, fun _ _ => rfl, fun _ => rfl⟩

theorem Rearranged.trans {n lo stop : Nat} {c c' c'' : Sorter} (h : Rearranged n lo stop c c')
    (h' : Rearranged n lo stop c' c'') : Rearranged n lo stop c c'' := by
  obtain ⟨σ, f, e⟩ := h.perm
  obtain ⟨τ, f', e'⟩ := h'.perm
  refine ⟨h'.db.trans h.db, h'.work.trans h.work, h'.gen.trans h.gen, fun d => h'.dense (h.dense d),
    τ.trans σ, ?_, ?_⟩
  · intro p hp; simp [f' p hp, f p hp]
  · intro p; simp [e', e]

theorem Rearranged.mono {n lo stop lo' stop' : Nat} {c c' : Sorter} (h : Rearranged n lo stop c c')
    (hl : lo' ≤ lo) (hs : stop ≤ stop') : Rearranged n lo' stop' c c' := by
  obtain ⟨σ, f, e⟩ := h.perm
  exact ⟨h.db, h.work, h.gen, h.dense, σ, fun p hp => f p (by omega), e⟩

/-- A rearrangement of a range takes the positions of the range to positions of the range. -/
theorem perm_maps {lo stop : Nat} {σ : Equiv.Perm ℕ} (f : ∀ p, p < lo ∨ stop ≤ p → σ p = p) {p : Nat}
    (h1 : lo ≤ p) (h2 : p < stop) : lo ≤ σ p ∧ σ p < stop := by
  by_contra hno
  have hfix : σ (σ p) = σ p := f (σ p) (by omega)
  have := σ.injective hfix
  omega

theorem Rearranged.dbAt_eq {n lo stop : Nat} {c c' : Sorter} (h : Rearranged n lo stop c c') (k : Nat) :
    c'.dbAt k = c.dbAt k := by simp [Sorter.dbAt, h.db]

theorem KeyBefore.congr {n : Nat} {c c' : Sorter} (hdb : ∀ k, c'.dbAt k = c.dbAt k) {a b : Nat} :
    KeyBefore n c' a b ↔ KeyBefore n c a b := by
  simp only [KeyBefore, hdb]

theorem Rearranged.outside {n lo stop : Nat} {c c' : Sorter} (h : Rearranged n lo stop c c') {p : Nat}
    (hp : p < lo ∨ stop ≤ p) : c'.idxAt p = c.idxAt p := by
  obtain ⟨σ, f, e⟩ := h.perm
  rw [e, f p hp]

/-- Every entry of the range comes from a position of the range. -/
theorem Rearranged.source {n lo stop : Nat} {c c' : Sorter} (h : Rearranged n lo stop c c') {p : Nat}
    (h1 : lo ≤ p) (h2 : p < stop) : ∃ q, lo ≤ q ∧ q < stop ∧ c'.idxAt p = c.idxAt q := by
  obtain ⟨σ, f, e⟩ := h.perm
  exact ⟨σ p, (perm_maps f h1 h2).1, (perm_maps f h1 h2).2, e p⟩

/-- Every entry of the range is still in the range. -/
theorem Rearranged.target {n lo stop : Nat} {c c' : Sorter} (h : Rearranged n lo stop c c') {q : Nat}
    (h1 : lo ≤ q) (h2 : q < stop) : ∃ p, lo ≤ p ∧ p < stop ∧ c'.idxAt p = c.idxAt q := by
  obtain ⟨σ, f, e⟩ := h.perm
  have f' : ∀ p, p < lo ∨ stop ≤ p → σ.symm p = p := fun p hp => by
    rw [Equiv.symm_apply_eq]; exact (f p hp).symm
  exact ⟨σ.symm q, (perm_maps f' h1 h2).1, (perm_maps f' h1 h2).2, by rw [e]; simp⟩

/-- Different positions hold different offsets. -/
def Distinct (n : Nat) (c : Sorter) : Prop :=
  ∀ p q, p < n → q < n → c.idxAt p = c.idxAt q → p = q

theorem Rearranged.distinct {n lo stop : Nat} {c c' : Sorter} (h : Rearranged n lo stop c c')
    (hs : stop ≤ n) (d : Distinct n c) : Distinct n c' := by
  obtain ⟨σ, f, e⟩ := h.perm
  have bound : ∀ p, p < n → σ p < n := by
    intro p hp
    by_cases hin : lo ≤ p ∧ p < stop
    · have := perm_maps f hin.1 hin.2; omega
    · rw [f p (by omega)]; exact hp
  intro p q hp hq he
  rw [e, e] at he
  exact σ.injective (d _ _ (bound p hp) (bound q hq) he)

/-- The candidates of a range agree on their first `d` bytes (R150). -/
def Agree (c : Sorter) (lo stop d : Nat) : Prop :=
  ∀ p q, lo ≤ p → p < stop → lo ≤ q → q < stop → ∀ j, j < d →
    c.dbAt ((c.idxAt p).toNat + j) = c.dbAt ((c.idxAt q).toNat + j)

theorem Rearranged.agree {n lo stop d : Nat} {c c' : Sorter} (h : Rearranged n lo stop c c')
    (a : Agree c lo stop d) : Agree c' lo stop d := by
  intro p q p1 p2 q1 q2 j hj
  obtain ⟨p', hp1, hp2, hp⟩ := h.source p1 p2
  obtain ⟨q', hq1, hq2, hq⟩ := h.source q1 q2
  rw [hp, hq, h.dbAt_eq, h.dbAt_eq]
  exact a p' q' hp1 hp2 hq1 hq2 j hj

/-! ## Swap -/

theorem insertCell_cellsFrom {α : Type} (vs : List α) (start k : Nat) (v : α) (h : k < vs.length) :
    insertCell (cellsFrom start vs) (start + k) v = cellsFrom start (vs.set k v) := by
  induction vs generalizing start k with
  | nil => simp at h
  | cons u rest ih =>
    cases k with
    | zero => simp [cellsFrom, insertCell]
    | succ k =>
      simp only [cellsFrom, insertCell, List.set_cons_succ]
      rw [if_neg (by omega), if_neg (by omega), show start + (k + 1) = (start + 1) + k by omega,
        ih (start + 1) k (by simpa using h)]

theorem idxAt_swap (c : Sorter) (p q j : Nat) :
    (c.swap p q).idxAt j = if j = q then c.idxAt p else if j = p then c.idxAt q else c.idxAt j := by
  simp only [Sorter.swap, Sorter.idxAt, wordOr_set]

theorem swap_rearranged {n lo stop p q : Nat} (c : Sorter) (hs : stop ≤ n) (p1 : lo ≤ p) (p2 : p < stop)
    (q1 : lo ≤ q) (q2 : q < stop) : Rearranged n lo stop c (c.swap p q) where
  db := rfl
  work := rfl
  gen := rfl
  dense := by
    rintro ⟨offs, he, hl⟩
    refine ⟨(offs.set p (c.idxAt q)).set q (c.idxAt p), ?_, by simp [hl]⟩
    simp only [Sorter.swap, Memory.set, he]
    have h1 := insertCell_cellsFrom offs 0 p (c.idxAt q) (by omega)
    rw [Nat.zero_add] at h1
    rw [h1]
    have h2 := insertCell_cellsFrom (offs.set p (c.idxAt q)) 0 q (c.idxAt p) (by simp; omega)
    rw [Nat.zero_add] at h2
    exact h2
  perm := by
    refine ⟨Equiv.swap p q, ?_, ?_⟩
    · intro j hj
      exact Equiv.swap_apply_of_ne_of_ne (by omega) (by omega)
    · intro j
      rw [idxAt_swap]
      by_cases hq : j = q
      · subst hq; simp
      · by_cases hp : j = p
        · subst hp; simp [hq]
        · simp [hq, hp, Equiv.swap_apply_of_ne_of_ne hp hq]

/-! ## SmallSort and OffsetSort -/

/-- The positions from `lo` up to, not including, `stop` are in key order. -/
def InOrder (n : Nat) (c : Sorter) (lo stop : Nat) : Prop :=
  ∀ p q, lo ≤ p → p < q → q < stop → KeyBefore n c (c.idxAt p).toNat (c.idxAt q).toNat

theorem idxAt_toNat_ne {n : Nat} {c : Sorter} (d : Distinct n c) {p q : Nat} (hp : p < n) (hq : q < n)
    (hne : p ≠ q) : (c.idxAt p).toNat ≠ (c.idxAt q).toNat :=
  fun h => hne (d p q hp hq (BitVec.eq_of_toNat_eq h))

theorem sink_spec {n lo d stop : Nat} (hd : d ≤ n) (hs : stop ≤ n) :
    ∀ (steps : Nat) (c : Sorter), lo + steps < stop → Distinct n c → Agree c lo stop d →
      InOrder n c lo (lo + steps) →
      Rearranged n lo (lo + steps + 1) c (Sorter.sink n lo d steps c) ∧
        InOrder n (Sorter.sink n lo d steps c) lo (lo + steps + 1) := by
  intro steps
  induction steps with
  | zero =>
    intro c _ _ _ _
    refine ⟨.refl _ _ _ _, ?_⟩
    intro p q h1 h2 h3; simp only [Nat.add_zero] at h3; omega
  | succ m ih =>
    intro c hlt hdist hagree hord
    have hbytes : ∀ j, j < d → c.dbAt ((c.idxAt (lo + m + 1)).toNat + j) = c.dbAt ((c.idxAt (lo + m)).toNat + j) :=
      hagree (lo + m + 1) (lo + m) (by omega) (by omega) (by omega) (by omega)
    simp only [Sorter.sink]
    split
    · rename_i hless
      rw [less_iff hd hbytes] at hless
      have hsw : Rearranged n lo (lo + m + 2) c (c.swap (lo + m + 1) (lo + m)) :=
        swap_rearranged c (by omega) (by omega) (by omega) (by omega) (by omega)
      have hsw' : Rearranged n lo stop c (c.swap (lo + m + 1) (lo + m)) := hsw.mono (Nat.le_refl _) (by omega)
      have hord' : InOrder n (c.swap (lo + m + 1) (lo + m)) lo (lo + m) := by
        intro p q h1 h2 h3
        rw [idxAt_swap, idxAt_swap, if_neg (by omega), if_neg (by omega), if_neg (by omega), if_neg (by omega),
          KeyBefore.congr hsw.dbAt_eq]
        exact hord p q h1 h2 (by omega)
      obtain ⟨hre, hin⟩ := ih _ (by omega) (hsw'.distinct hs hdist) (hsw'.agree hagree) hord'
      refine ⟨hsw.trans (hre.mono (Nat.le_refl _) (by omega)), ?_⟩
      intro p q h1 h2 h3
      by_cases hq : q < lo + m + 1
      · exact hin p q h1 h2 hq
      · have hq' : q = lo + (m + 1) := by omega
        subst hq'
        rw [hre.outside (p := lo + (m + 1)) (by omega)]
        obtain ⟨r, hr1, hr2, hr⟩ := hre.source (p := p) h1 (by omega)
        have hdb : ∀ k, (Sorter.sink n lo d m (c.swap (lo + m + 1) (lo + m))).dbAt k = c.dbAt k :=
          fun k => (hre.dbAt_eq k).trans (hsw.dbAt_eq k)
        have hlast : (c.swap (lo + m + 1) (lo + m)).idxAt (lo + (m + 1)) = c.idxAt (lo + m) := by
          rw [idxAt_swap, if_neg (by omega), if_pos (by omega)]
        rw [hr, KeyBefore.congr hdb, hlast, idxAt_swap]
        by_cases hrm : r = lo + m
        · rw [if_pos hrm]; exact hless
        · rw [if_neg hrm, if_neg (by omega)]
          exact hord r (lo + m) (by omega) (by omega) (by omega)
    · rename_i hnless
      rw [less_iff hd hbytes] at hnless
      have hkey : KeyBefore n c (c.idxAt (lo + m)).toNat (c.idxAt (lo + m + 1)).toNat :=
        (KeyBefore.total (idxAt_toNat_ne hdist (p := lo + m) (q := lo + m + 1) (by omega) (by omega) (by omega))).resolve_right
          hnless
      refine ⟨.refl _ _ _ _, ?_⟩
      intro p q h1 h2 h3
      by_cases hq : q < lo + (m + 1)
      · exact hord p q h1 h2 hq
      · have hq' : q = lo + m + 1 := by omega
        subst hq'
        by_cases hp : p = lo + m
        · subst hp; exact hkey
        · exact (hord p (lo + m) h1 (by omega) (by omega)).trans hkey

/-- `SmallSort` puts its range in key order (R157). -/
theorem smallSort_spec {n lo hi d : Nat} {c : Sorter} (hd : d ≤ n) (hlo : lo ≤ hi) (hhi : hi < n)
    (hdist : Distinct n c) (hagree : Agree c lo (hi + 1) d) :
    Rearranged n lo (hi + 1) c (c.smallSort n lo hi d) ∧ InOrder n (c.smallSort n lo hi d) lo (hi + 1) := by
  have key : ∀ m, lo + m ≤ hi →
      Rearranged n lo (hi + 1) c ((List.range m).foldl (fun c i => Sorter.sink n lo d (i + 1) c) c) ∧
        InOrder n ((List.range m).foldl (fun c i => Sorter.sink n lo d (i + 1) c) c) lo (lo + m + 1) := by
    intro m
    induction m with
    | zero =>
      intro _
      exact ⟨.refl _ _ _ _, fun p q h1 h2 h3 => by simp only [Nat.add_zero] at h3; omega⟩
    | succ m ih =>
      intro hm
      obtain ⟨hre, hin⟩ := ih (by omega)
      rw [List.range_succ, List.foldl_append]
      simp only [List.foldl_cons, List.foldl_nil]
      have hs := sink_spec (stop := hi + 1) hd (by omega) (m + 1) _ (by omega) (hre.distinct (by omega) hdist)
        (hre.agree hagree) (by simpa [Nat.add_assoc] using hin)
      exact ⟨hre.trans (hs.1.mono (Nat.le_refl _) (by omega)), hs.2⟩
  have := key (hi - lo) (by omega)
  rw [show lo + (hi - lo) + 1 = hi + 1 by omega] at this
  exact this

/-! ## Partition -/

/-- `Partition` splits its range by the byte at depth `d` (R155). -/
theorem partitionLoop_spec {n lo stop d : Nat} {v : Byte} (hs : stop ≤ n) :
    ∀ (todo lt i : Nat) (c : Sorter), lo ≤ lt → lt ≤ i → i + todo ≤ stop →
      (∀ p, lo ≤ p → p < lt → (c.byteAt p d).toNat < v.toNat) →
      (∀ p, lt ≤ p → p < i → c.byteAt p d = v) →
      (∀ p, i + todo ≤ p → p < stop → v.toNat < (c.byteAt p d).toNat) →
      ∀ c' lt' i', Sorter.partitionLoop v d todo lt i c = (c', lt', i') →
        Rearranged n lo stop c c' ∧ lo ≤ lt' ∧ lt' ≤ i' ∧ i' ≤ stop ∧
          (∀ p, lo ≤ p → p < lt' → (c'.byteAt p d).toNat < v.toNat) ∧
          (∀ p, lt' ≤ p → p < i' → c'.byteAt p d = v) ∧
          (∀ p, i' ≤ p → p < stop → v.toNat < (c'.byteAt p d).toNat) := by
  intro todo
  induction todo with
  | zero =>
    intro lt i c h1 h2 h3 hless heq hgt c' lt' i' he
    simp only [Sorter.partitionLoop, Prod.mk.injEq] at he
    obtain ⟨rfl, rfl, rfl⟩ := he
    exact ⟨.refl _ _ _ _, h1, h2, by omega, hless, heq, by simpa using hgt⟩
  | succ m ih =>
    intro lt i c h1 h2 h3 hless heq hgt c' lt' i' he
    simp only [Sorter.partitionLoop] at he
    have swByte : ∀ a b p, (c.swap a b).byteAt p d =
        if p = b then c.byteAt a d else if p = a then c.byteAt b d else c.byteAt p d := by
      intro a b p
      simp only [Sorter.byteAt, idxAt_swap]
      split
      · rfl
      · split <;> rfl
    split at he
    · rename_i hlt
      have hsw : Rearranged n lo stop c (c.swap lt i) :=
        swap_rearranged c hs (by omega) (by omega) (by omega) (by omega)
      obtain ⟨hre, rest⟩ := ih (lt + 1) (i + 1) (c.swap lt i) (by omega) (by omega) (by omega)
        (by
          intro p p1 p2
          rw [swByte]
          by_cases hpi : p = i
          · have : lt = i := by omega
            rw [if_pos hpi, this]; exact hlt
          · rw [if_neg hpi]
            by_cases hpl : p = lt
            · rw [if_pos hpl]; exact hlt
            · rw [if_neg hpl]; exact hless p p1 (by omega))
        (by
          intro p p1 p2
          rw [swByte]
          by_cases hpi : p = i
          · rw [if_pos hpi]; exact heq lt (Nat.le_refl _) (by omega)
          · rw [if_neg hpi, if_neg (by omega)]; exact heq p (by omega) (by omega))
        (by
          intro p p1 p2
          rw [swByte, if_neg (by omega), if_neg (by omega)]
          exact hgt p (by omega) p2)
        c' lt' i' he
      exact ⟨hsw.trans hre, rest⟩
    · rename_i hnlt
      split at he
      · rename_i hgt'
        have hsw : Rearranged n lo stop c (c.swap i (i + m)) :=
          swap_rearranged c hs (by omega) (by omega) (by omega) (by omega)
        obtain ⟨hre, rest⟩ := ih lt i (c.swap i (i + m)) h1 h2 (by omega)
          (by
            intro p p1 p2
            rw [swByte, if_neg (by omega), if_neg (by omega)]
            exact hless p p1 p2)
          (by
            intro p p1 p2
            rw [swByte, if_neg (by omega), if_neg (by omega)]
            exact heq p p1 p2)
          (by
            intro p p1 p2
            rw [swByte]
            by_cases hpm : p = i + m
            · rw [if_pos hpm]; exact hgt'
            · rw [if_neg hpm, if_neg (by omega)]
              exact hgt p (by omega) p2)
          c' lt' i' he
        exact ⟨hsw.trans hre, rest⟩
      · rename_i hngt
        exact ih lt (i + 1) c h1 (by omega) (by omega) hless
          (by
            intro p p1 p2
            by_cases hpi : p = i
            · subst hpi; exact BitVec.eq_of_toNat_eq (by omega)
            · exact heq p p1 (by omega))
          (by intro p p1 p2; exact hgt p (by omega) p2)
          c' lt' i' he

/-- The pivot is the byte of a candidate of the range (R154). -/
theorem pivot_mem (c : Sorter) {lo hi d : Nat} (h : lo ≤ hi) :
    ∃ p, lo ≤ p ∧ p ≤ hi ∧ c.byteAt p d = c.pivot lo hi d := by
  have pick : ∀ a b e : Byte, byteMax (byteMin a b) (byteMin (byteMax a b) e) = a ∨
      byteMax (byteMin a b) (byteMin (byteMax a b) e) = b ∨
      byteMax (byteMin a b) (byteMin (byteMax a b) e) = e := by
    intro a b e
    have hmin : ∀ x y : Byte, byteMin x y = x ∨ byteMin x y = y := by
      intro x y; unfold byteMin; split <;> simp
    have hmax : ∀ x y : Byte, byteMax x y = x ∨ byteMax x y = y := by
      intro x y; unfold byteMax; split <;> simp
    rcases hmax (byteMin a b) (byteMin (byteMax a b) e) with h | h <;> rw [h]
    · rcases hmin a b with h | h <;> rw [h] <;> simp
    · rcases hmin (byteMax a b) e with h | h <;> rw [h]
      · rcases hmax a b with h | h <;> rw [h] <;> simp
      · simp
  rcases pick (c.byteAt lo d) (c.byteAt (lo + (hi - lo) / 2) d) (c.byteAt hi d) with hp | hp | hp
  · exact ⟨lo, Nat.le_refl _, h, hp.symm⟩
  · exact ⟨lo + (hi - lo) / 2, by omega, by omega, hp.symm⟩
  · exact ⟨hi, h, Nat.le_refl _, hp.symm⟩

end Sys2Proof.Machine
end

