-- ==== Sys2Proof/Laws/SortRun.lean ====
section
/-! SUPPORT. The work stack of the sort: its invariant, its bound and the end of the run (rules R156, R160, R163). -/

namespace Sys2Proof.Machine

/-! ## Partition as a whole -/

/-- `Partition` by its pivot leaves a non-empty equal part (R155). -/
theorem partition_spec {n lo hi d : Nat} {c : Sorter} (hlo : lo ≤ hi) (hhi : hi < n) {c' : Sorter} {lt stop : Nat}
    (he : c.partition lo hi d (c.pivot lo hi d) = (c', lt, stop)) :
    Rearranged n lo (hi + 1) c c' ∧ lo ≤ lt ∧ lt < stop ∧ stop ≤ hi + 1 ∧
      (∀ p, lo ≤ p → p < lt → (c'.byteAt p d).toNat < (c.pivot lo hi d).toNat) ∧
      (∀ p, lt ≤ p → p < stop → c'.byteAt p d = c.pivot lo hi d) ∧
      (∀ p, stop ≤ p → p < hi + 1 → (c.pivot lo hi d).toNat < (c'.byteAt p d).toNat) := by
  unfold Sorter.partition at he
  obtain ⟨hre, h1, h2, h3, hless, heq, hgt⟩ :=
    partitionLoop_spec (n := n) (lo := lo) (stop := hi + 1) (by omega) (hi - lo + 1) lo lo c (Nat.le_refl _)
      (Nat.le_refl _) (by omega) (fun p p1 p2 => by omega) (fun p p1 p2 => by omega)
      (fun p p1 p2 => by omega) c' lt stop he
  refine ⟨hre, h1, ?_, h3, hless, heq, hgt⟩
  obtain ⟨q, q1, q2, hq⟩ := pivot_mem c (d := d) hlo
  obtain ⟨p, p1, p2, hp⟩ := hre.target q1 (show q < hi + 1 by omega)
  have hb : c'.byteAt p d = c.pivot lo hi d := by
    rw [← hq]; simp only [Sorter.byteAt, hp, hre.dbAt_eq]
  by_contra hno
  rcases Nat.lt_or_ge p lt with hp1 | hp1
  · have := hless p p1 hp1; rw [hb] at this; omega
  · have := hgt p (by omega) p2; rw [hb] at this; omega

/-! ## The invariant of the work stack -/

/-- What holds of the sorter between two pops: IDX is a rearrangement of the offsets, the pending ranges lie one
after the other, and two positions that share no pending range are in key order already (R150, R160). -/
structure RunInv (n : Nat) (c : Sorter) : Prop where
  distinct : Distinct n c
  ranges : ∀ r ∈ c.work, r.lo < r.hi ∧ r.hi < n ∧ r.depth ≤ n ∧ Agree c r.lo (r.hi + 1) r.depth
  apart : c.work.Pairwise (fun r s => r.hi < s.lo)
  ordered : ∀ p q, p < q → q < n →
    KeyBefore n c (c.idxAt p).toNat (c.idxAt q).toNat ∨ ∃ r ∈ c.work, r.lo ≤ p ∧ q ≤ r.hi

theorem RunInv.congr {n : Nat} {c c' : Sorter} (hdb : ∀ k, c'.dbAt k = c.dbAt k)
    (hidx : ∀ p, c'.idxAt p = c.idxAt p) (hw : c'.work = c.work) (h : RunInv n c) : RunInv n c' where
  distinct := fun p q hp hq he => h.distinct p q hp hq (by rw [← hidx, ← hidx]; exact he)
  ranges := by
    intro r hr
    rw [hw] at hr
    obtain ⟨h1, h2, h3, h4⟩ := h.ranges r hr
    refine ⟨h1, h2, h3, ?_⟩
    intro p q p1 p2 q1 q2 j hj
    rw [hidx, hidx, hdb, hdb]
    exact h4 p q p1 p2 q1 q2 j hj
  apart := by rw [hw]; exact h.apart
  ordered := by
    intro p q hpq hq
    rw [hidx, hidx, hw, KeyBefore.congr hdb]
    exact h.ordered p q hpq hq

/-- The step on a popped range `r`, in terms of what happened to its positions and of the ranges `new` it left. -/
theorem runInv_step {n : Nat} {c c' : Sorter} {r : SortRange} {rest new : List SortRange}
    (h : RunInv n c) (hw : c.work = r :: rest) (hre : Rearranged n r.lo (r.hi + 1) c c')
    (hnew : ∀ s ∈ new, r.lo ≤ s.lo ∧ s.lo < s.hi ∧ s.hi ≤ r.hi ∧ s.depth ≤ n ∧
      Agree c' s.lo (s.hi + 1) s.depth)
    (hapart : new.Pairwise (fun r s => r.hi < s.lo))
    (hin : ∀ p q, r.lo ≤ p → p < q → q ≤ r.hi →
      KeyBefore n c' (c'.idxAt p).toNat (c'.idxAt q).toNat ∨ ∃ s ∈ new, s.lo ≤ p ∧ q ≤ s.hi) :
    RunInv n { c' with work := new ++ rest } := by
  have hr := h.ranges r (by rw [hw]; exact List.mem_cons_self)
  have hap := h.apart
  rw [hw, List.pairwise_cons] at hap
  have hdb : ∀ k, c'.dbAt k = c.dbAt k := hre.dbAt_eq
  have hrest : ∀ s ∈ rest, ∀ p, s.lo ≤ p → p ≤ s.hi → c'.idxAt p = c.idxAt p := by
    intro s hs p p1 p2
    have := hap.1 s hs
    exact hre.outside (.inr (by omega))
  have main : RunInv n { c' with work := new ++ rest } := by
    refine ⟨hre.distinct (by omega) h.distinct, ?_, ?_, ?_⟩
    · intro s hs
      rcases List.mem_append.mp hs with hs | hs
      · obtain ⟨h1, h2, h3, h4, h5⟩ := hnew s hs
        exact ⟨h2, by omega, h4, h5⟩
      · have hold := h.ranges s (by rw [hw]; exact List.mem_cons_of_mem _ hs)
        refine ⟨hold.1, hold.2.1, hold.2.2.1, ?_⟩
        intro p q p1 p2 q1 q2 j hj
        have ep := hrest s hs p p1 (by omega)
        have eq := hrest s hs q q1 (by omega)
        have := hold.2.2.2 p q p1 p2 q1 q2 j hj
        show c'.dbAt ((c'.idxAt p).toNat + j) = c'.dbAt ((c'.idxAt q).toNat + j)
        rw [ep, eq, hdb, hdb]
        exact this
    · rw [List.pairwise_append]
      refine ⟨hapart, hap.2, ?_⟩
      intro a ha b hb
      have h1 := (hnew a ha).2.2.1
      have h2 := hap.1 b hb
      omega
    · intro p q hpq hq
      show KeyBefore n c' (c'.idxAt p).toNat (c'.idxAt q).toNat ∨ ∃ s ∈ new ++ rest, s.lo ≤ p ∧ q ≤ s.hi
      have lift : ∀ {p q : Nat}, KeyBefore n c p q → KeyBefore n c' p q :=
        fun hk => (KeyBefore.congr hdb).mpr hk
      by_cases hpin : r.lo ≤ p ∧ p ≤ r.hi
      · by_cases hqin : q ≤ r.hi
        · rcases hin p q hpin.1 hpq hqin with hk | ⟨s, hs, hs'⟩
          · exact .inl hk
          · exact .inr ⟨s, List.mem_append_left _ hs, hs'⟩
        · obtain ⟨p', p1, p2, hp'⟩ := hre.source hpin.1 (show p < r.hi + 1 by omega)
          rw [hp', hre.outside (p := q) (by omega)]
          rcases h.ordered p' q (by omega) hq with hk | ⟨s, hs, s1, s2⟩
          · exact .inl (lift hk)
          · rw [hw] at hs
            rcases List.mem_cons.mp hs with rfl | hs
            · omega
            · have := hap.1 s hs; omega
      · by_cases hqin : r.lo ≤ q ∧ q ≤ r.hi
        · obtain ⟨q', q1, q2, hq'⟩ := hre.source hqin.1 (show q < r.hi + 1 by omega)
          rw [hq', hre.outside (p := p) (by omega)]
          rcases h.ordered p q' (by omega) (by omega) with hk | ⟨s, hs, s1, s2⟩
          · exact .inl (lift hk)
          · rw [hw] at hs
            rcases List.mem_cons.mp hs with rfl | hs
            · omega
            · have := hap.1 s hs; omega
        · rw [hre.outside (p := p) (by omega), hre.outside (p := q) (by omega)]
          rcases h.ordered p q hpq hq with hk | ⟨s, hs, s1, s2⟩
          · exact .inl (lift hk)
          · rw [hw] at hs
            rcases List.mem_cons.mp hs with rfl | hs
            · omega
            · exact .inr ⟨s, List.mem_append_right _ hs, s1, s2⟩
  exact main

/-- The weight of a pending range (R156). -/
def rangeWeight (n : Nat) (r : SortRange) : Nat := (r.hi - r.lo + 1) * (n + 1 - r.depth)

/-- The weight of the work stack. -/
def workWeight (n : Nat) (work : List SortRange) : Nat := (work.map (rangeWeight n)).sum

theorem mem_pushRange {lo stop d : Nat} {s : SortRange}
    (h : s ∈ pushRange lo stop d []) : lo + 1 < stop ∧ s = { lo := lo, hi := stop - 1, depth := d } := by
  unfold pushRange at h
  split at h
  · exact ⟨‹_›, by simpa using h⟩
  · simp at h

theorem pushRange_eq_append (lo stop d : Nat) (work : List SortRange) :
    pushRange lo stop d work = pushRange lo stop d [] ++ work := by
  unfold pushRange; split <;> simp

theorem weight_pushRange (n lo stop d : Nat) :
    workWeight n (pushRange lo stop d []) ≤ (stop - lo) * (n + 1 - d) := by
  unfold pushRange
  split
  · simp only [workWeight, List.map_cons, List.map_nil, List.sum_cons, List.sum_nil, rangeWeight, Nat.add_zero]
    exact Nat.mul_le_mul_right _ (by omega)
  · simp [workWeight]

/-- What one pop does (R153): the ranges it leaves, and that the weight of the stack falls. -/
theorem sortStep_spec {cutoff n : Nat} {c : Sorter} {r : SortRange} {rest : List SortRange} (h : RunInv n c)
    (hw : c.work = r :: rest) :
    ∃ c' new, Sorter.sortStep cutoff n r { c with work := rest } = { c' with work := new ++ rest } ∧
      Rearranged n r.lo (r.hi + 1) c c' ∧ RunInv n { c' with work := new ++ rest } ∧
      workWeight n new < rangeWeight n r := by
  obtain ⟨hlt, hhi, hd, hagree⟩ := h.ranges r (by rw [hw]; exact List.mem_cons_self)
  have base : Rearranged n 0 0 { c with work := rest } { c with work := rest } := .refl _ _ _ _
  have hpos : 0 < rangeWeight n r := Nat.mul_pos (by omega) (by omega)
  -- a rearrangement of the popped state is one of `c`
  have back : ∀ {t : Sorter}, Rearranged n r.lo (r.hi + 1) { c with work := rest } t →
      Rearranged n r.lo (r.hi + 1) c { t with work := c.work } ∧ t.work = rest :=
    fun hre => ⟨⟨hre.db, rfl, hre.gen, hre.dense, hre.perm⟩, hre.work⟩
  have hdist : Distinct n { c with work := rest } := h.distinct
  have hag : Agree { c with work := rest } r.lo (r.hi + 1) r.depth := hagree
  -- the two direct sorts
  have direct : ∀ d, d ≤ n → Agree { c with work := rest } r.lo (r.hi + 1) d →
      ∃ c' new, Sorter.smallSort n r.lo r.hi d { c with work := rest } = { c' with work := new ++ rest } ∧
        Rearranged n r.lo (r.hi + 1) c c' ∧ RunInv n { c' with work := new ++ rest } ∧
        workWeight n new < rangeWeight n r := by
    intro d hdn hagd
    obtain ⟨hre, hord⟩ := smallSort_spec (c := { c with work := rest }) hdn (by omega) hhi hdist hagd
    generalize hgen : Sorter.smallSort n r.lo r.hi d { c with work := rest } = t at hre hord
    obtain ⟨hback, hwork⟩ := back hre
    refine ⟨{ t with work := c.work }, [], ?_, hback, ?_, by simpa [workWeight] using hpos⟩
    · simp [← hwork]
    · have := runInv_step (new := []) h hw hback (by simp) List.Pairwise.nil (by
        intro p q p1 p2 p3
        exact .inl (hord p q p1 p2 (by omega)))
      exact this
  unfold Sorter.sortStep
  rw [if_neg (by omega)]
  split
  · rename_i hn
    have : r.depth = n := by omega
    exact direct n (Nat.le_refl _) (by rw [← this]; exact hag)
  · rename_i hdn
    split
    · exact direct r.depth hd hag
    · generalize hpart : Sorter.partition { c with work := rest } r.lo r.hi r.depth
        (Sorter.pivot { c with work := rest } r.lo r.hi r.depth) = out
      obtain ⟨t, lt, stop⟩ := out
      obtain ⟨hre, h1, h2, h3, hless, heq, hgt⟩ := partition_spec (n := n) (by omega) hhi hpart
      generalize Sorter.pivot { c with work := rest } r.lo r.hi r.depth = v at *
      obtain ⟨hback, hwork⟩ := back hre
      have hagt : Agree t r.lo (r.hi + 1) r.depth := hre.agree hag
      let new := pushRange r.lo lt r.depth [] ++
        (pushRange lt stop (r.depth + 1) [] ++ pushRange stop (r.hi + 1) r.depth [])
      refine ⟨{ t with work := c.work }, new, ?_, hback, ?_, ?_⟩
      · simp only [hpart]
        rw [pushRange_eq_append r.lo, pushRange_eq_append lt, pushRange_eq_append stop]
        simp [new, hwork, List.append_assoc]
      · refine runInv_step (new := new) h hw hback ?_ ?_ ?_
        · intro s hs
          simp only [new, List.mem_append] at hs
          rcases hs with hs | hs | hs
          · obtain ⟨g, rfl⟩ := mem_pushRange hs
            refine ⟨by simp, by simp; omega, by simp; omega, hd, ?_⟩
            intro p q p1 p2 q1 q2 j hj
            exact hagt p q p1 (by simp at p2; omega) q1 (by simp at q2; omega) j hj
          · obtain ⟨g, rfl⟩ := mem_pushRange hs
            refine ⟨by simp; omega, by simp; omega, by simp; omega, by simp; omega, ?_⟩
            intro p q p1 p2 q1 q2 j hj
            simp only at p1 p2 q1 q2 hj
            by_cases hjd : j < r.depth
            · exact hagt p q (by omega) (by omega) (by omega) (by omega) j hjd
            · have hj' : j = r.depth := by omega
              subst hj'
              exact (heq p p1 (by omega)).trans (heq q q1 (by omega)).symm
          · obtain ⟨g, rfl⟩ := mem_pushRange hs
            refine ⟨by simp; omega, by simp; omega, by simp, hd, ?_⟩
            intro p q p1 p2 q1 q2 j hj
            simp only at p1 p2 q1 q2 hj
            exact hagt p q (by omega) (by omega) (by omega) (by omega) j hj
        · simp only [new, List.pairwise_append]
          have single : ∀ a b e, (pushRange a b e []).Pairwise (fun r s => r.hi < s.lo) := by
            intro a b e; unfold pushRange; split <;> simp
          refine ⟨single _ _ _, ⟨single _ _ _, single _ _ _, ?_⟩, ?_⟩
          · intro a ha b hb
            obtain ⟨_, rfl⟩ := mem_pushRange ha
            obtain ⟨_, rfl⟩ := mem_pushRange hb
            simp; omega
          · intro a ha b hb
            obtain ⟨_, rfl⟩ := mem_pushRange ha
            rcases List.mem_append.mp hb with hb | hb
            · obtain ⟨_, rfl⟩ := mem_pushRange hb
              simp; omega
            · obtain ⟨_, rfl⟩ := mem_pushRange hb
              simp; omega
        · intro p q p1 pq q2
          have keyOf : (∀ j, j < r.depth → t.dbAt ((t.idxAt p).toNat + j) = t.dbAt ((t.idxAt q).toNat + j)) →
              (t.byteAt p r.depth).toNat < (t.byteAt q r.depth).toNat →
              KeyBefore n t (t.idxAt p).toNat (t.idxAt q).toNat :=
            fun ha hl => .inl ⟨r.depth, by omega, ha, hl⟩
          have hag' := hagt p q p1 (by omega) (by omega) (by omega)
          have here : ∀ {s : SortRange}, s ∈ new → s.lo ≤ p → q ≤ s.hi →
              KeyBefore n t (t.idxAt p).toNat (t.idxAt q).toNat ∨ ∃ s ∈ new, s.lo ≤ p ∧ q ≤ s.hi :=
            fun hs a b => .inr ⟨_, hs, a, b⟩
          have memPush : ∀ {a b e : Nat}, a + 1 < b →
              ({ lo := a, hi := b - 1, depth := e } : SortRange) ∈ pushRange a b e [] := by
            intro a b e hab; unfold pushRange; rw [if_pos hab]; simp
          show KeyBefore n t (t.idxAt p).toNat (t.idxAt q).toNat ∨ ∃ s ∈ new, s.lo ≤ p ∧ q ≤ s.hi
          by_cases hq1 : q < lt
          · exact here (List.mem_append_left _ (memPush (b := lt) (by omega))) p1 (by simp; omega)
          · by_cases hp1 : p < lt
            · left
              refine keyOf hag' ?_
              have a := hless p p1 hp1
              by_cases hq3 : q < stop
              · rw [heq q (by omega) hq3]; exact a
              · have b := hgt q (by omega) (by omega); omega
            · by_cases hq3 : q < stop
              · exact here (List.mem_append_right _ (List.mem_append_left _ (memPush (b := stop) (by omega))))
                  (by simp; omega) (by simp; omega)
              · by_cases hp3 : p < stop
                · left
                  refine keyOf hag' ?_
                  rw [heq p (by omega) hp3]
                  exact hgt q (by omega) (by omega)
                · exact here (List.mem_append_right _ (List.mem_append_right _
                    (memPush (b := r.hi + 1) (by omega)))) (by simp; omega) (by simp; omega)
      · have split3 : workWeight n new ≤ (lt - r.lo) * (n + 1 - r.depth) +
            ((stop - lt) * (n + 1 - (r.depth + 1)) + (r.hi + 1 - stop) * (n + 1 - r.depth)) := by
          simp only [new, workWeight, List.map_append, List.sum_append]
          have a := weight_pushRange n r.lo lt r.depth
          have b := weight_pushRange n lt stop (r.depth + 1)
          have d := weight_pushRange n stop (r.hi + 1) r.depth
          simp only [workWeight] at a b d
          omega
        have hW : n + 1 - (r.depth + 1) < n + 1 - r.depth := by omega
        have hmid : (stop - lt) * (n + 1 - (r.depth + 1)) < (stop - lt) * (n + 1 - r.depth) :=
          Nat.mul_lt_mul_of_pos_left hW (by omega)
        have hsum : (lt - r.lo) * (n + 1 - r.depth) + ((stop - lt) * (n + 1 - r.depth) +
            (r.hi + 1 - stop) * (n + 1 - r.depth)) = rangeWeight n r := by
          rw [← Nat.add_mul, ← Nat.add_mul, rangeWeight]
          congr 1
          omega
        omega

theorem workWeight_append (n : Nat) (a b : List SortRange) :
    workWeight n (a ++ b) = workWeight n a + workWeight n b := by
  simp [workWeight]

/-- What a run of the sort leaves: a rearrangement of the offsets, with the invariant, and with an empty stack
when the pops were enough (R156, R160). -/
theorem sortRun_spec {cutoff n : Nat} : ∀ (pops : Nat) (c : Sorter), RunInv n c →
    (∃ σ : Equiv.Perm ℕ, (∀ p, n ≤ p → σ p = p) ∧
      ∀ p, (Sorter.sortRun cutoff n pops c).idxAt p = c.idxAt (σ p)) ∧
    (Sorter.sortRun cutoff n pops c).db = c.db ∧
    (Sorter.sortRun cutoff n pops c).idx.gen = c.idx.gen ∧
    (Dense n c → Dense n (Sorter.sortRun cutoff n pops c)) ∧
    RunInv n (Sorter.sortRun cutoff n pops c) ∧
    (workWeight n c.work ≤ pops → (Sorter.sortRun cutoff n pops c).work = []) := by
  intro pops
  induction pops with
  | zero =>
    intro c h
    refine ⟨⟨Equiv.refl _, fun _ _ => rfl, fun _ => rfl⟩, rfl, rfl, id, h, ?_⟩
    intro hle
    show c.work = []
    cases hw : c.work with
    | nil => rfl
    | cons r rest =>
      exfalso
      obtain ⟨hlt, hhi, hd, _⟩ := h.ranges r (by rw [hw]; exact List.mem_cons_self)
      have hpos : 0 < rangeWeight n r := Nat.mul_pos (by omega) (by omega)
      rw [hw] at hle
      simp [workWeight] at hle
      omega
  | succ pops ih =>
    intro c h
    cases hw : c.work with
    | nil =>
      have e : Sorter.sortRun cutoff n (pops + 1) c = c := by simp [Sorter.sortRun, hw]
      rw [e]
      exact ⟨⟨Equiv.refl _, fun _ _ => rfl, fun _ => rfl⟩, rfl, rfl, id, h, fun _ => hw⟩
    | cons r rest =>
      obtain ⟨c', new, hstep, hre, hinv, hweight⟩ := sortStep_spec (cutoff := cutoff) h hw
      have e : Sorter.sortRun cutoff n (pops + 1) c =
          Sorter.sortRun cutoff n pops { c' with work := new ++ rest } := by
        simp [Sorter.sortRun, hw, hstep]
      obtain ⟨⟨τ, ft, et⟩, hdb, hgen, hdense, hinv', hend⟩ := ih _ hinv
      obtain ⟨σ, fs, es⟩ := hre.perm
      have hhi := (h.ranges r (by rw [hw]; exact List.mem_cons_self)).2.1
      rw [e]
      refine ⟨⟨τ.trans σ, ?_, ?_⟩, hdb.trans hre.db, hgen.trans hre.gen, fun d => hdense (hre.dense d), hinv', ?_⟩
      · intro p hp; simp only [Equiv.trans_apply]; rw [ft p hp, fs p (by omega)]
      · intro p
        rw [et]
        exact es (τ p)
      · intro hle
        apply hend
        rw [workWeight_append]
        simp only [workWeight, List.map_cons, List.sum_cons] at hle hweight ⊢
        omega

/-- The pending ranges are disjoint and of at least two positions each, so there are at most `floor(n/2)` of them
(R160). -/
theorem RunInv.work_bound {n : Nat} {c : Sorter} (h : RunInv n c) : c.work.length ≤ n / 2 := by
  have key : ∀ (work : List SortRange) (a : Nat), a ≤ n → (∀ r ∈ work, a ≤ r.lo ∧ r.lo < r.hi ∧ r.hi < n) →
      work.Pairwise (fun r s => r.hi < s.lo) → 2 * work.length + a ≤ n := by
    intro work
    induction work with
    | nil => intro a ha _ _; simpa using ha
    | cons r rest ih =>
      intro a ha hr hp
      rw [List.pairwise_cons] at hp
      have hr0 := hr r List.mem_cons_self
      have := ih (r.hi + 1) (by omega)
        (fun s hs => ⟨by have := hp.1 s hs; omega, (hr s (List.mem_cons_of_mem _ hs)).2⟩) hp.2
      simp only [List.length_cons]
      omega
  have := key c.work 0 (Nat.zero_le _)
    (fun r hr => ⟨Nat.zero_le _, (h.ranges r hr).1, (h.ranges r hr).2.1⟩) h.apart
  omega

end Sys2Proof.Machine
end

