-- ==== Sys2Proof/Laws/Build.lean ====
section
/-! SUPPORT. What CONSTRUCT's work on the sorter leaves: the suffix array of the block (rules R32, R33, R143). -/

namespace Sys2Proof.Machine

/-! ## Rotations and DB -/

theorem rotation_length (block : List Byte) {o : Nat} (h : o ≤ block.length) :
    (rotation block o).length = block.length := by
  simp [rotation]; omega

theorem rotation_getElem? (block : List Byte) {o j : Nat} (ho : o < block.length) (hj : j < block.length) :
    (rotation block o)[j]? = (block ++ block)[o + j]? := by
  unfold rotation
  by_cases h : j < block.length - o
  · rw [List.getElem?_append_left (by simpa using h), List.getElem?_append_left (by omega), List.getElem?_drop]
  · rw [List.getElem?_append_right (by simp; omega), List.getElem?_append_right (by omega), List.getElem?_take,
      List.length_drop, if_pos (by omega)]
    congr 1
    omega

theorem dbAt_eq {c : Sorter} {block : List Byte} (hdb : c.db.cells = cellsFrom 0 (block ++ block)) {k : Nat}
    (hk : k < 2 * block.length) : some (c.dbAt k) = (block ++ block)[k]? := by
  have hlen : k < (block ++ block).length := by simp; omega
  simp only [Sorter.dbAt, byteOr, Memory.get?, hdb, lookupCell_cellsFrom, Nat.zero_le, if_true, Nat.sub_zero]
  rw [List.getElem?_eq_getElem hlen]
  rfl

/-- On the doubled block, the key order read off DB is the key order of the rotations (R72, R140). -/
theorem keyBefore_iff_keyLt {c : Sorter} {block : List Byte} (hdb : c.db.cells = cellsFrom 0 (block ++ block))
    {a b : Nat} (ha : a < block.length) (hb : b < block.length) :
    KeyBefore block.length c a b ↔ KeyLt block a b := by
  have read : ∀ {o j}, o < block.length → j < block.length →
      (rotation block o)[j]? = some (c.dbAt (o + j)) := by
    intro o j ho hj
    rw [rotation_getElem? block ho hj, dbAt_eq hdb (by omega)]
  have readD : ∀ {o j}, o < block.length → j < block.length →
      (rotation block o).getD j 0#8 = c.dbAt (o + j) := by
    intro o j ho hj
    simp [List.getD_eq_getElem?_getD, read ho hj]
  have la := rotation_length block (o := a) (by omega)
  have lb := rotation_length block (o := b) (by omega)
  unfold KeyBefore KeyLt ByteLexLt
  constructor
  · rintro (⟨k, hk, he, hl⟩ | ⟨he, hab⟩)
    · refine .inl ⟨k, by omega, by omega, ?_, ?_⟩
      · intro j hj
        rw [read ha (by omega), read hb (by omega), he j hj]
      · rw [readD ha hk, readD hb hk]; exact hl
    · refine .inr ⟨?_, hab⟩
      apply List.ext_getElem?
      intro j
      by_cases hj : j < block.length
      · rw [read ha hj, read hb hj, he j hj]
      · rw [List.getElem?_eq_none (by omega), List.getElem?_eq_none (by omega)]
  · rintro (⟨k, hk, _, he, hl⟩ | ⟨he, hab⟩)
    · have hkn : k < block.length := by omega
      refine .inl ⟨k, hkn, ?_, ?_⟩
      · intro j hj
        have := he j hj
        rw [read ha (by omega), read hb (by omega)] at this
        exact Option.some.inj this
      · rw [readD ha hkn, readD hb hkn] at hl; exact hl
    · refine .inr ⟨?_, hab⟩
      intro j hj
      have h1 := read ha hj
      rw [he, read hb hj] at h1
      exact (Option.some.inj h1).symm

/-! ## The loaded sorter -/

theorem idxAt_load (block : List Byte) (c : Sorter) {p : Nat} (hp : p < block.length) :
    (c.load block).idxAt p = BitVec.ofNat 32 p := by
  have : p < ((List.range block.length).map (BitVec.ofNat 32)).length := by simpa using hp
  simp only [Sorter.load, Sorter.idxAt]
  rw [wordOr_fill _ _ _ this]
  simp

theorem runInv_load {block : List Byte} (c : Sorter) (hn : block.length < 2 ^ 32) :
    RunInv block.length (c.load block) where
  distinct := by
    intro p q hp hq he
    rw [idxAt_load block c hp, idxAt_load block c hq] at he
    have := congrArg BitVec.toNat he
    simp only [BitVec.toNat_ofNat] at this
    rw [Nat.mod_eq_of_lt (by omega), Nat.mod_eq_of_lt (by omega)] at this
    exact this
  ranges := by
    intro r hr
    have hr' : r ∈ pushRange 0 block.length 0 [] := hr
    obtain ⟨h, rfl⟩ := mem_pushRange hr'
    exact ⟨by simp; omega, by simp; omega, by simp, fun p q _ _ _ _ j hj => by simp at hj⟩
  apart := by
    show (pushRange 0 block.length 0 []).Pairwise _
    unfold pushRange; split <;> simp
  ordered := by
    intro p q hpq hq
    right
    refine ⟨{ lo := 0, hi := block.length - 1, depth := 0 }, ?_, by simp, by simp; omega⟩
    show _ ∈ pushRange 0 block.length 0 []
    unfold pushRange
    rw [if_pos (by omega)]
    simp

theorem weight_load {block : List Byte} (c : Sorter) :
    workWeight block.length (c.load block).work ≤ enoughPops block.length := by
  have := weight_pushRange block.length 0 block.length 0
  exact this

/-! ## The result -/

/-- CONSTRUCT's work on the sorter, for every CUTOFF (R141, R143, R163). -/
theorem build_spec (cutoff : Nat) {block : List Byte} (c : Sorter) (hn : block.length < 2 ^ 32) :
    (c.build cutoff block).Holds block ∧ IsSuffixArray block (c.build cutoff block).ranks ∧
      (c.build cutoff block).svalid = true ∧ (c.build cutoff block).work = [] ∧
      (c.build cutoff block).db = c.db.fill (block ++ block) ∧
      (c.build cutoff block).idx.gen = c.idx.gen + 1 := by
  obtain ⟨⟨σ, hfix, hidx⟩, hdb, hgen, hdense, hinv, hend⟩ :=
    sortRun_spec (cutoff := cutoff) (enoughPops block.length) _ (runInv_load c hn)
  have hwork := hend (weight_load c)
  have hdense' := hdense ⟨(List.range block.length).map (BitVec.ofNat 32), rfl, by simp⟩
  set t := Sorter.sortRun cutoff block.length (enoughPops block.length) (c.load block) with ht
  have hbuild : c.build cutoff block =
      { t with slen := BitVec.ofNat 32 block.length, svalid := true } := rfl
  have hslen : (BitVec.ofNat 32 block.length).toNat = block.length := by
    rw [BitVec.toNat_ofNat, Nat.mod_eq_of_lt hn]
  have hcells : t.db.cells = cellsFrom 0 (block ++ block) := by rw [hdb]; rfl
  have bound : ∀ p, p < block.length → σ p < block.length := by
    intro p hp
    exact (perm_maps (lo := 0) (stop := block.length) (fun p hp => hfix p (by omega)) (Nat.zero_le p) hp).2
  have hval : ∀ p, p < block.length → (t.idxAt p).toNat = σ p := by
    intro p hp
    rw [hidx, idxAt_load block c (bound p hp), BitVec.toNat_ofNat,
      Nat.mod_eq_of_lt (by have := bound p hp; omega)]
  have hranks : (c.build cutoff block).ranks = (List.range block.length).map σ := by
    rw [hbuild, Sorter.ranks]
    simp only [hslen]
    apply List.map_congr_left
    intro p hp
    exact hval p (List.mem_range.mp hp)
  refine ⟨⟨hslen, hcells, hdense'⟩, ⟨?_, ?_⟩, rfl, hwork, hdb, by rw [hbuild]; exact hgen⟩
  · rw [hranks, List.perm_ext_iff_of_nodup (List.nodup_range.map σ.injective) List.nodup_range]
    intro a
    simp only [List.mem_map, List.mem_range]
    constructor
    · rintro ⟨p, hp, rfl⟩; exact bound p hp
    · intro ha
      refine ⟨σ.symm a, ?_, by simp⟩
      have hfix' : ∀ p, p < 0 ∨ block.length ≤ p → σ.symm p = p := fun p hp => by
        rw [Equiv.symm_apply_eq]; exact (hfix p (by omega)).symm
      exact (perm_maps hfix' (Nat.zero_le a) ha).2
  · intro i a b hia hib
    rw [hranks] at hia hib
    simp only [List.getElem?_map, Option.map_eq_some_iff] at hia hib
    obtain ⟨p, hp, rfl⟩ := hia
    obtain ⟨q, hq, rfl⟩ := hib
    have hp' := List.getElem?_eq_some_iff.mp hp
    have hq' := List.getElem?_eq_some_iff.mp hq
    simp only [List.length_range, List.getElem_range] at hp' hq'
    obtain ⟨hpl, rfl⟩ := hp'
    obtain ⟨hql, rfl⟩ := hq'
    rw [← keyBefore_iff_keyLt hcells (bound _ hpl) (bound _ hql), ← hval _ hpl, ← hval _ hql]
    rcases hinv.ordered i (i + 1) (by omega) hql with h | ⟨r, hr, _⟩
    · exact h
    · rw [hwork] at hr; simp at hr

end Sys2Proof.Machine
end

