-- ==== Sys2Proof/Laws/Compress.lean ====
section
/-! SUPPORT. Phases 3 to 7 of COMPRESS and the whole of it: the code table, the writer, and the artifact that reaches SNK
(rules R192 to R199). -/

namespace Sys2Proof.Machine

/-! ## Phase 3 -/

theorem codeAt_clearCode (h : HufScratch) (s : Byte) : h.clearCode.codeAt s = [] := by
  unfold HufScratch.clearCode HufScratch.codeAt
  rw [codeOr_fill _ _ (by rw [List.length_replicate]; exact s.isLt), List.getElem_replicate]

/-- Two scratches that differ in CODE alone. -/
structure SameTrie (h h' : HufScratch) : Prop where
  node : h'.node = h.node
  root : h'.root = h.root
  freq : h'.freq = h.freq
  ncnt : h'.ncnt = h.ncnt

theorem SameTrie.nodeAt {h h' : HufScratch} (hs : SameTrie h h') (x : NodeIdx) : h'.nodeAt x = h.nodeAt x := by
  rw [HufScratch.nodeAt, hs.node]; rfl

theorem SameTrie.rootVal {h h' : HufScratch} (hs : SameTrie h h') : h'.rootVal = h.rootVal := by
  rw [HufScratch.rootVal, hs.root]; rfl

theorem SameTrie.trans {h h' h'' : HufScratch} (hs : SameTrie h h') (hs' : SameTrie h' h'') : SameTrie h h'' :=
  ⟨hs'.node.trans hs.node, hs'.root.trans hs.root, hs'.freq.trans hs.freq, hs'.ncnt.trans hs.ncnt⟩

theorem SameTrie.hasTrie {h h' : HufScratch} (hs : SameTrie h h') {x : NodeIdx} {t : Trie} (ht : h.HasTrie x t) :
    h'.HasTrie x t := HasTrie.congr hs.nodeAt ht

/-- The walk writes the path of every leaf below `x` and no other code (R192). -/
theorem walk_spec (t : Trie) : ∀ (depth : Nat) (x : NodeIdx) (path : List Bool) (h : HufScratch), h.HasTrie x t →
    t.depth < depth → t.symbols.Nodup →
    SameTrie h (HufScratch.walk depth x path h) ∧
      ∀ s, (HufScratch.walk depth x path h).codeAt s =
        ((t.codeOf s).map (fun p => path ++ p)).getD (h.codeAt s) := by
  induction t with
  | leaf b =>
    intro depth x path h ht hd _
    obtain ⟨depth, rfl⟩ : ∃ m, depth = m + 1 := ⟨depth - 1, by omega⟩
    rw [HufScratch.walk, if_pos ht.1]
    refine ⟨⟨rfl, rfl, rfl, rfl⟩, ?_⟩
    intro s
    rw [HufScratch.codeAt, codeOr_set, ht.2]
    by_cases hs : s = b
    · subst hs; simp [Trie.codeOf]
    · rw [if_neg (toNat_ne_of_ne hs)]; simp [Trie.codeOf, hs, HufScratch.codeAt]
  | node l r ihl ihr =>
    intro depth x path h ht hd hn
    simp only [Trie.depth] at hd
    simp only [Trie.symbols] at hn
    obtain ⟨depth, rfl⟩ : ∃ m, depth = m + 1 := ⟨depth - 1, by omega⟩
    rw [HufScratch.walk, if_neg (by rw [ht.1]; simp)]
    obtain ⟨s1, c1⟩ := ihl depth (h.nodeAt x).left (path ++ [false]) h ht.2.1 (by omega) hn.of_append_left
    set h1 := HufScratch.walk depth (h.nodeAt x).left (path ++ [false]) h
    obtain ⟨s2, c2⟩ := ihr depth (h.nodeAt x).right (path ++ [true]) h1 (s1.hasTrie ht.2.2) (by omega)
      hn.of_append_right
    refine ⟨s1.trans s2, ?_⟩
    intro s
    rw [c2, c1]
    simp only [Trie.codeOf]
    cases hl : l.codeOf s with
    | some p =>
      have hr : r.codeOf s = none := by
        rw [Trie.codeOf_eq_none]
        have hm : s ∈ l.symbols := by rw [← Trie.codeOf_isSome, hl]; rfl
        exact fun h => (List.nodup_append.mp hn).2.2 s hm s h rfl
      rw [hr]
      simp
    | none => cases r.codeOf s <;> simp

/-! ## Phase 4 -/

/-- WriteNode writes the trie section (R194, R98). -/
theorem writeNode_spec (h : HufScratch) (t : Trie) : ∀ (depth : Nat) (x : NodeIdx) (w : BitWriter), h.HasTrie x t →
    t.depth < depth → h.writeNode depth x w = w.putBits t.section := by
  induction t with
  | leaf b =>
    intro depth x w ht hd
    obtain ⟨depth, rfl⟩ : ∃ m, depth = m + 1 := ⟨depth - 1, by omega⟩
    rw [HufScratch.writeNode, if_pos ht.1, ht.2, putByte_eq, Trie.section, putBits_cons]
  | node l r ihl ihr =>
    intro depth x w ht hd
    simp only [Trie.depth] at hd
    obtain ⟨depth, rfl⟩ : ∃ m, depth = m + 1 := ⟨depth - 1, by omega⟩
    rw [HufScratch.writeNode, if_neg (by rw [ht.1]; simp), ihl _ _ _ ht.2.1 (by omega), ihr _ _ _ ht.2.2 (by omega),
      ← putBits_append, Trie.section, putBits_cons]

/-! ## The whole command -/

theorem huffmanTrie_depth {block : List Byte} (h : block ≠ []) :
    (huffmanTrie block).depth < max (distinctBytes block) 2 := by
  rw [← huffmanTrie_leaves h]; exact Trie.depth_lt _

theorem leaves_le (block : List Byte) : max (distinctBytes block) 2 ≤ 256 := by
  have := distinctBytes_le block; omega

/-- What phases 1 to 3 leave for a block of at least one byte. -/
theorem prepare_spec {block : List Byte} (h : HufScratch) (hne : block ≠ []) (hl : block.length < 2 ^ 32) :
    (h.prepare block).HasTrie (h.prepare block).rootVal (huffmanTrie block) ∧
      ∀ s, (h.prepare block).codeAt s = ((huffmanTrie block).codeOf s).getD [] := by
  obtain ⟨ht, _, _⟩ := phase2_spec (h := h.phase1Count block) hne hl (phase1_freqAt h hl) (alphabet_phase1 h hl)
  set h2 := (h.phase1Count block).phase2Build with hh2
  have hlen : block.length ≠ 0 := fun e => hne (List.length_eq_zero_iff.mp e)
  have he : h.prepare block = HufScratch.walk Config.nodeMax h2.rootVal [] h2.clearCode := by
    rw [HufScratch.prepare, ← hh2, HufScratch.phase3Codes, if_neg hlen]
  have hs : SameTrie h2 h2.clearCode := ⟨rfl, rfl, rfl, rfl⟩
  have hd := huffmanTrie_depth hne
  have hle := leaves_le block
  obtain ⟨s3, c3⟩ := walk_spec (huffmanTrie block) Config.nodeMax h2.rootVal [] h2.clearCode
    (hs.hasTrie (TrieIn.hasTrie ht)) (by simp only [Config.nodeMax]; omega) (huffmanTrie_nodup hne)
  rw [he]
  have s4 := hs.trans s3
  refine ⟨?_, ?_⟩
  · rw [s4.rootVal]; exact s4.hasTrie (TrieIn.hasTrie ht)
  · intro s
    rw [c3, codeAt_clearCode]
    cases (huffmanTrie block).codeOf s <;> simp

theorem phase6_spec (h : HufScratch) (block : List Byte) (w : BitWriter) :
    h.phase6WriteBody block w = w.putBits (block.map h.codeAt).flatten := by
  unfold HufScratch.phase6WriteBody
  induction block generalizing w with
  | nil => rfl
  | cons b block ih => rw [List.foldl_cons, ih, List.map_cons, List.flatten_cons, putBits_append]

theorem phase5_spec (n : Word) (w : BitWriter) : w.phase5WriteLength n = w.putBits (lengthBits n) := by
  simp only [BitWriter.phase5WriteLength, lengthBits, bitsOfBytes, List.flatMap_cons, List.flatMap_nil,
    List.append_nil, putBits_append, putByte_eq]

theorem phase4_spec {block : List Byte} (h : HufScratch) (hl : block.length < 2 ^ 32) (w : BitWriter) :
    (h.prepare block).phase4WriteTrie block.length w = w.putBits (huffmanTrie block).section := by
  unfold HufScratch.phase4WriteTrie
  by_cases hne : block = []
  · subst hne
    rw [if_pos List.length_nil, huffmanTrie_nil, BitWriter.writeMarker, putByte_eq, Trie.section, putBits_cons]
  · rw [if_neg (fun e => hne (List.length_eq_zero_iff.mp e))]
    have hd := huffmanTrie_depth hne
    have hle := leaves_le block
    exact writeNode_spec _ _ _ _ _ (prepare_spec h hne hl).1 (by simp only [Config.nodeMax]; omega)

theorem map_codeAt {block : List Byte} (h : HufScratch) (hl : block.length < 2 ^ 32) :
    block.map (h.prepare block).codeAt = block.map (huffmanCode block) := by
  apply List.map_congr_left
  intro b hb
  exact (prepare_spec h (by rintro rfl; simp at hb) hl).2 b

/-- The bits phases 4 to 6 write, and the flush (R180). -/
theorem emit_eq {block : List Byte} (h : HufScratch) (hl : block.length < 2 ^ 32) (n : Word) (w : BitWriter) :
    (h.prepare block).emit n block w =
      (w.putBits (artifactBits (huffmanTrie block) n (block.map (huffmanCode block)))).flushBits := by
  rw [HufScratch.emit, phase6_spec, phase5_spec, phase4_spec h hl, map_codeAt h hl, ← putBits_append,
    ← putBits_append, artifactBits, List.append_assoc]

/-- What COMPRESS leaves in the packer (R199, R203). -/
theorem emit_spec {block : List Byte} (h : HufScratch) (hl : block.length < 2 ^ 32) (n : Word) (w : BitWriter)
    (hw : w.cnt = 0#3) :
    ((h.prepare block).emit n block w).snk = w.snk ++ artifact n block ∧
      ((h.prepare block).emit n block w).cnt = 0#3 ∧
      (w.acc = 0#8 → ((h.prepare block).emit n block w).acc = 0#8) := by
  rw [emit_eq h hl]
  refine ⟨?_, (flushBits_spec _).2.1, fun ha => ?_⟩
  · rw [putBits_flush, pendingBits_of_empty hw, List.nil_append]; rfl
  · exact (flush_clears _ (putBits_zero_acc _ _ fun _ => ha)).1

end Sys2Proof.Machine
end

