-- ==== Sys2Proof/Laws/State.lean ====
section
/-! SUPPORT. One lemma per field and named update of State, each true by unfolding, so that no later proof opens a
record update. -/

namespace Sys2Proof.Machine

section raiseError

@[simp] theorem raiseError_arg (k : ErrKind) (s : State) : (raiseError k s).arg = s.arg := rfl

@[simp] theorem raiseError_len (k : ErrKind) (s : State) : (raiseError k s).len = s.len := rfl

@[simp] theorem raiseError_res (k : ErrKind) (s : State) : (raiseError k s).res = 0#32 := rfl

@[simp] theorem raiseError_olen (k : ErrKind) (s : State) : (raiseError k s).olen = s.olen := rfl

@[simp] theorem raiseError_err (k : ErrKind) (s : State) : (raiseError k s).err = some k := rfl

@[simp] theorem raiseError_fatal (k : ErrKind) (s : State) : (raiseError k s).fatal = (s.fatal || decide (k = .invariantViolation)) := rfl

@[simp] theorem raiseError_eos (k : ErrKind) (s : State) : (raiseError k s).eos = s.eos := rfl

@[simp] theorem raiseError_ibuf (k : ErrKind) (s : State) : (raiseError k s).ibuf = s.ibuf := rfl

@[simp] theorem raiseError_obuf (k : ErrKind) (s : State) : (raiseError k s).obuf = s.obuf := rfl

@[simp] theorem raiseError_css (k : ErrKind) (s : State) : (raiseError k s).css = s.css := rfl

@[simp] theorem raiseError_wr (k : ErrKind) (s : State) : (raiseError k s).wr = s.wr := rfl

@[simp] theorem raiseError_rd (k : ErrKind) (s : State) : (raiseError k s).rd = s.rd := rfl

@[simp] theorem raiseError_huf (k : ErrKind) (s : State) : (raiseError k s).huf = s.huf := rfl

@[simp] theorem raiseError_nmax (k : ErrKind) (s : State) : (raiseError k s).nmax = s.nmax := rfl

@[simp] theorem raiseError_host (k : ErrKind) (s : State) : (raiseError k s).host = s.host := rfl

end raiseError

section endNormally

@[simp] theorem endNormally_arg (r : Word) (s : State) : (endNormally r s).arg = s.arg := rfl

@[simp] theorem endNormally_len (r : Word) (s : State) : (endNormally r s).len = s.len := rfl

@[simp] theorem endNormally_res (r : Word) (s : State) : (endNormally r s).res = r := rfl

@[simp] theorem endNormally_olen (r : Word) (s : State) : (endNormally r s).olen = s.olen := rfl

@[simp] theorem endNormally_err (r : Word) (s : State) : (endNormally r s).err = none := rfl

@[simp] theorem endNormally_fatal (r : Word) (s : State) : (endNormally r s).fatal = s.fatal := rfl

@[simp] theorem endNormally_eos (r : Word) (s : State) : (endNormally r s).eos = s.eos := rfl

@[simp] theorem endNormally_ibuf (r : Word) (s : State) : (endNormally r s).ibuf = s.ibuf := rfl

@[simp] theorem endNormally_obuf (r : Word) (s : State) : (endNormally r s).obuf = s.obuf := rfl

@[simp] theorem endNormally_css (r : Word) (s : State) : (endNormally r s).css = s.css := rfl

@[simp] theorem endNormally_wr (r : Word) (s : State) : (endNormally r s).wr = s.wr := rfl

@[simp] theorem endNormally_rd (r : Word) (s : State) : (endNormally r s).rd = s.rd := rfl

@[simp] theorem endNormally_huf (r : Word) (s : State) : (endNormally r s).huf = s.huf := rfl

@[simp] theorem endNormally_nmax (r : Word) (s : State) : (endNormally r s).nmax = s.nmax := rfl

@[simp] theorem endNormally_host (r : Word) (s : State) : (endNormally r s).host = s.host := rfl

end endNormally

section see

@[simp] theorem see_arg (s : State) (v : HostValue) : (s.see v).arg = s.arg := rfl

@[simp] theorem see_len (s : State) (v : HostValue) : (s.see v).len = s.len := rfl

@[simp] theorem see_res (s : State) (v : HostValue) : (s.see v).res = s.res := rfl

@[simp] theorem see_olen (s : State) (v : HostValue) : (s.see v).olen = s.olen := rfl

@[simp] theorem see_err (s : State) (v : HostValue) : (s.see v).err = s.err := rfl

@[simp] theorem see_fatal (s : State) (v : HostValue) : (s.see v).fatal = s.fatal := rfl

@[simp] theorem see_eos (s : State) (v : HostValue) : (s.see v).eos = s.eos := rfl

@[simp] theorem see_ibuf (s : State) (v : HostValue) : (s.see v).ibuf = s.ibuf := rfl

@[simp] theorem see_obuf (s : State) (v : HostValue) : (s.see v).obuf = s.obuf := rfl

@[simp] theorem see_css (s : State) (v : HostValue) : (s.see v).css = s.css := rfl

@[simp] theorem see_wr (s : State) (v : HostValue) : (s.see v).wr = s.wr := rfl

@[simp] theorem see_rd (s : State) (v : HostValue) : (s.see v).rd = s.rd := rfl

@[simp] theorem see_huf (s : State) (v : HostValue) : (s.see v).huf = s.huf := rfl

@[simp] theorem see_nmax (s : State) (v : HostValue) : (s.see v).nmax = s.nmax := rfl

@[simp] theorem see_host (s : State) (v : HostValue) : (s.see v).host = { s.host with seen := s.host.seen ++ [v] } := rfl

end see

section withCommand

@[simp] theorem withCommand_arg (s : State) (w : Byte) : (s.withCommand w).arg = s.arg := rfl

@[simp] theorem withCommand_len (s : State) (w : Byte) : (s.withCommand w).len = s.len := rfl

@[simp] theorem withCommand_res (s : State) (w : Byte) : (s.withCommand w).res = s.res := rfl

@[simp] theorem withCommand_olen (s : State) (w : Byte) : (s.withCommand w).olen = s.olen := rfl

@[simp] theorem withCommand_err (s : State) (w : Byte) : (s.withCommand w).err = s.err := rfl

@[simp] theorem withCommand_fatal (s : State) (w : Byte) : (s.withCommand w).fatal = s.fatal := rfl

@[simp] theorem withCommand_eos (s : State) (w : Byte) : (s.withCommand w).eos = s.eos := rfl

@[simp] theorem withCommand_ibuf (s : State) (w : Byte) : (s.withCommand w).ibuf = s.ibuf := rfl

@[simp] theorem withCommand_obuf (s : State) (w : Byte) : (s.withCommand w).obuf = s.obuf := rfl

@[simp] theorem withCommand_css (s : State) (w : Byte) : (s.withCommand w).css = s.css := rfl

@[simp] theorem withCommand_wr (s : State) (w : Byte) : (s.withCommand w).wr = s.wr := rfl

@[simp] theorem withCommand_rd (s : State) (w : Byte) : (s.withCommand w).rd = s.rd := rfl

@[simp] theorem withCommand_huf (s : State) (w : Byte) : (s.withCommand w).huf = s.huf := rfl

@[simp] theorem withCommand_nmax (s : State) (w : Byte) : (s.withCommand w).nmax = s.nmax := rfl

@[simp] theorem withCommand_host (s : State) (w : Byte) : (s.withCommand w).host = { s.host with script := .writeReg 0 (w.setWidth 32) :: s.host.script } := rfl

end withCommand

section afterReset

@[simp] theorem afterReset_arg (s : State) (src : List Byte) : (s.afterReset src).arg = 0#32 := rfl

@[simp] theorem afterReset_len (s : State) (src : List Byte) : (s.afterReset src).len = 0#32 := rfl

@[simp] theorem afterReset_res (s : State) (src : List Byte) : (s.afterReset src).res = 0#32 := rfl

@[simp] theorem afterReset_olen (s : State) (src : List Byte) : (s.afterReset src).olen = 0#32 := rfl

@[simp] theorem afterReset_err (s : State) (src : List Byte) : (s.afterReset src).err = none := rfl

@[simp] theorem afterReset_fatal (s : State) (src : List Byte) : (s.afterReset src).fatal = false := rfl

@[simp] theorem afterReset_eos (s : State) (src : List Byte) : (s.afterReset src).eos = false := rfl

@[simp] theorem afterReset_ibuf (s : State) (src : List Byte) : (s.afterReset src).ibuf = s.ibuf.forget := rfl

@[simp] theorem afterReset_obuf (s : State) (src : List Byte) : (s.afterReset src).obuf = s.obuf.forget := rfl

@[simp] theorem afterReset_css (s : State) (src : List Byte) :
    (s.afterReset src).css =
      { db := s.css.db.forget, idx := s.css.idx.forget, slen := 0#32, svalid := false, work := [] } := rfl

@[simp] theorem afterReset_wr (s : State) (src : List Byte) : (s.afterReset src).wr = { acc := 0#8, cnt := 0#3, snk := [] } := rfl

@[simp] theorem afterReset_rd (s : State) (src : List Byte) : (s.afterReset src).rd = { buf := 0#8, cnt := 0#4, src := src } := rfl

@[simp] theorem afterReset_huf (s : State) (src : List Byte) : (s.afterReset src).huf = s.huf.discard := rfl

@[simp] theorem afterReset_nmax (s : State) (src : List Byte) : (s.afterReset src).nmax = s.nmax := rfl

@[simp] theorem afterReset_host (s : State) (src : List Byte) : (s.afterReset src).host = s.host := rfl

end afterReset

end Sys2Proof.Machine
end

