-- ==== Sys2Proof/Laws/Commands.lean ====
section
/-! SUPPORT. What each command can do, said once: the inversion of exec over the eleven commands and their errors (rules
R94, R250, R258, R259). -/

namespace Sys2Proof.Machine

/-! ## The frame -/

/-- The pseudocode of each command. -/
def bodyOf : Instr → State → Attempt State Word
  | .wbit => wbitBody
  | .wbyte => wbyteBody
  | .flush => flushBody
  | .rbit => rbitBody
  | .rbyte => rbyteBody
  | .construct => constructBody
  | .length => lengthBody
  | .sufstart => sufstartBody
  | .release => releaseBody
  | .compress => compressBody
  | .expand => expandBody

theorem exec_eq (i : Instr) (s : State) : exec i s = .next (runCommand (bodyOf i) s) := by cases i <;> rfl

/-- How the frame reports what the pseudocode did (R258 step 5). -/
def report : Attempt State Word → State
  | .ok r t => endNormally r t
  | .raised k t => raiseError k t

theorem runCommand_fatal {s : State} (body : State → Attempt State Word) (h : s.fatal = true) :
    runCommand body s = { s with err := some .invariantViolation, res := 0#32 } := by simp [runCommand, h]

theorem runCommand_live {s : State} (body : State → Attempt State Word) (h : s.fatal = false) :
    runCommand body s = report (body { s with eos := false }) := by
  unfold runCommand
  rw [h]
  simp only [Bool.false_eq_true, if_false]
  cases body { s with eos := false } <;> rfl

theorem exec_fatal {s : State} (i : Instr) (h : s.fatal = true) :
    exec i s = .next { s with err := some .invariantViolation, res := 0#32 } := by
  rw [exec_eq, runCommand_fatal _ h]

theorem exec_live {s : State} (i : Instr) (h : s.fatal = false) :
    exec i s = .next (report (bodyOf i { s with eos := false })) := by rw [exec_eq, runCommand_live _ h]

/-! ## Reads of any reader -/

theorem getBit_any (r : BitReader) :
    (r.bitsLeft = 0 ∧ r.getBit = .raised .endOfStream r) ∨
      ∃ b r', r.getBit = .ok b r' ∧ r.bitsLeft = r'.bitsLeft + 1 ∧ r'.src <:+ r.src := by
  unfold BitReader.getBit BitReader.deliver
  by_cases h : r.cnt = 0#4
  · rw [if_pos h]
    cases hs : r.src with
    | nil => left; exact ⟨by simp [BitReader.bitsLeft, h, hs], rfl⟩
    | cons v rest =>
      right
      exact ⟨_, _, rfl, by simp [BitReader.bitsLeft, h, hs]; omega, List.suffix_cons _ _⟩
  · rw [if_neg h]
    right
    have : r.cnt.toNat ≠ 0 := fun h' => h (BitVec.eq_of_toNat_eq (by simpa using h'))
    have hc : (r.cnt - 1#4).toNat = r.cnt.toNat - 1 := by rw [BitVec.toNat_sub]; simp; omega
    exact ⟨_, _, rfl, by simp only [BitReader.bitsLeft, hc]; omega, List.suffix_refl _⟩

theorem getBitsInto_any : ∀ (m : Nat) (v : Byte) (r : BitReader), m ≤ r.bitsLeft →
    ∃ u r', BitReader.getBitsInto m v r = .ok u r' ∧ r'.src <:+ r.src := by
  intro m
  induction m with
  | zero => intro v r _; exact ⟨v, r, rfl, List.suffix_refl _⟩
  | succ m ih =>
    intro v r hm
    rcases getBit_any r with ⟨h, _⟩ | ⟨b, r', e, h, hs⟩
    · omega
    · obtain ⟨u, r'', e', hs'⟩ := ih ((v <<< 1) ||| (BitVec.ofBool b).setWidth 8) r' (by omega)
      exact ⟨u, r'', by rw [BitReader.getBitsInto, e]; exact e', hs'.trans hs⟩

theorem getByte_any (r : BitReader) :
    r.getByte = .raised .endOfStream r ∨ ∃ u r', r.getByte = .ok u r' ∧ r'.src <:+ r.src := by
  unfold BitReader.getByte
  split
  · exact .inl rfl
  · right; exact getBitsInto_any 8 _ r (by omega)

/-! ## The commands -/

theorem block_length (s : State) : s.block.length = s.len.toNat := by simp [State.block, State.blockLen]

theorem block_eos (s : State) (e : Bool) : ({ s with eos := e } : State).block = s.block := rfl

/-- Everything the pseudocode of a command can do from a state: its result, or the kind it raises, with the state it
leaves. -/
inductive Ran : Instr → State → Attempt State Word → Prop where
  | wbit {s} (b : Bool) : Ran .wbit s (.ok 0#32 { s with wr := s.wr.putBit b })
  | wbitIllegal {s} : Ran .wbit s (.raised .illegalCommand s)
  | wbyte {s} (v : Byte) : Ran .wbyte s (.ok 0#32 { s with wr := s.wr.putByte v })
  | wbyteIllegal {s} : Ran .wbyte s (.raised .illegalCommand s)
  | flush {s} : Ran .flush s (.ok 0#32 { s with wr := s.wr.flushBits })
  | rbit {s} (v : Word) (r : BitReader) (suffix : r.src <:+ s.rd.src)
      (count : s.rd.cnt.toNat ≤ 7 → r.cnt.toNat ≤ 7) : Ran .rbit s (.ok v { s with rd := r })
  | rbitEnd {s} : Ran .rbit s (.raised .endOfStream { s with eos := true })
  | rbyte {s} (v : Word) (r : BitReader) (suffix : r.src <:+ s.rd.src)
      (count : s.rd.cnt.toNat ≤ 7 → r.cnt.toNat ≤ 7) : Ran .rbyte s (.ok v { s with rd := r })
  | rbyteEnd {s} : Ran .rbyte s (.raised .endOfStream { s with eos := true })
  | construct {s} (fits : s.len.toNat ≤ s.nmax.toNat) :
      Ran .construct s (.ok 0#32 { s with css := s.css.build Config.cutoff s.block })
  | constructCapacity {s} : Ran .construct s (.raised .capacityExceeded s)
  | length {s} : Ran .length s (.ok s.css.slen s)
  | sufstart {s} : Ran .sufstart s (.ok (s.css.idxAt s.arg.toNat) s)
  | sufstartRange {s} : Ran .sufstart s (.raised .indexOutOfRange s)
  | release {s} : Ran .release s (.ok 0#32 { s with css := s.css.drop })
  | compress {s} (fits : s.len.toNat ≤ s.nmax.toNat) (empty : s.wr.cnt = 0#3) :
      Ran .compress s (.ok 0#32
        { s with wr := (s.huf.prepare s.block).emit s.len s.block s.wr, huf := (s.huf.prepare s.block).discard })
  | compressIllegal {s} : Ran .compress s (.raised .illegalCommand s)
  | compressCapacity {s} : Ran .compress s (.raised .capacityExceeded s)
  | expand {s} (len : Word) (out : List Byte) (d : Decoder) (fits : len.toNat ≤ s.nmax.toNat)
      (all : out.length = len.toNat) (fetched : Fetched s.rd d.rd) :
      Ran .expand s (.ok 0#32
        { s with rd := d.rd.dropBits, huf := d.huf.discard, obuf := s.obuf.fill out, olen := len })
  | expandIllegal {s} (busy : s.rd.cnt ≠ 0#4) : Ran .expand s (.raised .illegalCommand s)
  | expandRejected {s} (k : ErrKind) (d : Decoder) (kind : k = .malformedArtifact ∨ k = .capacityExceeded)
      (exhausted : Bool) (only : exhausted = true → k = .malformedArtifact) (fetched : Fetched s.rd d.rd) :
      Ran .expand s (.raised k
        { s with
          rd := d.rd.dropBits, huf := d.huf.discard, obuf := s.obuf.forget, olen := 0#32, eos := s.eos || exhausted })

theorem expand_ran (s : State) : Ran .expand s (expandBody s) := by
  unfold expandBody
  split
  · rename_i h; exact .expandIllegal h
  · rename_i h
    have h0 : s.rd.cnt = 0#4 := by simpa using h
    have hm := readArtifact_meets s.nmax { rd := s.rd, huf := s.huf.startRead } (by rw [h0]; simp)
    cases hr : Decoder.readArtifact s.nmax { rd := s.rd, huf := s.huf.startRead } with
    | ok p d =>
      obtain ⟨len, out⟩ := p
      rw [hr] at hm
      exact .expand len out d hm.1 hm.2.1 hm.2.2
    | raised k d =>
      rw [hr] at hm
      obtain ⟨hk, hf⟩ := hm
      rcases hk with ⟨rfl, _⟩ | rfl | rfl
      · exact .expandRejected .malformedArtifact d (.inl rfl) true (fun _ => rfl) hf
      · exact .expandRejected .malformedArtifact d (.inl rfl) false (by simp) hf
      · exact .expandRejected .capacityExceeded d (.inr rfl) false (by simp) hf

theorem rbit_ran (s : State) : Ran .rbit s (rbitBody s) := by
  unfold rbitBody State.reading
  rcases getBit_any s.rd with ⟨_, e⟩ | ⟨b, r', e, _, hs⟩
  · rw [e]
    simp only [Attempt.andThen, decide_true, Bool.or_true]
    exact .rbitEnd
  · rw [e]
    refine .rbit _ r' hs (fun h7 => ?_)
    have := getBit_meets s.rd h7
    rw [e] at this
    exact this.count

theorem rbyte_ran (s : State) : Ran .rbyte s (rbyteBody s) := by
  unfold rbyteBody State.reading
  rcases getByte_any s.rd with e | ⟨b, r', e, hs⟩
  · rw [e]
    simp only [Attempt.andThen, decide_true, Bool.or_true]
    exact .rbyteEnd
  · rw [e]
    refine .rbyte _ r' hs (fun h7 => ?_)
    have := getByte_meets s.rd h7
    rw [e] at this
    exact this.count

/-- The inversion of every command. -/
theorem body_ran (i : Instr) (s : State) : Ran i s (bodyOf i s) := by
  cases i with
  | wbit =>
    show Ran _ _ (wbitBody s)
    unfold wbitBody
    cases s.bitOperand with
    | none => exact .wbitIllegal
    | some b => exact .wbit b
  | wbyte =>
    show Ran _ _ (wbyteBody s)
    unfold wbyteBody
    cases s.byteOperand with
    | none => exact .wbyteIllegal
    | some v => exact .wbyte v
  | flush => exact .flush
  | rbit => exact rbit_ran s
  | rbyte => exact rbyte_ran s
  | construct =>
    show Ran _ _ (constructBody s)
    unfold constructBody State.overCapacity
    split
    · exact .constructCapacity
    · rename_i h; exact .construct (by simpa using h)
  | length => exact .length
  | sufstart =>
    show Ran _ _ (sufstartBody s)
    unfold sufstartBody
    split
    · exact .sufstartRange
    · exact .sufstart
  | release => exact .release
  | compress =>
    show Ran _ _ (compressBody s)
    unfold compressBody State.overCapacity
    split
    · exact .compressIllegal
    · rename_i hc
      split
      · exact .compressCapacity
      · rename_i h; exact .compress (by simpa using h) (by simpa using hc)
  | expand => exact expand_ran s

/-- What a command answers: the fatal refusal, or the report of what its pseudocode did. -/
theorem exec_cases {i : Instr} {s t : State} (h : exec i s = .next t) :
    (s.fatal = true ∧ t = { s with err := some .invariantViolation, res := 0#32 }) ∨
      (s.fatal = false ∧ ∃ a, Ran i { s with eos := false } a ∧ t = report a) := by
  rcases Bool.eq_false_or_eq_true s.fatal with hf | hf
  · rw [exec_fatal i hf] at h
    exact .inl ⟨hf, by injection h with h; exact h.symm⟩
  · rw [exec_live i hf] at h
    exact .inr ⟨hf, _, body_ran i _, by injection h with h; exact h.symm⟩

end Sys2Proof.Machine
end

