-- ==== Sys2Proof/Laws/PerInstr.lean ====
section
/-! SUPPORT. Facts of each command as syntax: its word is `UNIT*16 + FN` of its row of the opcode map (rules R90 to R92). -/

namespace Sys2Proof.Laws.WordFields

/-- The command is well formed, and its word's two fields are those of its row, `OP = UNIT*16 + FN` (R90, R91). -/
def Statement (i : Instr) : Prop :=
  i.wf = true ∧ ∃ r ∈ opcodeMap, r.instr = i ∧ unitField (encode i) = r.unit ∧ fnField (encode i) = r.fn ∧
    (encode i).toNat = 16 * r.unit + r.fn

theorem wbit : Statement .wbit := ⟨rfl, ⟨1, 0, .wbit⟩, by decide, by decide⟩
theorem wbyte : Statement .wbyte := ⟨rfl, ⟨1, 1, .wbyte⟩, by decide, by decide⟩
theorem flush : Statement .flush := ⟨rfl, ⟨1, 2, .flush⟩, by decide, by decide⟩
theorem rbit : Statement .rbit := ⟨rfl, ⟨1, 3, .rbit⟩, by decide, by decide⟩
theorem rbyte : Statement .rbyte := ⟨rfl, ⟨1, 4, .rbyte⟩, by decide, by decide⟩
theorem construct : Statement .construct := ⟨rfl, ⟨2, 0, .construct⟩, by decide, by decide⟩
theorem length : Statement .length := ⟨rfl, ⟨2, 1, .length⟩, by decide, by decide⟩
theorem sufstart : Statement .sufstart := ⟨rfl, ⟨2, 2, .sufstart⟩, by decide, by decide⟩
theorem release : Statement .release := ⟨rfl, ⟨2, 3, .release⟩, by decide, by decide⟩
theorem compress : Statement .compress := ⟨rfl, ⟨3, 0, .compress⟩, by decide, by decide⟩
theorem expand : Statement .expand := ⟨rfl, ⟨3, 1, .expand⟩, by decide, by decide⟩

end Sys2Proof.Laws.WordFields
end

