-- ==== Sys2Proof/Laws/Script.lean ====
section
/-! SUPPORT. What the host scripts do: moves one after the other, LOAD, and the rounds of SUFFIXARRAY (rules R100 to
R102). -/

namespace Sys2Proof.Machine

/-- A step makes the first move of the script. -/
theorem step_of_script {s : State} {m : HostMove} {rest : List HostMove} (h : s.host.script = m :: rest) :
    step s = hostMove m { s with host := { s.host with script := rest } } := by
  unfold step hostStep
  rw [h]

@[simp] theorem runMoves_nil (s : State) : runMoves [] s = .next s := rfl

theorem runMoves_cons {m : HostMove} {rest : List HostMove} {s t : State} (h : hostMove m s = .next t) :
    runMoves (m :: rest) s = runMoves rest t := by rw [runMoves, h]

theorem runMoves_append {a b : List HostMove} {s t : State} (h : runMoves a s = .next t) :
    runMoves (a ++ b) s = runMoves b t := by
  induction a generalizing s with
  | nil => injection h with h; rw [h]; rfl
  | cons m rest ih =>
    rw [runMoves] at h
    split at h
    · rename_i u hu
      rw [List.cons_append, runMoves_cons hu]
      exact ih h
    · simp at h
    · simp at h

/-- A command in a script runs (R23, R101). -/
theorem hostMove_command (i : Instr) (s : State) : hostMove (.writeReg 0 ((encode i).setWidth 32)) s = exec i s := by
  cases i <;> rfl

theorem runMoves_command {i : Instr} {s t : State} (h : exec i s = .next t) : runMoves (scriptCommand i) s = .next t := by
  rw [scriptCommand, scriptCmd, runMoves_cons (by rw [hostMove_command]; exact h), runMoves_nil]

theorem runMoves_withArg {i : Instr} {v : Word} {s t : State} (h : exec i { s with arg := v } = .next t) :
    runMoves (scriptWithArg i v) s = .next t := by
  rw [scriptWithArg, runMoves_append (t := { s with arg := v }) rfl]
  exact runMoves_command h

theorem runMoves_getReg (n : Nat) (s : State) : runMoves (scriptGetReg n) s = .next (s.see (.word (s.readReg n))) := rfl

/-- `PUT IBUF, k, bytes` (R100): it completes, changes only IBUF, and where the bytes fit they are what IBUF holds. -/
theorem runMoves_put (bytes : List Byte) : ∀ (k : Nat) (s : State),
    ∃ m, runMoves (scriptPut k bytes) s = .next { s with ibuf := m } ∧
      (k + bytes.length ≤ s.nmax.toNat →
        (∀ j, j < bytes.length → byteOr .ibuf m (k + j) = bytes.getD j 0#8) ∧
        ∀ j, j < k → byteOr .ibuf m j = byteOr .ibuf s.ibuf j) := by
  induction bytes with
  | nil => intro k s; exact ⟨s.ibuf, rfl, fun _ => ⟨by simp, fun _ _ => rfl⟩⟩
  | cons v rest ih =>
    intro k s
    by_cases hk : k < s.nmax.toNat
    · obtain ⟨m, e, hm⟩ := ih (k + 1) { s with ibuf := s.ibuf.set k v }
      refine ⟨m, ?_, fun hle => ?_⟩
      · rw [scriptPut, runMoves_cons (t := { s with ibuf := s.ibuf.set k v })]
        · exact e
        · rw [hostMove, if_pos (by simpa [State.hasIndex] using hk)]
      · obtain ⟨hin, hbelow⟩ := hm (by simp only [List.length_cons] at hle; show k + 1 + rest.length ≤ s.nmax.toNat; omega)
        refine ⟨fun j hj => ?_, fun j hj => ?_⟩
        · cases j with
          | zero => rw [Nat.add_zero, hbelow k (by omega), byteOr_set, if_pos rfl]; rfl
          | succ j =>
            rw [show k + (j + 1) = k + 1 + j by omega, hin j (by simpa using hj)]
            rfl
        · rw [hbelow j (by omega), byteOr_set, if_neg (by omega)]
    · obtain ⟨m, e, _⟩ := ih (k + 1) s
      refine ⟨m, ?_, fun hle => by simp only [List.length_cons] at hle; omega⟩
      rw [scriptPut, runMoves_cons (t := s)]
      · exact e
      · rw [hostMove, if_neg (by simpa [State.hasIndex] using hk)]

/-- `LOAD bytes` (R102): it completes, changes only IBUF and LEN, and where the bytes fit they are the block. -/
theorem runMoves_load (bytes : List Byte) (s : State) (hn : bytes.length < 2 ^ 32) :
    ∃ m, runMoves (scriptLoad bytes) s = .next { s with ibuf := m, len := BitVec.ofNat 32 bytes.length } ∧
      (bytes.length ≤ s.nmax.toNat →
        ({ s with ibuf := m, len := BitVec.ofNat 32 bytes.length } : State).block = bytes) := by
  obtain ⟨m, e, hm⟩ := runMoves_put bytes 0 s
  refine ⟨m, by rw [scriptLoad, runMoves_append e]; rfl, fun hle => ?_⟩
  obtain ⟨hin, _⟩ := hm (by omega)
  have hlen : (BitVec.ofNat 32 bytes.length : Word).toNat = bytes.length := by
    rw [BitVec.toNat_ofNat]; exact Nat.mod_eq_of_lt hn
  apply List.ext_getElem
  · simp [State.block, State.blockLen, hlen]
  · intro j _ h2
    have := hin j h2
    rw [Nat.zero_add] at this
    simp only [State.block, List.getElem_map, List.getElem_range, State.ibufAt]
    rw [this]
    simp [h2]

/-- The rounds of `SUFFIXARRAY` at ranks below SLEN (R102, R146): each returns the offset at its rank. -/
theorem runMoves_suffixStarts (ranks : List Nat) : ∀ s : State, s.fatal = false → (∀ i ∈ ranks, i < s.css.slen.toNat) →
    ∃ t, runMoves (ranks.flatMap fun i => scriptWithArg .sufstart (BitVec.ofNat 32 i) ++ scriptGetReg 3) s = .next t ∧
      t.css = s.css ∧ t.host.seen = s.host.seen ++ ranks.map fun i => .word (s.css.idxAt i) := by
  induction ranks with
  | nil => intro s _ _; exact ⟨s, rfl, rfl, by simp⟩
  | cons i rest ih =>
    intro s hf hr
    have hi := hr i (by simp)
    have hlt := s.css.slen.isLt
    have hnat : (BitVec.ofNat 32 i : Word).toNat = i := by rw [BitVec.toNat_ofNat]; exact Nat.mod_eq_of_lt (by omega)
    have e : exec .sufstart { s with arg := BitVec.ofNat 32 i } =
        .next { s with arg := BitVec.ofNat 32 i, eos := false, err := none, res := s.css.idxAt i } := by
      rw [exec_live _ (by exact hf)]
      simp only [bodyOf, sufstartBody, State.rankOperand, hnat]
      rw [if_neg (by omega)]
      rfl
    obtain ⟨t, et, hc, hs⟩ := ih ({ s with arg := BitVec.ofNat 32 i, eos := false, err := none, res := s.css.idxAt i }.see
      (.word (s.css.idxAt i))) hf (fun j hj => hr j (by simp [hj]))
    refine ⟨t, ?_, hc, ?_⟩
    · rw [List.flatMap_cons, List.append_assoc, runMoves_append (runMoves_withArg e), runMoves_append (runMoves_getReg 3 _)]
      exact et
    · rw [hs]; simp [State.see]

end Sys2Proof.Machine
end

