-- ==== Sys2Proof/Laws/Steps.lean ====
section
/-! SUPPORT. What a step can do, said once: the inversion of step over the moves of the HOST (rules R22, R266, R300). -/

namespace Sys2Proof.Machine

/-- The state a step works on: the move it takes is off the script. -/
def State.taking (s : State) (rest : List HostMove) : State := { s with host := { s.host with script := rest } }

/-- Everything a step can do from a state: nothing, one command, an illegal word, or one other move of the HOST. -/
inductive Stepped (s : State) : State → Prop where
  | idle (script : s.host.script = []) : Stepped s s
  | command (v : Word) (rest : List HostMove) (i : Instr) (t : State) (script : s.host.script = .writeReg 0 v :: rest)
      (word : decode (v.setWidth 8) = .ok i) (run : exec i (s.taking rest) = .next t) : Stepped s t
  | illegal (v : Word) (rest : List HostMove) (script : s.host.script = .writeReg 0 v :: rest)
      (word : ∃ e, decode (v.setWidth 8) = .error e) : Stepped s (illegalWord (s.taking rest))
  | writeArg (v : Word) (rest : List HostMove) (script : s.host.script = .writeReg 1 v :: rest) :
      Stepped s { s.taking rest with arg := v }
  | writeLen (v : Word) (rest : List HostMove) (script : s.host.script = .writeReg 2 v :: rest) :
      Stepped s { s.taking rest with len := v }
  | writeIgnored (n : Nat) (v : Word) (rest : List HostMove) (script : s.host.script = .writeReg n v :: rest)
      (other : 3 ≤ n) : Stepped s (s.taking rest)
  | read (m : HostMove) (rest : List HostMove) (v : HostValue) (script : s.host.script = m :: rest) :
      Stepped s ((s.taking rest).see v)
  | writeIbuf (k : Nat) (v : Byte) (rest : List HostMove) (script : s.host.script = .writeIbuf k v :: rest)
      (below : k < s.nmax.toNat) : Stepped s { s.taking rest with ibuf := s.ibuf.set k v }
  | noSuchByte (k : Nat) (v : Byte) (rest : List HostMove) (script : s.host.script = .writeIbuf k v :: rest)
      (above : s.nmax.toNat ≤ k) : Stepped s (s.taking rest)
  | supply (m : HostMove) (rest : List HostMove) (src : List Byte) (script : s.host.script = m :: rest) :
      Stepped s { s.taking rest with rd := { s.rd with src := src } }
  | reset (src : List Byte) (rest : List HostMove) (script : s.host.script = .reset src :: rest) :
      Stepped s ((s.taking rest).afterReset src)

/-- The inversion of a step. -/
theorem step_cases {s t : State} (h : step s = .next t) : Stepped s t := by
  unfold step hostStep at h
  split at h
  · rename_i hs
    injection h with h
    subst h
    exact .idle hs
  · rename_i m rest hs
    cases m with
    | writeReg n v =>
      simp only [hostMove] at h
      split at h
      · rename_i hn
        subst hn
        unfold issue at h
        split at h
        · rename_i i hd
          exact .command v rest i t hs hd h
        · rename_i e hd
          injection h with h
          subst h
          exact .illegal v rest hs ⟨e, hd⟩
      · rename_i hn
        injection h with h
        subst h
        unfold State.writeReg
        split
        · exact .writeArg v rest hs
        · exact .writeLen v rest hs
        · rename_i h1 h2
          exact .writeIgnored n v rest hs (by
            have : n ≠ 1 := h1
            have : n ≠ 2 := h2
            omega)
    | readReg n => injection h with h; subst h; exact .read _ rest _ hs
    | writeIbuf k v =>
      simp only [hostMove] at h
      split at h
      · rename_i hk
        injection h with h
        subst h
        exact .writeIbuf k v rest hs (by simpa [State.hasIndex] using hk)
      · rename_i hk
        injection h with h
        subst h
        exact .noSuchByte k v rest hs (by simpa [State.hasIndex] using hk)
    | readIbuf k =>
      simp only [hostMove] at h
      split at h
      · injection h with h; subst h; exact .read _ rest _ hs
      · simp at h
    | readObuf k =>
      simp only [hostMove] at h
      split at h
      · injection h with h; subst h; exact .read _ rest _ hs
      · simp at h
    | appendSrc bytes => injection h with h; subst h; exact .supply _ rest _ hs
    | replaceSrc bytes => injection h with h; subst h; exact .supply _ rest _ hs
    | readSnk a b =>
      simp only [hostMove] at h
      split at h
      · injection h with h; subst h; exact .read _ rest _ hs
      · simp at h
    | feedSnk a b =>
      simp only [hostMove] at h
      split at h
      · injection h with h; subst h; exact .supply _ rest _ hs
      · simp at h
    | reset src => injection h with h; subst h; exact .reset src rest hs

end Sys2Proof.Machine
end

