-- ==== Sys2Proof/Tests/Slice0.lean ====
section
/-! SUPPORT. The model's own tests: well-formedness, decoding, vectors of `spec/95_test_vectors.md` (each named in its
docstring), and a witness for the hypotheses of every obligation that has some. -/

namespace Sys2Proof.Tests

open Sys2Proof Sys2Proof.Machine

/-! The theorems below are elaborated one after the other: most of them wait for the kernel, and waiting at the same time
costs a thread, with its stack, for each. -/

set_option Elab.async false

/-! ## Helpers -/

/-- The next state, if there is one. -/
def nextOf (o : Host.Outcome State Fault Refusal) : Option State :=
  match o with
  | .next s => some s
  | .fault _ => none
  | .refused _ => none

/-- The fault, if there is one. -/
def faultOf (o : Host.Outcome State Fault Refusal) : Option Fault :=
  match o with
  | .next _ => none
  | .fault f => some f
  | .refused _ => none

/-- The state after reset, in which commands run. -/
def live : State := State.reset

/-- A state in which FATAL is set. -/
def dead : State := { live with fatal := true }

/-- A state with the given moves of the HOST to come. -/
def scripted (moves : List HostMove) (s : State) : State := { s with host := { s.host with script := moves } }

/-- `LOAD bytes` has been made. -/
def loaded (bytes : List Byte) (s : State) : State :=
  { s with ibuf := { cells := cellsFrom 0 bytes, gen := 0 }, len := BitVec.ofNat 32 bytes.length }

/-- A state with a writer. -/
def writing (acc : Byte) (cnt : BitVec 3) (snk : List Byte) : State :=
  { live with wr := { acc := acc, cnt := cnt, snk := snk } }

/-- A state with a reader. -/
def reading (buf : Byte) (cnt : BitVec 4) (src : List Byte) : State :=
  { live with rd := { buf := buf, cnt := cnt, src := src } }

/-- A state whose sorter holds the offsets `idx` for the block. -/
def sorted (block : List Byte) (idx : List Word) : State :=
  { live with
    css :=
      { db := { cells := cellsFrom 0 (block ++ block), gen := 1 }
        idx := { cells := cellsFrom 0 idx, gen := 1 }
        slen := BitVec.ofNat 32 block.length
        svalid := true
        work := [] } }

/-- NMAX = 4. -/
def small (s : State) : State := { s with nmax := 4#32 }

/-- "ABAB". -/
def abab : List Byte := [0x41#8, 0x42#8, 0x41#8, 0x42#8]

/-- "ABRACADABRA". -/
def abracadabra : List Byte :=
  [0x41#8, 0x42#8, 0x52#8, 0x41#8, 0x43#8, 0x41#8, 0x44#8, 0x41#8, 0x42#8, 0x52#8, 0x41#8]

/-- The sorter after `LOAD "ABAB"; CONSTRUCT` (vector C5). -/
def sortedAbab : State := sorted abab [0#32, 2#32, 1#32, 3#32]

/-- RES and STAT. -/
def report (s : State) : Word × Word := (s.res, s.stat)

/-! ## Well-formedness -/

theorem test_wf_no_command_has_a_field : Instr.wf .wbit = true ∧ Instr.wf .expand = true := by decide

/-- R94, vector B8: WBIT's operand is 0 or 1. -/
theorem test_wbit_operand_two_is_refused :
    Instr.operandOk .wbit 2#32 = false ∧ Instr.operandOk .wbit 1#32 = true := by decide

/-- R94, vector B9: WBYTE's operand is at most 255. -/
theorem test_wbyte_operand_256_is_refused :
    Instr.operandOk .wbyte 256#32 = false ∧ Instr.operandOk .wbyte 255#32 = true := by decide

/-- R94: the other commands ignore ARG, and SUFSTART takes any number. -/
theorem test_other_operands_are_free :
    Instr.operandOk .flush 0xFFFFFFFF#32 = true ∧ Instr.operandOk .sufstart 0xFFFFFFFF#32 = true := by decide

/-! ## Decoding: words written bit by bit from the table of R91 -/

theorem test_decode_wbit : decode 0b00010000#8 = .ok .wbit := by decide
theorem test_decode_wbyte : decode 0b00010001#8 = .ok .wbyte := by decide
theorem test_decode_flush : decode 0b00010010#8 = .ok .flush := by decide
theorem test_decode_rbit : decode 0b00010011#8 = .ok .rbit := by decide
theorem test_decode_rbyte : decode 0b00010100#8 = .ok .rbyte := by decide
theorem test_decode_construct : decode 0b00100000#8 = .ok .construct := by decide
theorem test_decode_length : decode 0b00100001#8 = .ok .length := by decide
theorem test_decode_sufstart : decode 0b00100010#8 = .ok .sufstart := by decide
theorem test_decode_release : decode 0b00100011#8 = .ok .release := by decide
theorem test_decode_compress : decode 0b00110000#8 = .ok .compress := by decide
theorem test_decode_expand : decode 0b00110001#8 = .ok .expand := by decide

/-- R95, the words of vector B18: no such operation of BSC, and no such unit. -/
theorem test_decode_illegal :
    decode 0x15#8 = .error (.noSuchOperation 1 5) ∧ decode 0x00#8 = .error (.noSuchUnit 0) ∧
      decode 0xFF#8 = .error (.noSuchUnit 15) := by decide

theorem test_decode_table_word :
    decodeTableWord 8 0x22 = some .sufstart ∧ decodeTableWord 8 0x32 = none := by decide

/-! ## The step -/

/-- R23: the command word of FLUSH as the next instruction runs FLUSH. -/
theorem test_step_runs_the_fetched_word :
    nextOf (step ((writing 5#8 3#3 []).withFetchWord 8 0x12)) = nextOf (exec .flush (writing 5#8 3#3 [])) := by
  decide +kernel

/-- Vector B18: ERR = 5, STAT = 0x00000005, RES = 0. -/
theorem test_illegal_word :
    (nextOf (step ((writing 5#8 0#3 []).withFetchWord 8 0x15))).map report = some (0#32, 5#32) := by decide +kernel

/-- R22: a write of the read-only register STAT does nothing. -/
theorem test_write_stat_is_ignored :
    nextOf (step (scripted [.writeReg 4 0xFFFFFFFF#32] dead)) = some dead := by decide +kernel

/-- Vector H19, the fifth byte of its LOAD: with NMAX = 4 the write stores nothing and the machine goes on. -/
theorem test_write_past_nmax_H19 :
    nextOf (step (scripted [.writeIbuf 4 0x41#8] (small live))) = some (small live) := by decide +kernel

/-- R102, R104: SUFFIXARRAY has as many rounds as the RES of its LENGTH says: with NMAX = 4 CONSTRUCT refuses the five bytes
"ABABA", and the four ranks of the earlier suffix array are read; while FATAL = 1 none is. -/
theorem test_suffixArray_rounds :
    scriptSuffixArray (abab ++ [0x41#8]) (small sortedAbab) =
      scriptSuffixArrayHead (abab ++ [0x41#8]) ++ scriptSuffixStarts 4#32 ∧
    scriptSuffixArray abab dead = scriptSuffixArrayHead abab := by decide +kernel

/-- R290, R291: reset clears FATAL. -/
theorem test_reset_clears_fatal :
    (nextOf (step (scripted [.reset [0xA5#8]] dead))).map (fun t => (t.stat, t.rd.src)) = some (0#32, [0xA5#8]) := by
  decide +kernel

/-! ## Vectors: BSC -/

/-- Vector B1, the third WBIT. -/
theorem test_wbit_B1 :
    (nextOf (exec .wbit ((writing 2#8 2#3 []).withArg 1#32))).map (fun t => (t.wr.acc, t.stat, t.wr.snk)) =
      some (5#8, 0x300#32, []) := by decide +kernel

/-- Vector B4, the eighth WBIT: the byte 0x41 is complete. -/
theorem test_wbit_B4 :
    (nextOf (exec .wbit ((writing 0x20#8 7#3 []).withArg 1#32))).map (fun t => (t.wr.acc, t.stat, t.wr.snk)) =
      some (0#8, 0#32, [0x41#8]) := by decide +kernel

/-- Vector B5. -/
theorem test_wbyte_B5 :
    (nextOf (exec .wbyte ((writing 5#8 3#3 []).withArg 0xFF#32))).map (fun t => t.wr) =
      some { acc := 7#8, cnt := 3#3, snk := [0xBF#8] } := by decide +kernel

/-- Vector B9. -/
theorem test_wbyte_B9 :
    (nextOf (exec .wbyte (live.withArg 256#32))).map (fun t => (report t, t.wr)) =
      some ((0#32, 5#32), live.wr) := by decide +kernel

/-- Vector B2. -/
theorem test_flush_B2 :
    (nextOf (exec .flush (writing 5#8 3#3 []))).map (fun t => (t.wr.acc, t.stat, t.wr.snk)) =
      some (0#8, 0#32, [0xA0#8]) := by decide +kernel

/-- Vector B3. -/
theorem test_flush_B3 :
    nextOf (exec .flush (writing 0#8 0#3 [0xA0#8])) = some (writing 0#8 0#3 [0xA0#8]) := by decide +kernel

/-- Vector B11, the first RBIT. -/
theorem test_rbit_B11 :
    (nextOf (exec .rbit (reading 0#8 0#4 [0xA5#8]))).map (fun t => (report t, t.rd)) =
      some ((1#32, 0x7000#32), { buf := 0xA5#8, cnt := 7#4, src := [] }) := by decide +kernel

/-- Vector B12. -/
theorem test_rbit_B12 :
    (nextOf (exec .rbit (reading 0xA5#8 0#4 []))).map (fun t => (report t, t.rd)) =
      some ((0#32, 0x42#32), { buf := 0xA5#8, cnt := 0#4, src := [] }) := by decide +kernel

/-- Vector B14. -/
theorem test_rbyte_B14 :
    (nextOf (exec .rbyte (reading 0xB7#8 3#4 [0xF0#8]))).map (fun t => (t.res, t.rd)) =
      some (0xFE#32, { buf := 0xF0#8, cnt := 3#4, src := [] }) := by decide +kernel

/-- Vector B15. -/
theorem test_rbyte_B15 :
    (nextOf (exec .rbyte (reading 0xF0#8 3#4 []))).map report = some (0#32, 0x3042#32) := by decide +kernel

/-! ## Vectors: CSS -/

/-- Vector C9, more candidates than CUTOFF: one partition. -/
theorem test_construct_C9 :
    (nextOf (exec .construct (loaded abracadabra live))).map (fun t => (t.css.ranks, t.stat)) =
      some ([10, 7, 0, 3, 5, 8, 1, 4, 6, 9, 2], 0x10#32) := by decide +kernel

/-- Vector C30: with NMAX = 4 a block of 5 bytes is refused, and the earlier suffix array survives. -/
theorem test_construct_C30 :
    (nextOf (exec .construct { small sortedAbab with len := 5#32 })).map (fun t => (report t, t.css.ranks)) =
      some ((0#32, 0x16#32), [0, 2, 1, 3]) := by decide +kernel

/-- Vector C20. -/
theorem test_length_C20 : (nextOf (exec .length sortedAbab)).map report = some (4#32, 0x10#32) := by decide +kernel

/-- Vector C21, rank 1. -/
theorem test_sufstart_C21 :
    (nextOf (exec .sufstart (sortedAbab.withArg 1#32))).map report = some (2#32, 0x10#32) := by decide +kernel

/-- Vector C22. -/
theorem test_sufstart_C22 :
    (nextOf (exec .sufstart (sortedAbab.withArg 4#32))).map report = some (0#32, 0x11#32) := by decide +kernel

/-- Vector C24. -/
theorem test_release_C24 :
    (nextOf (exec .release sortedAbab)).map (fun t => (report t, t.css.slen)) = some ((0#32, 0#32), 0#32) := by
  decide +kernel

/-! ## Vectors: HUF -/

/-- Vector H6. -/
theorem test_compress_H6 :
    (nextOf (exec .compress (loaded abracadabra live))).map (fun t => (t.wr.snk, t.stat)) =
      some ([0x50#8, 0x55#8, 0x25#8, 0x09#8, 0x43#8, 0xA2#8, 0x05#8, 0x80#8, 0x00#8, 0x00#8, 0x34#8, 0xE7#8,
        0xB4#8], 0#32) := by decide +kernel

/-- Vector H7: the placeholder of a lone 0x00 is 0x01. -/
theorem test_compress_H7 :
    (nextOf (exec .compress (loaded [0#8] live))).map (fun t => t.wr.snk) =
      some [0x40#8, 0x60#8, 0x00#8, 0x20#8, 0x00#8, 0x00#8, 0x10#8] := by decide +kernel

/-- Vector H27: "ABAB", and two stray bytes stay unread. -/
theorem test_expand_H27 :
    (nextOf (exec .expand
      (reading 0#8 0#4 [0x50#8, 0x68#8, 0x40#8, 0x80#8, 0x00#8, 0x00#8, 0x0A#8, 0xDE#8, 0xAD#8]))).map
        (fun t => (report t, t.olen, (List.range 5).map t.obuf.get?, t.rd.src)) =
      some ((0#32, 0#32), 4#32, [some 0x41#8, some 0x42#8, some 0x41#8, some 0x42#8, none], [0xDE#8, 0xAD#8]) := by
  decide +kernel

/-- Vector H36: 511 internal nodes and no room for more; one byte is never fetched. -/
theorem test_expand_H36 :
    (nextOf (exec .expand (reading 0#8 0#4 (List.replicate 65 0#8)))).map (fun t => (report t, t.olen, t.rd.src)) =
      some ((0#32, 3#32), 0#32, [0#8]) := by decide +kernel

/-! ## Witnesses: states and operands that meet the hypotheses of the obligations, clause by clause -/

/-- Every command answers a next state from `s`: the hypothesis `exec i s = .next t` of the frames. -/
theorem witness_every_command_completes (s : State) : ∀ i, ∃ t, exec i s = .next t := by
  intro i
  cases i <;> exact ⟨_, rfl⟩

/-- DecodeEncodeAgree. -/
theorem witness_DecodeEncodeAgree : decode 0x31#8 = .ok .expand := by decide

/-- IllegalWordChangesOnlyTheReport, at both ends of each range of words, and with data above bit 7. -/
theorem witness_IllegalWordChangesOnlyTheReport :
    (scripted [.writeReg 0 0xABCD0015#32] live).host.script = [.writeReg 0 0xABCD0015#32] ∧
    live.fatal = false ∧ dead.fatal = true ∧
    ∀ w ∈ [0x00#8, 0x0F#8, 0x15#8, 0x1F#8, 0x24#8, 0x2F#8, 0x32#8, 0xFF#8],
      w.toNat ≤ 0x0F ∨ (0x15 ≤ w.toNat ∧ w.toNat ≤ 0x1F) ∨ (0x24 ≤ w.toNat ∧ w.toNat ≤ 0x2F) ∨ 0x32 ≤ w.toNat := by
  decide

/-- StepRunsTheIssuedCommand. -/
theorem witness_StepRunsTheIssuedCommand :
    (scripted [.writeReg 0 0xABCD0012#32, .readReg 4] live).host.script = [.writeReg 0 0xABCD0012#32, .readReg 4] ∧
      decode ((0xABCD0012#32 : Word).setWidth 8) = .ok .flush := by decide

/-- IdleEngineKeepsState. -/
theorem witness_IdleEngineKeepsState : sortedAbab.host.script = [] := by decide

/-- HostRegisterAccesses, for writes and reads of the registers 0 to 6. -/
theorem witness_HostRegisterAccesses :
    ∀ n ∈ [0, 1, 2, 3, 4, 5, 6],
      (scripted [.writeReg n 7#32] live).host.script = .writeReg n 7#32 :: [] ∧
      (scripted [.readReg n] live).host.script = .readReg n :: [] := by decide

/-- HostBufferAndStreamMoves: the last index and the first one past it, with NMAX = 4. -/
theorem witness_HostBufferAndStreamMoves_indexes :
    (scripted [.writeIbuf 3 1#8] (small live)).host.script = [.writeIbuf 3 1#8] ∧
    (scripted [.writeIbuf 4 1#8] (small live)).host.script = [.writeIbuf 4 1#8] ∧
    (scripted [.readIbuf 4] (small live)).host.script = [.readIbuf 4] ∧
    (scripted [.readObuf 4] (small live)).host.script = [.readObuf 4] ∧
    3 < (small live).nmax.toNat ∧ (small live).nmax.toNat ≤ 4 := by decide

/-- HostBufferAndStreamMoves: slices at the end of SNK and past it. -/
theorem witness_HostBufferAndStreamMoves_streams :
    (scripted [.readSnk 1 2] (writing 0#8 0#3 [1#8, 2#8])).host.script = [.readSnk 1 2] ∧
    (scripted [.feedSnk 1 3] (writing 0#8 0#3 [1#8, 2#8])).host.script = [.feedSnk 1 3] ∧
    (scripted [.appendSrc [1#8]] live).host.script = [.appendSrc [1#8]] ∧
    (scripted [.replaceSrc []] live).host.script = [.replaceSrc []] ∧
    (1 ≤ 2 ∧ 2 ≤ (writing 0#8 0#3 [1#8, 2#8]).wr.snk.length) ∧
    (writing 0#8 0#3 [1#8, 2#8]).wr.snk.length < 3 := by decide

/-- HostMovesKeepHiddenState. -/
theorem witness_HostMovesKeepHiddenState :
    (scripted [.readReg 4] live).host.script = [.readReg 4] ∧ (∀ v, HostMove.readReg 4 ≠ .writeReg 0 v) ∧
      (∀ src, HostMove.readReg 4 ≠ .reset src) ∧ ∃ t, step (scripted [.readReg 4] live) = .next t :=
  ⟨rfl, fun _ h => (nomatch h), fun _ h => (nomatch h), _, rfl⟩

/-- ResetMoveClearsEverything, from a state with FATAL set. -/
theorem witness_ResetMoveClearsEverything :
    (scripted [.reset [1#8], .readReg 4] dead).host.script = .reset [1#8] :: [.readReg 4] := by decide

/-- FatalRefusesEveryCommand, and the clauses of other statements with FATAL = 1. -/
theorem witness_FatalRefusesEveryCommand : dead.fatal = true := by decide

/-- CommandsReportTheListedKinds, and every statement whose only hypothesis is FATAL = 0. -/
theorem witness_CommandsReportTheListedKinds : live.fatal = false := by decide

/-- CommandsReportTheListedKinds: its six kinds but InvariantViolation are reached with FATAL = 0. -/
theorem witness_kinds_are_reached :
    (nextOf (exec .sufstart live)).map (fun t => t.err) = some (some .indexOutOfRange) ∧
    (nextOf (exec .rbit live)).map (fun t => (t.err, t.eos)) = some (some .endOfStream, true) ∧
    (nextOf (exec .expand live)).map (fun t => (t.err, t.eos)) = some (some .malformedArtifact, true) ∧
    (nextOf (exec .wbit (live.withArg 2#32))).map (fun t => t.err) = some (some .illegalCommand) ∧
    (nextOf (exec .construct { small live with len := 5#32 })).map (fun t => t.err) =
      some (some .capacityExceeded) := by decide +kernel

/-- FatalIsNeverSet: a step that runs a command. -/
theorem witness_FatalIsNeverSet :
    (∃ t, step (live.withFetchWord 8 0x12) = .next t) ∧ (live.withFetchWord 8 0x12).fatal = false :=
  ⟨⟨_, rfl⟩, by decide⟩

/-- ErrorsLeaveTheListedState: each of its three clauses, the second one in both of its forms. -/
theorem witness_ErrorsLeaveTheListedState :
    (∃ t k, exec .flush dead = .next t ∧ t.err = some k) ∧
    (∃ t k, exec .sufstart live = .next t ∧ t.err = some k) ∧
    (∃ t, exec .expand (reading 0#8 7#4 []) = .next t ∧ t.err = some .illegalCommand) ∧
    (∃ t, exec .expand live = .next t ∧ t.err = some .malformedArtifact) :=
  ⟨⟨_, .invariantViolation, rfl, by decide +kernel⟩, ⟨_, .indexOutOfRange, rfl, by decide +kernel⟩,
    ⟨_, rfl, by decide +kernel⟩, ⟨_, rfl, by decide +kernel⟩⟩

/-- WbitAppendsOneBit: WCNT = 7, WCNT = 6, and the first operand out of range. -/
theorem witness_WbitAppendsOneBit :
    (((writing 0x20#8 7#3 []).withArg 1#32).fatal = false ∧ ((writing 0x20#8 7#3 []).withArg 1#32).arg.toNat ≤ 1 ∧
      (writing 0x20#8 7#3 []).wr.cnt = 7#3) ∧
    (((writing 0x20#8 6#3 []).withArg 0#32).arg.toNat ≤ 1 ∧ (writing 0x20#8 6#3 []).wr.cnt ≠ 7#3) ∧
    1 < (live.withArg 2#32).arg.toNat := by decide

/-- WbyteAppendsOneByte: the last operand in range and the first one out of range. -/
theorem witness_WbyteAppendsOneByte :
    (live.withArg 255#32).fatal = false ∧ (live.withArg 255#32).arg.toNat ≤ 255 ∧
      255 < (live.withArg 256#32).arg.toNat := by decide

/-- FlushPadsAndEmits. -/
theorem witness_FlushPadsAndEmits :
    (writing 1#8 1#3 []).fatal = false ∧ (writing 1#8 1#3 []).wr.cnt ≠ 0#3 ∧ live.wr.cnt = 0#3 := by decide

/-- PackingLaw. -/
theorem witness_PackingLaw : ({ acc := 0#8, cnt := 0#3, snk := [1#8] } : BitWriter).cnt = 0#3 := by decide

/-- RbitReadsTheNextBit: one buffered bit, a refill, and the end of the stream. -/
theorem witness_RbitReadsTheNextBit :
    (reading 1#8 1#4 []).fatal = false ∧ (reading 1#8 1#4 []).rd.cnt ≠ 0#4 ∧
    ((reading 0#8 0#4 [1#8]).rd.cnt = 0#4 ∧ (reading 0#8 0#4 [1#8]).rd.src = 1#8 :: []) ∧
    (live.rd.cnt = 0#4 ∧ live.rd.src = []) := by decide

/-- RbyteReadsTheNextByte: the largest RCNT with bytes left, and with none. -/
theorem witness_RbyteReadsTheNextByte :
    (reading 1#8 7#4 [2#8]).fatal = false ∧ (reading 1#8 7#4 [2#8]).rd.cnt.toNat ≤ 7 ∧
      (reading 1#8 7#4 [2#8]).rd.src = 2#8 :: [] ∧ (reading 1#8 7#4 []).rd.src = [] := by decide

/-- WriteReadDuality: three bits, so one byte comes back. -/
theorem witness_WriteReadDuality :
    let w : BitWriter := { acc := 0#8, cnt := 0#3, snk := [7#8] }
    w.cnt = 0#3 ∧ (reading 0#8 0#4 [0xA0#8]).rd.cnt = 0#4 ∧
      (reading 0#8 0#4 [0xA0#8]).rd.src = ((w.putBits [true, false, true]).flushBits).snk.drop w.snk.length := by
  decide +kernel

/-- ConstructBuildsTheSuffixArray, CompressAppendsTheArtifact, ArtifactSize: a block as long as NMAX. -/
theorem witness_ConstructBuildsTheSuffixArray :
    (loaded abab (small live)).fatal = false ∧ (loaded abab (small live)).wr.cnt = 0#3 ∧
      (loaded abab (small live)).len.toNat ≤ (loaded abab (small live)).nmax.toNat ∧
      (loaded abab (small live)).nmax.toNat ≤ (loaded abab (small live)).len.toNat := by decide

/-- ConstructAtTheEdges and CompressPreconditions: one byte more than NMAX, the empty block, and a pending bit. -/
theorem witness_ConstructAtTheEdges :
    (({ small live with len := 5#32 } : State).fatal = false ∧
      ({ small live with len := 5#32 } : State).wr.cnt = 0#3 ∧
      ({ small live with len := 5#32 } : State).nmax.toNat < ({ small live with len := 5#32 } : State).len.toNat) ∧
    live.len = 0#32 ∧ (writing 1#8 1#3 []).wr.cnt ≠ 0#3 := by decide

/-- CutoffDoesNotMatter, WorkStackFits, FrequencyCount, BuiltTrieInvariants, CodeTableHoldsThePaths and
CodesArePrefixFree: a block that is not empty and not too long. -/
theorem witness_a_block : abracadabra ≠ [] ∧ abracadabra.length < 2 ^ 32 := by decide

/-- PartitionPostcondition. -/
theorem witness_PartitionPostcondition :
    0 ≤ 3 ∧ ∃ c' lt stop, sortedAbab.css.partition 0 3 0 (sortedAbab.css.pivot 0 3 0) = (c', lt, stop) :=
  ⟨by decide, _, _, _, rfl⟩

/-- SufstartReturnsTheOffset: the last rank and the first one past it. -/
theorem witness_SufstartReturnsTheOffset :
    sortedAbab.fatal = false ∧ (sortedAbab.withArg 3#32).arg.toNat < (sortedAbab.withArg 3#32).css.slen.toNat ∧
      (sortedAbab.withArg 4#32).css.slen.toNat ≤ (sortedAbab.withArg 4#32).arg.toNat := by decide

/-- The sorter after `LOAD "BA"; CONSTRUCT` (vector C4), with the HOST about to issue SUFSTART 1. -/
def sortedBa : State := (sorted [0x42#8, 0x41#8] [1#32, 0#32]).withArg 1#32

/-- The suffix array of "BA" (vector C4). -/
theorem suffixArray_C4 : IsSuffixArray [0x42#8, 0x41#8] [1, 0] := by
  refine ⟨by decide, fun i a b ha hb => ?_⟩
  rcases i with _ | i
  · simp at ha hb
    subst ha hb
    exact Or.inl ⟨0, by decide, by decide, fun j hj => absurd hj (Nat.not_lt_zero j), by decide⟩
  · simp at hb

theorem sortedBa_inv : sortedBa.Inv where
  ibufWf := by decide
  obufWf := by decide
  dbWf := by decide
  idxWf := by decide
  ibufBound := fun _ _ => rfl
  obufValid := fun k hk => absurd hk (Nat.not_lt_zero k)
  olenBound := by decide
  released := fun h => absurd h (by decide)
  slenBound := by decide
  sorted := fun _ =>
    ⟨[0x42#8, 0x41#8], ⟨by decide, by decide, [1#32, 0#32], by decide, by decide⟩, by
      have h : sortedBa.css.ranks = [1, 0] := by decide +kernel
      rw [h]
      exact suffixArray_C4⟩
  workEmpty := rfl
  writerTop := by decide
  readerCount := by decide
  scratch := ⟨rfl, rfl, rfl, ⟨0, rfl⟩, ⟨0, rfl⟩, ⟨0, rfl⟩⟩

/-- SufstartAnswersFromTheBlock. -/
theorem witness_SufstartAnswersFromTheBlock :
    sortedBa.Inv ∧ sortedBa.fatal = false ∧ sortedBa.arg.toNat < sortedBa.css.slen.toNat :=
  ⟨sortedBa_inv, by decide, by decide⟩

/-- EveryStepKeepsTheInvariant. -/
theorem witness_EveryStepKeepsTheInvariant : sortedBa.Inv ∧ ∃ t, step sortedBa = .next t :=
  ⟨sortedBa_inv, _, rfl⟩

/-- CompressOfTheEmptyBlock. -/
theorem witness_CompressOfTheEmptyBlock : live.fatal = false ∧ live.wr.cnt = 0#3 ∧ live.len = 0#32 := by decide

/-- CompressOfOneDistinctByte, for the byte 0x00, whose placeholder is 0x01, and for another one; and ArtifactSize with
nine equal bytes. -/
theorem witness_CompressOfOneDistinctByte :
    ∀ v ∈ [0x00#8, 0x41#8],
      (loaded (List.replicate 9 v) live).fatal = false ∧ (loaded (List.replicate 9 v) live).wr.cnt = 0#3 ∧
      9 ≤ (loaded (List.replicate 9 v) live).len.toNat ∧
      (loaded (List.replicate 9 v) live).len.toNat ≤ (loaded (List.replicate 9 v) live).nmax.toNat ∧
      (loaded (List.replicate 9 v) live).len ≠ 0#32 ∧
      (loaded (List.replicate 9 v) live).block =
        List.replicate (loaded (List.replicate 9 v) live).len.toNat v := by decide +kernel

/-- RemoveMinTakesTheSmallestKey. -/
theorem witness_RemoveMinTakesTheSmallestKey : ([0#9, 1#9] : List NodeIdx) ≠ [] := by decide

/-- CodesArePrefixFree and CodeTableHoldsThePaths: two symbols with codes, neither empty. -/
theorem witness_CodesArePrefixFree :
    let code := (live.huf.prepare [0x41#8, 0x42#8]).codeAt
    code 0x41#8 ≠ [] ∧ code 0x42#8 ≠ [] ∧ ([0x41#8, 0x42#8].contains 0x41#8) = true := by decide +kernel

/-- FrequentBytesHaveShortCodes: 'A' is there five times, 'C' once. -/
theorem witness_FrequentBytesHaveShortCodes :
    abracadabra.length < 2 ^ 32 ∧ abracadabra.count 0x43#8 < abracadabra.count 0x41#8 ∧
      0 < abracadabra.count 0x43#8 := by decide

/-- TrieSectionSize. -/
theorem witness_TrieSectionSize : ([] : List Byte).length < 2 ^ 32 ∧ live.wr.cnt = 0#3 := by decide

/-- CompressDependsOnlyOnTheBlock: two states with the same block and different pasts. -/
theorem witness_CompressDependsOnlyOnTheBlock :
    let s := loaded abab live
    let s' := loaded abab (writing 0#8 0#3 [1#8])
    s.fatal = false ∧ s'.fatal = false ∧ s.wr.cnt = 0#3 ∧ s'.wr.cnt = 0#3 ∧ s.len.toNat ≤ s.nmax.toNat ∧
      s'.len.toNat ≤ s'.nmax.toNat ∧ s.len = s'.len ∧ s.block = s'.block ∧ s ≠ s' := by decide +kernel

/-- ExpandPrecondition. -/
theorem witness_ExpandPrecondition :
    (reading 0#8 7#4 []).fatal = false ∧ (reading 0#8 7#4 []).rd.cnt ≠ 0#4 := by decide

/-- A trie of 'A' and 'B' (vector H13). -/
def trieAb : Trie := .node (.leaf 0x41#8) (.leaf 0x42#8)

/-- ExpandDecodesAnArtifact: the artifact of vector H13, and a stray byte. -/
theorem witness_ExpandDecodesAnArtifact :
    let s := reading 0#8 0#4 [0x50#8, 0x68#8, 0x40#8, 0x40#8, 0x00#8, 0x00#8, 0x08#8, 0xDE#8]
    (s.fatal = false ∧ s.rd.cnt = 0#4 ∧ (2#32 : Word).toNat ≤ s.nmax.toNat ∧ trieAb.branches = true ∧
      trieAb.size ≤ 511 ∧ [0x41#8, 0x42#8].length = (2#32 : Word).toNat ∧ (List.replicate 3 false).length < 8 ∧
      bitsOfBytes s.rd.src =
        artifactBits trieAb 2#32 [[false], [true]] ++ List.replicate 3 false ++ bitsOfBytes [0xDE#8]) ∧
    CodesOf trieAb [[false], [true]] [0x41#8, 0x42#8] :=
  ⟨by decide +kernel, .cons (by decide) (.cons (by decide) .nil)⟩

/-- ExpandOfARootLeaf: vectors H25, length 0, and H24, length 1. -/
theorem witness_ExpandOfARootLeaf :
    let s := reading 0#8 0#4 [0xFF#8, 0x80#8, 0x00#8, 0x00#8, 0x00#8, 0x00#8]
    let s' := reading 0#8 0#4 [0x80#8, 0x00#8, 0x80#8, 0x00#8, 0x00#8, 0x00#8]
    s.fatal = false ∧ s.rd.cnt = 0#4 ∧ (1#32 : Word).toNat ≤ s.nmax.toNat ∧ (List.replicate 7 false).length < 8 ∧
    bitsOfBytes s.rd.src =
      (Trie.leaf 0xFF#8).section ++ lengthBits 0#32 ++ List.replicate 7 false ++ bitsOfBytes [] ∧
    bitsOfBytes s'.rd.src =
      (Trie.leaf 0x00#8).section ++ lengthBits 1#32 ++ List.replicate 7 false ++ bitsOfBytes [] := by
  decide +kernel

/-- The trie that has the given number of internal nodes, each the left child of the one before, and leaves 0x00. -/
def comb : Nat → Trie
  | 0 => .leaf 0#8
  | inner + 1 => .node (comb inner) (.leaf 0#8)

/-- ExpandRejectsWhatDoesNotFit: vector H36, 511 internal nodes and no more of the trie, one bit and one byte after them. -/
theorem witness_ExpandRejectsWhatDoesNotFit_trie :
    bitsOfBytes (List.replicate 65 0#8) =
      ((comb 511).records.take 511).flatMap recordBits ++ [false] ++ bitsOfBytes [0#8] ∧
    511 < (comb 511).size ∧ [false].length < 8 ∧ (reading 0#8 0#4 (List.replicate 65 0#8)).fatal = false ∧
    (reading 0#8 0#4 (List.replicate 65 0#8)).rd.cnt = 0#4 := by decide +kernel

/-- ExpandRejectsWhatDoesNotFit: the trie of the fewest nodes above NODE_MAX, whose section is in SRC but for two leaves. -/
theorem witness_ExpandRejectsWhatDoesNotFit_fewest :
    511 < (comb 256).size ∧ (comb 256).size = 513 ∧ ((comb 256).records.take 511).length = 511 := by decide +kernel

/-- ExpandRejectsWhatDoesNotFit: vector H38 without its body, NMAX = 4 and a declared length of 5. -/
theorem witness_ExpandRejectsWhatDoesNotFit_length :
    let s := small (reading 0#8 0#4 [0x50#8, 0x68#8, 0x40#8, 0xA0#8, 0x00#8, 0x00#8, 0x0A#8])
    trieAb.size ≤ 511 ∧ s.nmax.toNat < (5#32 : Word).toNat ∧ [false, true, false, true, false].length < 8 ∧
    bitsOfBytes s.rd.src =
      trieAb.section ++ lengthBits 5#32 ++ [false, true, false, true, false] ++ bitsOfBytes [] := by decide +kernel

/-- ExpandReportsExhaustion: 63 bytes of 00, the most whole bytes that end inside the first 511 records of a trie of 1023
nodes, which the arena has no room for. -/
theorem witness_ExpandReportsExhaustion_large :
    let s := reading 0#8 0#4 (List.replicate 63 0#8)
    s.fatal = false ∧ s.rd.cnt = 0#4 ∧ List.replicate 7 false ≠ [] ∧ (comb 511).size = 1023 ∧
      ((comb 511).records.take 511).flatMap recordBits = bitsOfBytes s.rd.src ++ List.replicate 7 false := by
  decide +kernel

/-- ExpandReportsExhaustion: vectors H23, which ends inside a leaf's symbol, and H30, which ends inside the body. -/
theorem witness_ExpandReportsExhaustion :
    (let s := reading 0#8 0#4 [0xFF#8]
     s.fatal = false ∧ s.rd.cnt = 0#4 ∧ (Trie.leaf 0xFF#8).size ≤ 511 ∧ true :: lengthBits 0#32 ≠ [] ∧
      (Trie.leaf 0xFF#8).section ++ lengthBits 0#32 = bitsOfBytes s.rd.src ++ true :: lengthBits 0#32) ∧
    (let s := reading 0#8 0#4 [0x50#8, 0x68#8, 0x40#8, 0xC0#8, 0x00#8, 0x00#8, 0x0A#8]
     s.fatal = false ∧ s.rd.cnt = 0#4 ∧ trieAb.size ≤ 511 ∧ [false] ≠ [] ∧ (6#32 : Word).toNat ≤ s.nmax.toNat ∧
      [0x41#8, 0x42#8, 0x41#8, 0x42#8, 0x41#8, 0x41#8].length = (6#32 : Word).toNat ∧
      artifactBits trieAb 6#32 [[false], [true], [false], [true], [false], [false]] =
        bitsOfBytes s.rd.src ++ [false]) ∧
    CodesOf trieAb [[false], [true], [false], [true], [false], [false]]
      [0x41#8, 0x42#8, 0x41#8, 0x42#8, 0x41#8, 0x41#8] :=
  ⟨by decide +kernel, by decide +kernel,
    .cons rfl (.cons rfl (.cons rfl (.cons rfl (.cons rfl (.cons rfl .nil)))))⟩

/-- SuffixArrayScriptReadsTheArray: bytes that fit NMAX exactly, one byte more, and FATAL = 1. -/
theorem witness_SuffixArrayScriptReadsTheArray :
    abab.length < 2 ^ 32 ∧ (small live).fatal = false ∧ abab.length ≤ (small live).nmax.toNat ∧
      (small live).nmax.toNat < (0x41#8 :: abab).length ∧ dead.fatal = true := by decide

/-- ExpandDependsOnlyOnTheSource: two states with the same SRC and different pasts. -/
theorem witness_ExpandDependsOnlyOnTheSource :
    let s := reading 0#8 0#4 [0x80#8]
    let s' := reading 0xFF#8 0#4 [0x80#8]
    s.fatal = false ∧ s'.fatal = false ∧ s.rd.cnt = 0#4 ∧ s'.rd.cnt = 0#4 ∧ s.rd.src = s'.rd.src ∧
      s.nmax = s'.nmax ∧ s ≠ s' := by decide

/-- RoundTrip: the artifact of vector H1 is what COMPRESS appends for the empty block, and a stray byte follows it. -/
theorem witness_RoundTrip :
    let u := reading 0#8 0#4 ([0x80#8, 0x00#8, 0x00#8, 0x00#8, 0x00#8, 0x00#8] ++ [0xAA#8])
    (live.fatal = false ∧ live.wr.cnt = 0#3 ∧ live.len.toNat ≤ live.nmax.toNat ∧ u.fatal = false ∧
      u.rd.cnt = 0#4 ∧ live.len.toNat ≤ u.nmax.toNat) ∧
    (nextOf (exec .compress live)).map (fun t => t.wr.snk ++ [0xAA#8]) = some u.rd.src := by decide +kernel

/-- TruncationIsReported: the artifact of vector H1 without its last byte. -/
theorem witness_TruncationIsReported :
    let u := reading 0#8 0#4 [0x80#8, 0x00#8, 0x00#8, 0x00#8, 0x00#8]
    (u.fatal = false ∧ u.rd.cnt = 0#4 ∧ live.len.toNat ≤ u.nmax.toNat) ∧
    (nextOf (exec .compress live)).map (fun t => t.wr.snk.take 5) = some u.rd.src := by decide +kernel

end Sys2Proof.Tests
end

namespace Sys2Proof.Machine

/-- A word that decodes to a command is issued as that command (R23, R90). -/
theorem issue_of_decode {w : Byte} {i : Instr} (hw : decode w = .ok i) (s : State) : issue w s = exec i s := by
  unfold issue
  rw [hw]

/-- A write to CMD issues bits 7:0 of the written data (R23). -/
theorem hostMove_writeCmd (v : Word) (s : State) : hostMove (.writeReg 0 v) s = issue (v.setWidth 8) s := rfl

/-- Settles O4: the step is the write to CMD, and that write issues the decoded command. -/
theorem stepRunsTheIssuedCommand : Obligations.StepRunsTheIssuedCommand := by
  intro s v rest i hscript hdecode
  rw [step_of_script hscript, hostMove_writeCmd, issue_of_decode hdecode]

end Sys2Proof.Machine

namespace Sys2Proof.Machine

/-! ## The invariant, command by command and move by move -/

/-- A memory that holds exactly a list of values from index 0 on is in the canonical form. -/
theorem Memory.wf_of_cells {α : Type} {m : Memory α} {values : List α} (h : m.cells = cellsFrom 0 values) :
    m.wf = true := by
  rw [Memory.wf, h]
  exact risingFrom_cellsFrom values 0

/-- The end of COMPRESS or EXPAND leaves the scratch unspecified (R203, R234). -/
theorem scratchUnspecified_discard (h : HufScratch) : ScratchUnspecified h.discard :=
  ⟨rfl, rfl, rfl, ⟨_, rfl⟩, ⟨_, rfl⟩, ⟨_, rfl⟩⟩

/-- COMPRESS only writes bits and flushes, so WACC's unused bits stay 0 (R110). -/
theorem TopClear.emit {w : BitWriter} (hw : w.TopClear) {block : List Byte} (hl : block.length < 2 ^ 32)
    (h : HufScratch) (n : Word) : ((h.prepare block).emit n block w).TopClear := by
  rw [emit_eq h hl]
  exact TopClear.flushBits (TopClear.putBits hw _)

theorem block_length_lt (s : State) : s.block.length < 2 ^ 32 := by
  rw [block_length]
  exact s.len.isLt

/-- CONSTRUCT of a block that fits leaves the sorter as the invariant wants it (R143). -/
theorem State.Inv.construct {s : State} (hs : s.Inv) (fits : s.len.toNat ≤ s.nmax.toNat) :
    ({ s with css := s.css.build Config.cutoff s.block } : State).Inv := by
  obtain ⟨⟨hslen, hdb, offsets, hidx, hoffsets⟩, harray, hvalid, hwork, -⟩ :=
    build_spec Config.cutoff s.css (block_length_lt s)
  exact
    { hs with
      dbWf := Memory.wf_of_cells hdb
      idxWf := Memory.wf_of_cells hidx
      released := fun hinvalid => Bool.noConfusion (hinvalid.symm.trans hvalid)
      slenBound := (hslen.trans (block_length s)).trans_le fits
      sorted := fun _ => ⟨s.block, ⟨hslen, hdb, offsets, hidx, hoffsets⟩, harray⟩
      workEmpty := hwork }

/-- EXPAND that ends normally leaves `len` specified bytes in OBUF (R31). -/
theorem obufValid_fill (obuf : Memory Byte) {out : List Byte} {len : Nat} (all : out.length = len) :
    ∀ k, k < len → ((obuf.fill out).get? k).isSome = true := by
  intro k hk
  rw [Memory.get?_fill, List.getElem?_eq_getElem (all ▸ hk)]
  rfl

/-- Whatever the pseudocode of a command does, its reported end has the invariant. -/
theorem Ran.inv {i : Instr} {s : State} {a : Attempt State Word} (ran : Ran i s a) (hs : s.Inv) : (report a).Inv := by
  cases ran with
  | wbit b => exact { hs with writerTop := TopClear.putBit hs.writerTop b }
  | wbyte v => exact { hs with writerTop := TopClear.putBits hs.writerTop (bitsOfByte v) }
  | flush => exact { hs with writerTop := TopClear.flushBits hs.writerTop }
  | rbit _ _ _ count | rbyte _ _ _ count => exact { hs with readerCount := count hs.readerCount }
  | construct fits => exact { hs.construct fits with }
  | release =>
    exact
      { hs with
        dbWf := Memory.wf_forget _
        idxWf := Memory.wf_forget _
        released := fun _ => rfl
        slenBound := Nat.zero_le _
        sorted := fun hvalid => Bool.noConfusion hvalid }
  | compress =>
    exact
      { hs with
        writerTop := TopClear.emit hs.writerTop (block_length_lt s) _ _
        scratch := scratchUnspecified_discard _ }
  | expand len out d fits all =>
    exact
      { hs with
        obufWf := Memory.wf_fill _ _
        obufValid := obufValid_fill _ all
        olenBound := fits
        readerCount := Nat.zero_le _
        scratch := scratchUnspecified_discard _ }
  | expandRejected =>
    exact
      { hs with
        obufWf := Memory.wf_forget _
        obufValid := fun _ hk => absurd hk (Nat.not_lt_zero _)
        olenBound := Nat.zero_le _
        readerCount := Nat.zero_le _
        scratch := scratchUnspecified_discard _ }
  | _ => exact { hs with }

theorem exec_inv {i : Instr} {s t : State} (hs : s.Inv) (h : exec i s = .next t) : t.Inv := by
  rcases exec_cases h with ⟨-, rfl⟩ | ⟨-, a, ran, rfl⟩
  · exact { hs with }
  · exact ran.inv { hs with }

theorem illegalWord_inv {s : State} (hs : s.Inv) : (illegalWord s).Inv := by
  rcases Bool.eq_false_or_eq_true s.fatal with hfatal | hlive
  · rw [illegalWord, runCommand_fatal _ hfatal]
    exact { hs with }
  · rw [illegalWord, runCommand_live _ hlive]
    exact { hs with }

/-- A byte written below NMAX keeps IBUF canonical and within NMAX (R30). -/
theorem State.Inv.writeIbuf {s : State} (hs : s.Inv) {k : Nat} (below : k < s.nmax.toNat) (v : Byte) :
    ({ s with ibuf := s.ibuf.set k v } : State).Inv :=
  { hs with
    ibufWf := Memory.wf_set k v hs.ibufWf
    ibufBound := fun j (hj : s.nmax.toNat ≤ j) =>
      (Memory.get?_set_other _ v (below.trans_le hj).ne').trans (hs.ibufBound j hj) }

/-- The state after the reset move has the invariant, whatever the state before (R290 to R294). -/
theorem afterReset_inv (s : State) (src : List Byte) : (s.afterReset src).Inv where
  ibufWf := Memory.wf_forget _
  obufWf := Memory.wf_forget _
  dbWf := Memory.wf_forget _
  idxWf := Memory.wf_forget _
  ibufBound := fun _ _ => rfl
  obufValid := fun _ hk => absurd hk (Nat.not_lt_zero _)
  olenBound := Nat.zero_le _
  released := fun _ => rfl
  slenBound := Nat.zero_le _
  sorted := fun hvalid => Bool.noConfusion hvalid
  workEmpty := rfl
  writerTop := Nat.one_pos
  readerCount := Nat.zero_le _
  scratch := scratchUnspecified_discard _

/-- Settles O58, over everything a step can do. -/
theorem everyStepKeepsTheInvariant : Obligations.EveryStepKeepsTheInvariant := by
  intro s t hs h
  have htaking (rest : List HostMove) : (s.taking rest).Inv := { hs with }
  cases step_cases h with
  | command _ rest _ _ _ _ run => exact exec_inv (htaking rest) run
  | illegal _ rest => exact illegalWord_inv (htaking rest)
  | writeIbuf _ v rest _ below => exact (htaking rest).writeIbuf below v
  | reset src rest => exact afterReset_inv (s.taking rest) src
  | _ => exact { hs with }

/-! ## What the commands write -/

theorem Ran.css_eq {i : Instr} {s : State} {a : Attempt State Word} (ran : Ran i s a) (hc : i ≠ .construct)
    (hr : i ≠ .release) : (report a).css = s.css := by
  cases ran with
  | construct => exact absurd rfl hc
  | release => exact absurd rfl hr
  | _ => rfl

theorem Ran.huf_eq {i : Instr} {s : State} {a : Attempt State Word} (ran : Ran i s a) (hc : i ≠ .compress)
    (he : i ≠ .expand) : (report a).huf = s.huf := by
  cases ran with
  | compress => exact absurd rfl hc
  | expand | expandRejected => exact absurd rfl he
  | _ => rfl

theorem Ran.wr_eq {i : Instr} {s : State} {a : Attempt State Word} (ran : Ran i s a) (hbit : i ≠ .wbit)
    (hbyte : i ≠ .wbyte) (hf : i ≠ .flush) (hc : i ≠ .compress) : (report a).wr = s.wr := by
  cases ran with
  | wbit => exact absurd rfl hbit
  | wbyte => exact absurd rfl hbyte
  | flush => exact absurd rfl hf
  | compress => exact absurd rfl hc
  | _ => rfl

theorem Ran.rd_eq {i : Instr} {s : State} {a : Attempt State Word} (ran : Ran i s a) (hbit : i ≠ .rbit)
    (hbyte : i ≠ .rbyte) (he : i ≠ .expand) : (report a).rd = s.rd := by
  cases ran with
  | rbit => exact absurd rfl hbit
  | rbyte => exact absurd rfl hbyte
  | expand | expandRejected => exact absurd rfl he
  | _ => rfl

theorem Ran.obuf_eq {i : Instr} {s : State} {a : Attempt State Word} (ran : Ran i s a) (he : i ≠ .expand) :
    (report a).obuf = s.obuf ∧ (report a).olen = s.olen := by
  cases ran with
  | expand | expandRejected => exact absurd rfl he
  | _ => exact ⟨rfl, rfl⟩

/-- Settles O15, one unit at a time. -/
theorem commandsWriteOnlyTheirUnits : Obligations.CommandsWriteOnlyTheirUnits := by
  intro i s t h
  rcases exec_cases h with ⟨-, rfl⟩ | ⟨-, a, ran, rfl⟩
  · exact ⟨fun _ _ => rfl, fun _ _ => rfl, fun _ _ _ _ => rfl, fun _ _ _ => rfl, fun _ => ⟨rfl, rfl⟩⟩
  · exact ⟨ran.css_eq, ran.huf_eq, ran.wr_eq, ran.rd_eq, ran.obuf_eq⟩

/-- Settles O16: in none of the cases of a command is one of these fields written. -/
theorem engineNeverWritesHostInputs : Obligations.EngineNeverWritesHostInputs := by
  intro i s t h
  rcases exec_cases h with ⟨-, rfl⟩ | ⟨-, a, ran, rfl⟩
  · exact ⟨rfl, rfl, rfl, rfl, rfl⟩
  · cases ran <;> exact ⟨rfl, rfl, rfl, rfl, rfl⟩

/-! ## The streams -/

theorem Ran.snk_prefix {i : Instr} {s : State} {a : Attempt State Word} (ran : Ran i s a) :
    s.wr.snk <+: (report a).wr.snk := by
  cases ran with
  | wbit b => exact putBits_snk s.wr [b]
  | wbyte v => exact putBits_snk s.wr (bitsOfByte v)
  | flush =>
    obtain ⟨hsnk, -⟩ := flushBits_spec s.wr
    exact ⟨_, hsnk.symm⟩
  | compress _ empty =>
    obtain ⟨hsnk, -⟩ := emit_spec s.huf (block_length_lt s) s.len s.wr empty
    exact ⟨_, hsnk.symm⟩
  | _ => exact List.prefix_refl _

theorem Ran.src_suffix {i : Instr} {s : State} {a : Attempt State Word} (ran : Ran i s a) :
    (report a).rd.src <:+ s.rd.src := by
  cases ran with
  | rbit _ _ suffix | rbyte _ _ suffix => exact suffix
  | expand _ _ _ _ _ fetched | expandRejected _ _ _ _ _ fetched => exact fetched.suffix
  | _ => exact List.suffix_refl _

/-- Settles O17: SNK and SRC over the cases of a command. -/
theorem streamsMoveOneWay : Obligations.StreamsMoveOneWay := by
  intro i s t h
  rcases exec_cases h with ⟨-, rfl⟩ | ⟨-, a, ran, rfl⟩
  · exact ⟨List.prefix_refl _, List.suffix_refl _⟩
  · exact ⟨ran.snk_prefix, ran.src_suffix⟩

/-! ## Registers by number -/

theorem writeReg_of_three_le (s : State) {n : Nat} (h : 3 ≤ n) (v : Word) : s.writeReg n v = s := by
  match n, h with
  | _ + 3, _ => rfl

theorem readReg_of_six_le (s : State) {n : Nat} (h : 6 ≤ n) : s.readReg n = 0#32 := by
  match n, h with
  | _ + 6, _ => rfl

/-- A write to any register but CMD is the register file's write (R22). -/
theorem hostMove_writeReg (s : State) {n : Nat} (h : n ≠ 0) (v : Word) :
    hostMove (.writeReg n v) s = .next (s.writeReg n v) := if_neg h

/-- A read is seen by the HOST and changes nothing else (R22). -/
theorem hostMove_readReg (s : State) (n : Nat) : hostMove (.readReg n) s = .next (s.see (.word (s.readReg n))) := rfl

/-- Settles O6: the step is the access at the script's head, by the register's number. -/
theorem hostRegisterAccesses : Obligations.HostRegisterAccesses := by
  intro s rest n v after sees
  refine ⟨fun hscript => ?_, fun hscript => ?_⟩
  · rw [step_of_script hscript]
    refine ⟨?_, ?_, fun hn => ?_⟩
    · rintro rfl; rfl
    · rintro rfl; rfl
    · rw [hostMove_writeReg _ (by omega), writeReg_of_three_le _ hn]
  · rw [step_of_script hscript, hostMove_readReg]
    refine ⟨?_, ?_, ?_, ?_, ?_, ?_, fun hn => by rw [readReg_of_six_le _ hn]⟩
    all_goals rintro rfl; rfl

/-! ## STAT -/

/-- Bit `i` of STAT: the fields in rising order of their places, the reserved bits 0 (R27, R96). -/
theorem stat_getLsbD (s : State) (i : Nat) :
    s.stat.getLsbD i =
      if i < 4 then s.errCode.getLsbD i
      else if i < 5 then s.css.svalid
      else if i < 6 then s.fatal
      else if i < 7 then s.eos
      else if i < 8 then false
      else if i < 11 then s.wr.cnt.getLsbD (i - 8)
      else if i < 12 then false
      else if i < 16 then s.rd.cnt.getLsbD (i - 12)
      else false := by
  -- The law of `++` counts a bit's place from the field's start, the statement from bit 0.
  have place (a : Nat) {w : Nat} (hw : 0 < w) : i - a < w ↔ i < a + w := by omega
  unfold State.stat
  iterate 8 rw [BitVec.getLsbD_append]
  simp only [Nat.sub_sub, place, Nat.zero_lt_succ, flagBit, BitVec.getLsbD_zero, BitVec.getLsbD_ofBool]
  split_ifs <;> simp <;> omega

/-- A field of STAT is given by its bits. -/
theorem stat_extractLsb'_eq {w : Nat} (s : State) (start : Nat) (field : BitVec w)
    (h : ∀ i < w, s.stat.getLsbD (start + i) = field.getLsbD i) : s.stat.extractLsb' start w = field :=
  BitVec.eq_of_getLsbD_eq fun i hi => by
    rw [BitVec.getLsbD_extractLsb', h i hi, decide_eq_true hi, Bool.true_and]

/-- ERR is 0 when the most recent command ended normally (R27). -/
theorem errCode_of_none {s : State} (h : s.err = none) : s.errCode = 0#4 := by rw [State.errCode, h]

theorem errCode_of_err {s : State} {k : ErrKind} (h : s.err = some k) : s.errCode = k.code := by
  rw [State.errCode, h]

/-- The codes 7 to 15 are reserved (R250). -/
theorem errCode_le (s : State) : s.errCode.toNat ≤ 6 := by
  cases h : s.err with
  | none => rw [errCode_of_none h]; decide
  | some k => rw [errCode_of_err h]; cases k <;> decide

/-- Settles O7, from the bits of STAT and the code of each kind. -/
theorem statFieldsAtTheirPlaces : Obligations.StatFieldsAtTheirPlaces := by
  intro s
  refine ⟨stat_extractLsb'_eq s 0 _ fun i hi => ?_, stat_getLsbD s 4, stat_getLsbD s 5, stat_getLsbD s 6,
    stat_getLsbD s 7, stat_extractLsb'_eq s 8 _ fun i hi => ?_, stat_getLsbD s 11,
    stat_extractLsb'_eq s 12 _ fun i hi => ?_, stat_extractLsb'_eq s 16 _ fun i hi => ?_,
    errCode_of_none, errCode_of_err, errCode_of_err, errCode_of_err, errCode_of_err,
    errCode_of_err, errCode_of_err, errCode_le s⟩
  all_goals
    rw [stat_getLsbD]
    simp (disch := omega) only [if_pos, if_neg, Nat.zero_add, Nat.add_sub_cancel_left, BitVec.getLsbD_zero]

end Sys2Proof.Machine

namespace Sys2Proof.Machine

/-! ## The decoder and the encoder -/

/-- A word is given by its two fields: `OP = UNIT*16 + FN` (R90). -/
theorem toNat_eq_fields (w : Byte) : w.toNat = 16 * unitField w + fnField w := by
  simp only [unitField, fnField, BitVec.extractLsb'_toNat, Nat.shiftRight_eq_div_pow]
  omega

/-- The encoder writes the word of each row of the opcode map (R91). -/
theorem encode_of_row {r : OpcodeRow} (h : r ∈ opcodeMap) : (encode r.instr).toNat = 16 * r.unit + r.fn := by
  revert r
  decide

/-- A word that decodes to a command has the fields of one of that command's rows (R93). -/
theorem row_of_decode {w : Byte} {i : Instr} (h : decode w = .ok i) :
    ∃ r ∈ opcodeMap, r.instr = i ∧ r.unit = unitField w ∧ r.fn = fnField w := by
  unfold decode at h
  split at h
  · rename_i r hfind
    have hfields := List.find?_some hfind
    simp only [Bool.and_eq_true, beq_iff_eq] at hfields
    injection h with hinstr
    exact ⟨r, List.mem_of_find?_eq_some hfind, hinstr, hfields⟩
  · split at h <;> cases h

theorem decode_encode (i : Instr) : decode (encode i) = .ok i := by cases i <;> rfl

theorem encode_of_decode {w : Byte} {i : Instr} (h : decode w = .ok i) : encode i = w := by
  obtain ⟨r, hr, rfl, hunit, hfn⟩ := row_of_decode h
  exact BitVec.eq_of_toNat_eq (by rw [encode_of_row hr, toNat_eq_fields w, hunit, hfn])

/-- Settles O1: a word is its two fields, and the opcode map lists those of every command. -/
theorem decodeEncodeAgree : Obligations.DecodeEncodeAgree := ⟨decode_encode, fun _ _ => encode_of_decode⟩

/-- Settles O2: the listed words are those of the encoder. -/
theorem elevenWordsDecodeAsListed : Obligations.ElevenWordsDecodeAsListed :=
  ⟨decode_encode .wbit, decode_encode .wbyte, decode_encode .flush, decode_encode .rbit, decode_encode .rbyte,
    decode_encode .construct, decode_encode .length, decode_encode .sufstart, decode_encode .release,
    decode_encode .compress, decode_encode .expand⟩

/-! ## Illegal words -/

/-- The 245 words that no command has (R95). -/
def UnlistedWord (w : Nat) : Prop :=
  w ≤ 0x0F ∨ (0x15 ≤ w ∧ w ≤ 0x1F) ∨ (0x24 ≤ w ∧ w ≤ 0x2F) ∨ 0x32 ≤ w

theorem encode_not_unlisted (i : Instr) : ¬ UnlistedWord (encode i).toNat := by
  cases i <;> simp [UnlistedWord, encode]

/-- An unlisted word decodes to no command, since it would be that command's word. -/
theorem decode_of_unlisted {w : Byte} (hw : UnlistedWord w.toNat) : ∃ e, decode w = .error e := by
  cases h : decode w with
  | ok i => exact absurd (encode_of_decode h ▸ hw) (encode_not_unlisted i)
  | error e => exact ⟨e, rfl⟩

theorem issue_of_unlisted {w : Byte} (hw : UnlistedWord w.toNat) (s : State) :
    issue w s = .next (illegalWord s) := by
  obtain ⟨e, he⟩ := decode_of_unlisted hw
  rw [issue, he]

/-- Settles O3: the write to CMD issues an unlisted word, and the frame of R258 reports it. -/
theorem illegalWordChangesOnlyTheReport : Obligations.IllegalWordChangesOnlyTheReport := by
  intro s v rest w after hscript hw
  have hstep : step s = .next (illegalWord after) := by
    rw [step_of_script hscript, hostMove_writeCmd, issue_of_unlisted hw]
  refine ⟨fun hlive => ?_, fun hfatal => ?_⟩
  · rw [hstep, illegalWord, runCommand_live _ (by exact hlive)]
    simp [report, raiseError, after, hlive]
  · rw [hstep, illegalWord, runCommand_fatal _ (by exact hfatal)]

/-! ## COMPRESS -/

theorem overCapacity_eq_false {s : State} {n : Word} (h : n.toNat ≤ s.nmax.toNat) : s.overCapacity n = false :=
  decide_eq_false (Nat.not_lt.mpr h)

theorem overCapacity_eq_true {s : State} {n : Word} (h : s.nmax.toNat < n.toNat) : s.overCapacity n = true :=
  decide_eq_true h

/-- COMPRESS past its preconditions (R180, R181): the next state as a whole. -/
theorem exec_compress_of_fits {s : State} (hlive : s.fatal = false) (hcnt : s.wr.cnt = 0#3)
    (hfits : s.len.toNat ≤ s.nmax.toNat) :
    exec .compress s = .next { s with
      wr := (s.huf.prepare s.block).emit s.len s.block s.wr, huf := (s.huf.prepare s.block).discard
      eos := false, err := none, res := 0#32 } := by
  have hcap : ({ s with eos := false } : State).overCapacity s.len = false := overCapacity_eq_false hfits
  rw [exec_live _ hlive, bodyOf, compressBody, if_neg (by simpa using hcnt), hcap]
  rfl

/-- The trie of a block that is not empty has at least two leaves (R185). -/
theorem huffmanTrie_branches {block : List Byte} (h : block ≠ []) : (huffmanTrie block).branches = true := by
  rw [Trie.branches_iff, huffmanTrie_leaves h]
  exact le_max_right _ _

/-- Settles O38: the phases send the artifact to the packer (`emit_spec`), and the block's trie is a full binary tree with
each symbol once. -/
theorem compressAppendsTheArtifact : Obligations.CompressAppendsTheArtifact := by
  refine ⟨rfl, fun s hlive hcnt hfits => ⟨?_, fun hne => ?_⟩⟩
  · obtain ⟨hsnk, hcnt', hacc⟩ := emit_spec s.huf (block_length_lt s) s.len s.wr hcnt
    exact ⟨_, _, exec_compress_of_fits hlive hcnt hfits, hsnk, hcnt', hacc, scratchUnspecified_discard _⟩
  · exact ⟨huffmanCode_codes _, huffmanTrie_branches hne, huffmanTrie_nodup hne⟩

/-! ## EXPAND -/

/-- EXPAND of a source that reads as an artifact (R220, R231): the next state as a whole. -/
theorem exec_expand_of_readArtifact {s : State} (hlive : s.fatal = false) (hcnt : s.rd.cnt = 0#4) {n : Word}
    {out : List Byte} {d : Decoder}
    (hread : Decoder.readArtifact s.nmax { rd := s.rd, huf := s.huf.startRead } = .ok (n, out) d) :
    exec .expand s = .next { s with
      rd := d.rd.dropBits, obuf := s.obuf.fill out, huf := d.huf.discard, olen := n
      eos := false, err := none, res := 0#32 } := by
  rw [exec_live _ hlive, bodyOf, expandBody, if_neg (by simpa using hcnt)]
  simp only [hread]
  rfl

/-- A reader that delivered at least one bit of whole bytes has taken a byte, and RBUF is the last one taken (R38). -/
theorem Fetched.exists_front {r r' : BitReader} (h : Fetched r r') (hshort : r'.src.length < r.src.length) :
    ∃ front, r.src = front ++ r'.buf :: r'.src := by
  rcases h.taken with ⟨hsrc, -⟩ | hfront
  · rw [hsrc] at hshort
    exact absurd hshort (Nat.lt_irrefl _)
  · exact hfront

/-- Every artifact has its length field. -/
theorem artifactBits_length_pos (trie : Trie) (n : Word) (codes : List (List Bool)) :
    0 < (artifactBits trie n codes).length := by
  simp only [artifactBits, List.length_append, lengthBits_length]
  omega

/-- Settles O51: the phases of EXPAND read the artifact (`readArtifact_ok`), and fewer than eight bits are left in RBUF. -/
theorem expandDecodesAnArtifact : Obligations.ExpandDecodesAnArtifact := by
  refine ⟨rfl, fun s trie n codes out pad extra hlive hcnt hfits hbranches hsize hout hcodes hpad hsrc => ?_⟩
  have hpending : s.rd.pendingBits = artifactBits trie n codes ++ (pad ++ bitsOfBytes extra) := by
    rw [pendingBits_of_aligned hcnt, hsrc, List.append_assoc]
  obtain ⟨d, hread, hrest, hfetched⟩ :=
    readArtifact_ok (d := { rd := s.rd, huf := s.huf.startRead }) (nmax := s.nmax) rfl (by simp [hcnt]) hfits hbranches
      hsize hout hcodes hpending
  have hextra : d.rd.src = extra :=
    src_of_pending hfetched.count hpad hrest hfetched.suffix (suffix_of_bits hsrc)
  have hshort : d.rd.src.length < s.rd.src.length := by
    have hlen := congrArg List.length hsrc
    have hpos := artifactBits_length_pos trie n codes
    simp only [List.length_append, bitsOfBytes_length] at hlen
    rw [hextra]
    omega
  obtain ⟨front, hfront⟩ := hfetched.exists_front hshort
  refine ⟨d.rd.buf, front, s.obuf.fill out, d.huf.discard, ?_, hextra ▸ hfront, Memory.get?_fill _ _,
    scratchUnspecified_discard _⟩
  rw [exec_expand_of_readArtifact hlive hcnt hread, BitReader.dropBits, hextra]

/-! ## SUFFIXARRAY -/

/-- CONSTRUCT of a block that fits (R141): the next state as a whole. -/
theorem exec_construct_of_fits {s : State} (hlive : s.fatal = false) (hfits : s.len.toNat ≤ s.nmax.toNat) :
    exec .construct s = .next { s with
      css := s.css.build Config.cutoff s.block, eos := false, err := none, res := 0#32 } := by
  have hcap : ({ s with eos := false } : State).overCapacity s.len = false := overCapacity_eq_false hfits
  rw [exec_live _ hlive, bodyOf, constructBody, hcap]
  rfl

/-- CONSTRUCT of a block that does not fit (R141): the next state as a whole. -/
theorem exec_construct_of_overCapacity {s : State} (hlive : s.fatal = false) (hover : s.nmax.toNat < s.len.toNat) :
    exec .construct s = .next { s with eos := false, err := some .capacityExceeded, res := 0#32 } := by
  have hcap : ({ s with eos := false } : State).overCapacity s.len = true := overCapacity_eq_true hover
  rw [exec_live _ hlive, bodyOf, constructBody, hcap]
  simp [report, raiseError, hlive]

/-- LENGTH returns SLEN (R145): the next state as a whole. -/
theorem exec_length_of_live {s : State} (hlive : s.fatal = false) :
    exec .length s = .next { s with eos := false, err := none, res := s.css.slen } := by
  rw [exec_live _ hlive]
  rfl

/-- `SUFFIXARRAY` as far as its LENGTH (R102): the HOST reads the RES of the LENGTH. -/
theorem runMoves_suffixArrayHead {bytes : List Byte} {s u v w : State} (hload : runMoves (scriptLoad bytes) s = .next u)
    (hconstruct : exec .construct u = .next v) (hlength : exec .length v = .next w) :
    runMoves (scriptSuffixArrayHead bytes) s = .next (w.see (.word w.res)) := by
  have hsorted := (runMoves_append hload).trans (runMoves_command hconstruct)
  have hmeasured := (runMoves_append hsorted).trans (runMoves_command hlength)
  exact (runMoves_append hmeasured).trans (runMoves_getReg 3 w)

/-- `SUFFIXARRAY` goes on with as many rounds as the RES its head leaves (R102). -/
theorem runMoves_suffixArray {bytes : List Byte} {s t : State}
    (hhead : runMoves (scriptSuffixArrayHead bytes) s = .next t) :
    runMoves (scriptSuffixArray bytes s) s = runMoves (scriptSuffixStarts t.res) t := by
  rw [scriptSuffixArray, runMoves_append hhead, hhead]

/-- While FATAL = 0 the HOST reads what CSS holds after the CONSTRUCT, accepted or refused: SLEN and the offsets. -/
theorem runMoves_suffixArray_live {bytes : List Byte} {s u v : State} (hlive : v.fatal = false)
    (hload : runMoves (scriptLoad bytes) s = .next u) (hconstruct : exec .construct u = .next v) :
    ∃ t, runMoves (scriptSuffixArray bytes s) s = .next t ∧ t.css = v.css ∧
      t.host.seen = v.host.seen ++ .word v.css.slen ::
        (List.range v.css.slen.toNat).map (fun i => .word (v.css.idxAt i)) := by
  have hhead := runMoves_suffixArrayHead hload hconstruct (exec_length_of_live hlive)
  obtain ⟨t, hstarts, hcss, hseen⟩ :=
    runMoves_suffixStarts (List.range v.css.slen.toNat)
      (({ v with eos := false, err := none, res := v.css.slen } : State).see (.word v.css.slen)) hlive
      (fun i hi => List.mem_range.mp hi)
  refine ⟨t, (runMoves_suffixArray hhead).trans hstarts, hcss, ?_⟩
  rw [hseen]
  simp

/-- While FATAL = 1 every command is refused, and the HOST reads one 0 (R258). -/
theorem runMoves_suffixArray_fatal {bytes : List Byte} {s u : State} (hfatal : u.fatal = true)
    (hload : runMoves (scriptLoad bytes) s = .next u) :
    ∃ t, runMoves (scriptSuffixArray bytes s) s = .next t ∧ t.host.seen = u.host.seen ++ [.word 0#32] := by
  have hhead := runMoves_suffixArrayHead hload (exec_fatal .construct hfatal) (exec_fatal .length hfatal)
  exact ⟨_, runMoves_suffixArray hhead, rfl⟩

/-- Settles O60: the LOAD, then the CONSTRUCT refused by FATAL, accepted, or refused by NMAX. -/
theorem suffixArrayScriptReadsTheArray : Obligations.SuffixArrayScriptReadsTheArray := by
  intro s bytes hbound
  obtain ⟨m, hload, hblock⟩ := runMoves_load bytes s hbound
  set u : State := { s with ibuf := m, len := BitVec.ofNat 32 bytes.length }
  have hlen : u.len.toNat = bytes.length := by
    rw [BitVec.toNat_ofNat, Nat.mod_eq_of_lt hbound]
  rcases Bool.eq_false_or_eq_true s.fatal with hfatal | hlive
  · obtain ⟨t, hrun, hseen⟩ := runMoves_suffixArray_fatal (u := u) hfatal hload
    have hnot : s.fatal ≠ false := by simp [hfatal]
    exact ⟨t, hrun, fun h => absurd h hnot, fun h => absurd h hnot, fun _ => hseen⟩
  have hnot : s.fatal ≠ true := by simp [hlive]
  rcases Nat.lt_or_ge s.nmax.toNat bytes.length with hover | hfits
  · have hconstruct := exec_construct_of_overCapacity (s := u) hlive (hover.trans_eq hlen.symm)
    obtain ⟨t, hrun, hcss, hseen⟩ := runMoves_suffixArray_live (by exact hlive) hload hconstruct
    exact ⟨t, hrun, fun _ h => absurd hover (Nat.not_lt.mpr h), fun _ _ => ⟨hcss, hseen⟩, fun h => absurd h hnot⟩
  · have hconstruct := exec_construct_of_fits (s := u) hlive (hlen.trans_le hfits)
    rw [hblock hfits] at hconstruct
    obtain ⟨t, hrun, -, hseen⟩ := runMoves_suffixArray_live (by exact hlive) hload hconstruct
    set c := u.css.build Config.cutoff bytes
    obtain ⟨-, harray, -⟩ := build_spec Config.cutoff u.css hbound
    refine ⟨t, hrun, fun _ _ => ⟨(List.range c.slen.toNat).map c.idxAt, ?_, ?_⟩,
      fun _ h => absurd h (Nat.not_lt.mpr hfits), fun h => absurd h hnot⟩
    · rw [List.map_map]
      exact harray
    · rw [hseen, List.map_map]
      rfl

end Sys2Proof.Machine

namespace Sys2Proof.Machine

/-! ## Bits of bytes in time order -/

/-- The `c` low bits of a byte in time order, the highest first: what is pending of WACC or RBUF (R110, R122). -/
def lowBits (c : Nat) (v : Byte) : List Bool := (List.range c).map (fun k => v.getLsbD (c - 1 - k))

@[simp] theorem lowBits_length (c : Nat) (v : Byte) : (lowBits c v).length = c := by simp [lowBits]

theorem lowBits_getElem? {c k : Nat} (h : k < c) (v : Byte) : (lowBits c v)[k]? = some (v.getLsbD (c - 1 - k)) := by
  rw [lowBits, List.getElem?_map, List.getElem?_range h, Option.map_some]

theorem BitWriter.pendingBits_eq_lowBits (w : BitWriter) : w.pendingBits = lowBits w.cnt.toNat w.acc := rfl

theorem BitReader.pendingBits_eq_lowBits (r : BitReader) :
    r.pendingBits = lowBits r.cnt.toNat r.buf ++ bitsOfBytes r.src := rfl

/-- What is left of a byte after its first bits. -/
theorem bitsOfByte_drop {c : Nat} (h : c ≤ 8) (v : Byte) : (bitsOfByte v).drop (8 - c) = lowBits c v := by
  refine List.ext_getElem? fun k => ?_
  rw [List.getElem?_drop, bitsOfByte_getElem?]
  rcases Nat.lt_or_ge k c with hk | hk
  · rw [if_pos (by omega), lowBits_getElem? hk, show 7 - (8 - c + k) = c - 1 - k by omega]
  · rw [if_neg (by omega), List.getElem?_eq_none (by simpa using hk)]

/-- The byte `((u << (8 - c)) | (v >> c))[7:0]` is the `c` low bits of `u` and then the first bits of `v` (R114, R125). -/
theorem bitsOfByte_join {c : Nat} (h : c ≤ 8) (u v : Byte) :
    bitsOfByte ((u <<< (8 - c)) ||| (v >>> c)) = lowBits c u ++ (bitsOfByte v).take (8 - c) := by
  refine List.ext_getElem? fun k => ?_
  rw [bitsOfByte_getElem?, BitVec.getLsbD_or, BitVec.getLsbD_shiftLeft, BitVec.getLsbD_ushiftRight]
  rcases Nat.lt_or_ge k c with hk | hk
  · have hout : v.getLsbD (c + (7 - k)) = false := BitVec.getLsbD_of_ge _ _ (by omega)
    rw [List.getElem?_append_left (by simpa using hk), lowBits_getElem? hk, if_pos (by omega), hout,
      decide_eq_true (by omega : 7 - k < 8), decide_eq_false (by omega : ¬ 7 - k < 8 - c),
      show 7 - k - (8 - c) = c - 1 - k by omega]
    simp
  · rw [List.getElem?_append_right (by simpa using hk), lowBits_length, List.getElem?_take, bitsOfByte_getElem?]
    rcases Nat.lt_or_ge k 8 with hk8 | hk8
    · rw [if_pos hk8, if_pos (by omega), if_pos (by omega), decide_eq_true (by omega : 7 - k < 8 - c),
        show 7 - (k - c) = c + (7 - k) by omega]
      simp
    · rw [if_neg (by omega), if_neg (by omega)]

/-- A byte with nothing above its `c` low bits is given by them. -/
theorem eq_of_lowBits {c : Nat} {u v : Byte} (htop : u.toNat < 2 ^ c) (h : lowBits c u = lowBits c v) :
    u = BitVec.ofNat 8 (v.toNat % 2 ^ c) := by
  refine BitVec.eq_of_getLsbD_eq fun i hi => ?_
  rw [BitVec.getLsbD_ofNat, Nat.testBit_mod_two_pow, decide_eq_true hi, Bool.true_and]
  rcases Nat.lt_or_ge i c with hc | hc
  · have hbit : u.getLsbD (c - 1 - (c - 1 - i)) = v.getLsbD (c - 1 - (c - 1 - i)) := by
      have hk : c - 1 - i < c := by omega
      have helem := congrArg (·[c - 1 - i]?) h
      simpa only [lowBits_getElem? hk, Option.some.injEq] using helem
    rw [show c - 1 - (c - 1 - i) = i by omega] at hbit
    rw [hbit, decide_eq_true hc, Bool.true_and]
    rfl
  · rw [decide_eq_false (by omega), Bool.false_and]
    exact Nat.testBit_lt_two_pow (htop.trans_le (Nat.pow_le_pow_right Nat.two_pos hc))

/-! ## The packing law and the duality of writer and reader -/

theorem packed_length (bits : List Bool) : (packed bits).length = (bits.length + 7) / 8 := by simp [packed]

/-- The sum of R119 fits in a byte: at most `2^7 + ... + 2^0 = 255`. -/
theorem packedByte_toNat (bits : List Bool) (j : Nat) :
    (packedByte bits j).toNat =
      ((List.range 8).map (fun k => if bits.getD (8 * j + k) false then 2 ^ (7 - k) else 0)).sum := by
  have hle : ((List.range 8).map (fun k => if bits.getD (8 * j + k) false then 2 ^ (7 - k) else 0)).sum ≤
      ((List.range 8).map (fun k => 2 ^ (7 - k))).sum :=
    List.sum_le_sum fun k _ => by split <;> simp
  have hall : ((List.range 8).map (fun k => 2 ^ (7 - k))).sum = 255 := by decide
  rw [packedByte, BitVec.toNat_ofNat, Nat.mod_eq_of_lt (by omega)]

theorem packed_getD {bits : List Bool} {j : Nat} (h : j < (packed bits).length) :
    (packed bits).getD j 0#8 = packedByte bits j := by
  rw [packed_length] at h
  rw [packed, List.getD_eq_getElem?_getD, List.getElem?_map, List.getElem?_range h]
  rfl

/-- From WCNT = 0 the bytes emitted are the packing of the bits (R119). -/
theorem putBits_flush_of_empty {w : BitWriter} (h : w.cnt = 0#3) (bits : List Bool) :
    (w.putBits bits).flushBits.snk = w.snk ++ packed bits := by
  rw [putBits_flush, pendingBits_of_empty h, List.nil_append]

/-- The bits of the packed bytes, with the padding of R128 written out. -/
theorem bitsOfBytes_packed_eq (bits : List Bool) :
    bitsOfBytes (packed bits) = bits ++ List.replicate ((8 - bits.length % 8) % 8) false := by
  obtain ⟨pad, hshort, hzero, hbits⟩ := bitsOfBytes_packed bits
  have hlen := congrArg List.length hbits
  rw [bitsOfBytes_length, packed_length, List.length_append] at hlen
  have hpad : pad.length = (8 - bits.length % 8) % 8 := by omega
  rw [hbits, List.eq_replicate_iff.mpr ⟨hpad, hzero⟩]

/-- Settles O27: the reader's pending bits are the packed bits, which `getBits` delivers to the last one. -/
theorem writeReadDuality : Obligations.WriteReadDuality := by
  intro w r bits hw hr hsrc
  rw [putBits_flush_of_empty hw, List.drop_left] at hsrc
  have hpending : r.pendingBits = (bits ++ List.replicate ((8 - bits.length % 8) % 8) false) ++ [] := by
    rw [pendingBits_of_aligned hr, hsrc, bitsOfBytes_packed_eq, List.append_nil]
  obtain ⟨r', hget, hto, hrest⟩ := getBits_spec (by simp [hr]) hpending
  obtain ⟨hend, -⟩ := getBit_eos hto.count hrest
  rw [← bitsOfBytes_packed_eq, bitsOfBytes_length, packed_length, bitsOfBytes_packed_eq] at hget
  exact ⟨r', hget, hend⟩

/-- Settles O24: the bytes are those of `packed`, and FlushBits leaves no bit pending. -/
theorem packingLaw : Obligations.PackingLaw := by
  intro w bits hw
  obtain ⟨-, hcnt, -⟩ := flushBits_spec (w.putBits bits)
  refine ⟨packed bits, putBits_flush_of_empty hw bits, packed_length bits, fun j hj => ?_, hcnt⟩
  rw [packed_getD hj, packedByte_toNat]

/-! ## The end of a command -/

/-- A command whose pseudocode ends normally (R258 step 5): the next state as a whole. -/
theorem exec_of_ok {i : Instr} {s t : State} {result : Word} (hlive : s.fatal = false)
    (hbody : bodyOf i { s with eos := false } = .ok result t) :
    exec i s = .next { t with err := none, res := result } := by
  rw [exec_live _ hlive, hbody]
  rfl

/-- A command that raises one of the kinds that leave FATAL = 0 (R258 step 5): the next state as a whole. -/
theorem exec_of_raised {i : Instr} {s t : State} {k : ErrKind} (hlive : s.fatal = false)
    (hbody : bodyOf i { s with eos := false } = .raised k t) (hk : k ≠ .invariantViolation) :
    exec i s = .next { t with err := some k, res := 0#32 } := by
  rw [exec_live _ hlive, hbody]
  simp [report, raiseError, hk]

/-! ## WBIT -/

theorem bitOperand_of_le {s : State} (h : s.arg.toNat ≤ 1) : s.bitOperand = some (s.arg.getLsbD 0) := if_pos h

theorem bitOperand_of_gt {s : State} (h : 1 < s.arg.toNat) : s.bitOperand = none := if_neg (by omega)

/-- An operand of 0 or 1 is its bit 0. -/
theorem ofBool_bit_zero {v : Word} (h : v.toNat ≤ 1) :
    (BitVec.ofBool (v.getLsbD 0)).setWidth 8 = v.setWidth 8 := by
  have hv : v = 0#32 ∨ v = 1#32 := by
    rcases Nat.le_one_iff_eq_zero_or_eq_one.mp h with h0 | h1
    · exact .inl (BitVec.eq_of_toNat_eq h0)
    · exact .inr (BitVec.eq_of_toNat_eq h1)
  rcases hv with rfl | rfl <;> rfl

theorem putBit_of_seven {w : BitWriter} (h : w.cnt = 7#3) (b : Bool) :
    w.putBit b = { acc := 0#8, cnt := 0#3, snk := w.snk ++ [(w.acc <<< 1) ||| (BitVec.ofBool b).setWidth 8] } :=
  if_pos h

theorem putBit_of_ne_seven {w : BitWriter} (h : w.cnt ≠ 7#3) (b : Bool) :
    w.putBit b = { acc := (w.acc <<< 1) ||| (BitVec.ofBool b).setWidth 8, cnt := w.cnt + 1#3, snk := w.snk } :=
  if_neg h

/-- WBIT of a bit is PutBit of it (R112): the next state as a whole. -/
theorem exec_wbit_of_le {s : State} (hlive : s.fatal = false) (h : s.arg.toNat ≤ 1) :
    exec .wbit s = .next { s with
      wr := s.wr.putBit (s.arg.getLsbD 0), eos := false, err := none, res := 0#32 } := by
  have hop : ({ s with eos := false } : State).bitOperand = some (s.arg.getLsbD 0) := bitOperand_of_le h
  refine exec_of_ok (t := { s with wr := s.wr.putBit (s.arg.getLsbD 0), eos := false }) hlive ?_
  rw [bodyOf, wbitBody, hop]

theorem exec_wbit_of_gt {s : State} (hlive : s.fatal = false) (h : 1 < s.arg.toNat) :
    exec .wbit s = .next { s with eos := false, err := some .illegalCommand, res := 0#32 } := by
  have hop : ({ s with eos := false } : State).bitOperand = none := bitOperand_of_gt h
  refine exec_of_raised (t := { s with eos := false }) hlive ?_ (by decide)
  rw [bodyOf, wbitBody, hop]

/-- Settles O19, over the two outcomes of PutBit and the operand out of range. -/
theorem wbitAppendsOneBit : Obligations.WbitAppendsOneBit := by
  refine ⟨rfl, fun s hlive => ⟨fun harg hcnt => ?_, fun harg hcnt => ?_, exec_wbit_of_gt hlive⟩⟩
  · rw [exec_wbit_of_le hlive harg, putBit_of_seven hcnt, ofBool_bit_zero harg]
  · rw [exec_wbit_of_le hlive harg, putBit_of_ne_seven hcnt, ofBool_bit_zero harg]

/-! ## WBYTE -/

/-- Bits that complete a byte: it is emitted, whatever stood above the pending bits of WACC (R111). -/
theorem putBits_complete {w : BitWriter} {bits : List Bool} (h : w.cnt.toNat + bits.length = 8) :
    ∃ v : Byte, bitsOfByte v = w.pendingBits ++ bits ∧
      w.putBits bits = { acc := 0#8, cnt := 0#3, snk := w.snk ++ [v] } := by
  induction bits generalizing w with
  | nil =>
    have hlt := w.cnt.isLt
    rw [List.length_nil] at h
    omega
  | cons b bits ih =>
    rw [List.length_cons] at h
    rw [putBits_cons]
    rcases putBit_spec w b with ⟨hseven, v, hv, hput⟩ | ⟨-, hpending, hsnk, hcnt⟩
    · obtain rfl : bits = [] := List.length_eq_zero_iff.mp (by omega)
      exact ⟨v, hv, hput⟩
    · obtain ⟨v, hv, hput⟩ := ih (w := w.putBit b) (by omega)
      rw [hpending, List.append_assoc] at hv
      exact ⟨v, hv, hsnk ▸ hput⟩

/-- Bits that complete no byte only lengthen the pending ones (R111). -/
theorem putBits_pending {w : BitWriter} {bits : List Bool} (h : w.cnt.toNat + bits.length < 8) :
    (w.putBits bits).pendingBits = w.pendingBits ++ bits ∧ (w.putBits bits).snk = w.snk := by
  induction bits generalizing w with
  | nil => exact ⟨(List.append_nil _).symm, rfl⟩
  | cons b bits ih =>
    rw [List.length_cons] at h
    rw [putBits_cons]
    rcases putBit_spec w b with ⟨hseven, -⟩ | ⟨-, hpending, hsnk, hcnt⟩
    · omega
    · obtain ⟨hpending', hsnk'⟩ := ih (w := w.putBit b) (by omega)
      exact ⟨by rw [hpending', hpending, List.append_assoc]; rfl, hsnk'.trans hsnk⟩

/-- From WACC = 0 and WCNT = 0, the last `c` bits of a byte stay pending in WACC (R110). -/
theorem putBits_lowBits {w : BitWriter} (hacc : w.acc = 0#8) (hcnt : w.cnt = 0#3) {c : Nat} (hc : c < 8) (v : Byte) :
    w.putBits (lowBits c v) =
      { acc := BitVec.ofNat 8 (v.toNat % 2 ^ c), cnt := BitVec.ofNat 3 c, snk := w.snk } := by
  obtain ⟨hpending, hsnk⟩ := putBits_pending (w := w) (bits := lowBits c v) (by simpa [hcnt] using hc)
  have htop : (w.putBits (lowBits c v)).TopClear := TopClear.putBits (by simp [BitWriter.TopClear, hacc, hcnt]) _
  have hcount : (w.putBits (lowBits c v)).cnt.toNat = c := by
    rw [putBits_cnt, lowBits_length]
    simpa [hcnt] using hc
  rw [pendingBits_of_empty hcnt, List.nil_append, BitWriter.pendingBits_eq_lowBits, hcount] at hpending
  rw [BitWriter.TopClear, hcount] at htop
  rw [← eq_of_lowBits htop hpending, ← hsnk, ← hcount, BitVec.ofNat_toNat, BitVec.setWidth_eq, hcount]

/-- PutByte in closed form (R114): the first `8 - c` bits complete a byte, and the last `c` stay pending. -/
theorem putByte_closed (w : BitWriter) (v : Byte) :
    w.putByte v =
      { acc := BitVec.ofNat 8 (v.toNat % 2 ^ w.cnt.toNat), cnt := w.cnt
        snk := w.snk ++ [(w.acc <<< (8 - w.cnt.toNat)) ||| (v >>> w.cnt.toNat)] } := by
  have hc : w.cnt.toNat < 8 := w.cnt.isLt
  obtain ⟨u, hu, hfirst⟩ := putBits_complete (w := w) (bits := (bitsOfByte v).take (8 - w.cnt.toNat))
    (by rw [List.length_take, bitsOfByte_length]; omega)
  have hbyte : u = (w.acc <<< (8 - w.cnt.toNat)) ||| (v >>> w.cnt.toNat) :=
    bitsOfByte_inj (hu.trans (bitsOfByte_join hc.le w.acc v).symm)
  calc w.putByte v
      = (w.putBits ((bitsOfByte v).take (8 - w.cnt.toNat))).putBits ((bitsOfByte v).drop (8 - w.cnt.toNat)) := by
        rw [← putBits_append, List.take_append_drop, putByte_eq]
    _ = _ := by
        rw [hfirst, bitsOfByte_drop hc.le, putBits_lowBits rfl rfl hc, hbyte, BitVec.ofNat_toNat, BitVec.setWidth_eq]

theorem byteOperand_of_le {s : State} (h : s.arg.toNat ≤ 255) : s.byteOperand = some (s.arg.setWidth 8) := by
  rw [State.byteOperand, if_pos h]

theorem byteOperand_of_gt {s : State} (h : 255 < s.arg.toNat) : s.byteOperand = none := by
  rw [State.byteOperand, if_neg (Nat.not_le.mpr h)]

/-- WBYTE of a byte is PutByte of it (R114): the next state as a whole. -/
theorem exec_wbyte_of_le {s : State} (hlive : s.fatal = false) (h : s.arg.toNat ≤ 255) :
    exec .wbyte s = .next { s with
      wr := s.wr.putByte (s.arg.setWidth 8), eos := false, err := none, res := 0#32 } := by
  have hop : ({ s with eos := false } : State).byteOperand = some (s.arg.setWidth 8) := byteOperand_of_le h
  have hbody : bodyOf .wbyte { s with eos := false } =
      .ok 0#32 { s with wr := s.wr.putByte (s.arg.setWidth 8), eos := false } := by rw [bodyOf, wbyteBody, hop]
  rw [exec_of_ok hlive hbody]

theorem exec_wbyte_of_gt {s : State} (hlive : s.fatal = false) (h : 255 < s.arg.toNat) :
    exec .wbyte s = .next { s with eos := false, err := some .illegalCommand, res := 0#32 } := by
  have hop : ({ s with eos := false } : State).byteOperand = none := byteOperand_of_gt h
  refine exec_of_raised (t := { s with eos := false }) hlive ?_ (by decide)
  rw [bodyOf, wbyteBody, hop]

/-- Settles O20, from the closed form of PutByte. -/
theorem wbyteAppendsOneByte : Obligations.WbyteAppendsOneByte := by
  refine ⟨rfl, fun s hlive => ⟨fun harg => ?_, exec_wbyte_of_gt hlive⟩⟩
  rw [exec_wbyte_of_le hlive harg, putByte_closed]

/-- One WBIT after the HOST wrote the bit to ARG: PutBit of the bit. -/
theorem exec_wbit_withArg {s : State} (hlive : s.fatal = false) (b : Bool) :
    exec .wbit (s.withArg ((BitVec.ofBool b).setWidth 32)) = .next { s with
      arg := (BitVec.ofBool b).setWidth 32, wr := s.wr.putBit b, eos := false, err := none, res := 0#32 } := by
  have hle : ((BitVec.ofBool b).setWidth 32).toNat ≤ 1 := by cases b <;> decide
  have hbit : ((BitVec.ofBool b).setWidth 32).getLsbD 0 = b := by cases b <;> rfl
  rw [exec_wbit_of_le (by exact hlive) (by exact hle)]
  simp only [State.withArg, hbit]

/-- A WBIT of each bit in turn, at least one, is PutBit of them all. -/
theorem execWbits_live {s : State} (hlive : s.fatal = false) (b : Bool) (bits : List Bool) :
    ∃ a, execWbits (b :: bits) s = .next { s with
      arg := a, wr := s.wr.putBits (b :: bits), eos := false, err := none, res := 0#32 } := by
  induction bits generalizing s b with
  | nil => exact ⟨_, by rw [execWbits, exec_wbit_withArg hlive]; rfl⟩
  | cons b' bits ih =>
    rw [execWbits, exec_wbit_withArg hlive]
    exact ih (by exact hlive) b'

/-- While FATAL = 1 each of the WBITs is refused (R258 step 1). -/
theorem execWbits_fatal {s : State} (hfatal : s.fatal = true) (b : Bool) (bits : List Bool) :
    ∃ a, execWbits (b :: bits) s = .next { s with arg := a, err := some .invariantViolation, res := 0#32 } := by
  induction bits generalizing s b with
  | nil => exact ⟨_, by rw [execWbits, exec_fatal _ (by exact hfatal)]; rfl⟩
  | cons b' bits ih =>
    rw [execWbits, exec_fatal _ (by exact hfatal)]
    exact ih (by exact hfatal) b'

/-- Settles O21: PutByte is PutBit of the byte's bits, and FATAL refuses both sides alike. -/
theorem wbyteIsEightWbits : Obligations.WbyteIsEightWbits := by
  intro s v
  rcases Bool.eq_false_or_eq_true s.fatal with hfatal | hlive
  · obtain ⟨a, hbits⟩ := execWbits_fatal hfatal (v.getLsbD 7) _
    exact ⟨_, _, exec_fatal _ (by exact hfatal), hbits, rfl⟩
  · obtain ⟨a, hbits⟩ := execWbits_live hlive (v.getLsbD 7) _
    have hv : (v.setWidth 32).toNat = v.toNat := BitVec.toNat_setWidth_of_le (by decide)
    have hbyte : (v.setWidth 32).setWidth 8 = v := BitVec.setWidth_setWidth_of_le v (by decide)
    refine ⟨_, _, exec_wbyte_of_le (by exact hlive) ?_, hbits, ?_⟩
    · exact hv.trans_le (Nat.le_of_lt_succ v.isLt)
    · simp only [State.withArg, hbyte]
      rfl

/-! ## FLUSH -/

theorem flushBits_of_ne {w : BitWriter} (h : w.cnt ≠ 0#3) :
    w.flushBits = { acc := 0#8, cnt := 0#3, snk := w.snk ++ [w.acc <<< (8 - w.cnt.toNat)] } :=
  if_pos (Nat.pos_of_ne_zero fun h0 => h (BitVec.eq_of_toNat_eq h0))

theorem flushBits_of_empty {w : BitWriter} (h : w.cnt = 0#3) : w.flushBits = w := if_neg (by simp [h])

/-- FlushBits leaves no bit pending, so a second one does nothing (R118). -/
theorem flushBits_flushBits (w : BitWriter) : w.flushBits.flushBits = w.flushBits := by
  obtain ⟨-, hcnt, -⟩ := flushBits_spec w
  exact flushBits_of_empty hcnt

/-- FLUSH is FlushBits (R117): the next state as a whole. -/
theorem exec_flush_of_live {s : State} (hlive : s.fatal = false) :
    exec .flush s = .next { s with wr := s.wr.flushBits, eos := false, err := none, res := 0#32 } :=
  exec_of_ok (t := { s with wr := s.wr.flushBits, eos := false }) hlive rfl

/-- Settles O22, over the two outcomes of FlushBits. -/
theorem flushPadsAndEmits : Obligations.FlushPadsAndEmits := by
  refine ⟨rfl, fun s hlive => ⟨fun hcnt => ?_, fun hcnt => ?_⟩⟩
  · rw [exec_flush_of_live hlive, flushBits_of_ne hcnt]
  · rw [exec_flush_of_live hlive, flushBits_of_empty hcnt]

/-- Settles O23: FlushBits is idempotent, and FATAL refuses the second FLUSH as it did the first. -/
theorem secondFlushDoesNothing : Obligations.SecondFlushDoesNothing := by
  intro s
  rcases Bool.eq_false_or_eq_true s.fatal with hfatal | hlive
  · exact ⟨_, exec_fatal _ hfatal, exec_fatal _ (by exact hfatal)⟩
  · refine ⟨_, exec_flush_of_live hlive, ?_⟩
    rw [exec_flush_of_live (by exact hlive), flushBits_flushBits]

/-! ## RBIT -/

theorem getBit_of_buffered {r : BitReader} (h : r.cnt ≠ 0#4) :
    r.getBit = .ok (r.buf.getLsbD (r.cnt.toNat - 1)) { r with cnt := r.cnt - 1#4 } := if_neg h

theorem getBit_of_refill {r : BitReader} (h : r.cnt = 0#4) {v : Byte} {rest : List Byte} (hsrc : r.src = v :: rest) :
    r.getBit = .ok (v.getLsbD 7) { buf := v, cnt := 7#4, src := rest } := by
  rw [BitReader.getBit, if_pos h, hsrc]
  simp [BitReader.deliver]

theorem getBit_of_exhausted {r : BitReader} (h : r.cnt = 0#4) (hsrc : r.src = []) :
    r.getBit = .raised .endOfStream r := by
  rw [BitReader.getBit, if_pos h, hsrc]

/-- RBIT when GetBit succeeds (R121): the next state as a whole. -/
theorem exec_rbit_of_ok {s : State} (hlive : s.fatal = false) {b : Bool} {r : BitReader}
    (hget : s.rd.getBit = .ok b r) :
    exec .rbit s = .next { s with
      rd := r, eos := false, err := none, res := if b then 1#32 else 0#32 } := by
  have hres : (BitVec.ofBool b).setWidth 32 = if b then 1#32 else 0#32 := by cases b <;> rfl
  rw [← hres]
  refine exec_of_ok (t := { s with rd := r, eos := false }) hlive ?_
  simp only [bodyOf, rbitBody, State.reading, hget]
  rfl

/-- RBIT when no bit is left (R121): the next state as a whole. -/
theorem exec_rbit_of_exhausted {s : State} (hlive : s.fatal = false)
    (hget : s.rd.getBit = .raised .endOfStream s.rd) :
    exec .rbit s = .next { s with eos := true, err := some .endOfStream, res := 0#32 } := by
  refine exec_of_raised (t := { s with eos := true }) hlive ?_ (by decide)
  simp only [bodyOf, rbitBody, State.reading, hget]
  rfl

/-- Settles O25, over the three outcomes of GetBit. -/
theorem rbitReadsTheNextBit : Obligations.RbitReadsTheNextBit :=
  ⟨rfl, fun _ hlive =>
    ⟨fun hcnt => exec_rbit_of_ok hlive (getBit_of_buffered hcnt),
      fun hcnt _ _ hsrc => exec_rbit_of_ok hlive (getBit_of_refill hcnt hsrc),
      fun hcnt hsrc => exec_rbit_of_exhausted hlive (getBit_of_exhausted hcnt hsrc)⟩⟩

/-! ## RBYTE -/

/-- With the first byte `v` of SRC, what is pending begins with the byte of R125, and the low bits of `v` follow. -/
theorem pendingBits_of_cons {r : BitReader} (h7 : r.cnt.toNat ≤ 7) {v : Byte} {rest : List Byte}
    (hsrc : r.src = v :: rest) :
    r.pendingBits = bitsOfByte ((r.buf <<< (8 - r.cnt.toNat)) ||| (v >>> r.cnt.toNat)) ++
      (lowBits r.cnt.toNat v ++ bitsOfBytes rest) := by
  have hsplit : bitsOfByte v = (bitsOfByte v).take (8 - r.cnt.toNat) ++ lowBits r.cnt.toNat v := by
    rw [← bitsOfByte_drop (by omega), List.take_append_drop]
  rw [bitsOfByte_join (by omega), BitReader.pendingBits_eq_lowBits, hsrc, bitsOfBytes_cons, hsplit]
  simp

/-- GetByte in closed form (R125): one byte leaves SRC, and RCNT stays. -/
theorem getByte_closed {r : BitReader} (h7 : r.cnt.toNat ≤ 7) {v : Byte} {rest : List Byte} (hsrc : r.src = v :: rest) :
    r.getByte = .ok ((r.buf <<< (8 - r.cnt.toNat)) ||| (v >>> r.cnt.toNat))
      { buf := v, cnt := r.cnt, src := rest } := by
  have hpending := pendingBits_of_cons h7 hsrc
  obtain ⟨r', hget, hto⟩ := getByte_ok h7 hpending
  have hfetched : Fetched r r' := by
    have hmeets := getByte_meets r h7
    rwa [hget] at hmeets
  have hleft : r'.pendingBits = lowBits r.cnt.toNat v ++ bitsOfBytes rest :=
    (List.append_cancel_left (hpending.symm.trans hto.bits)).symm
  have hsrc' : r'.src = rest :=
    src_of_pending hto.count (by rw [lowBits_length]; omega) hleft hto.suffix (hsrc ▸ List.suffix_cons v rest)
  have hcnt' : r'.cnt = r.cnt := by
    have hlen := congrArg List.length hleft
    rw [pendingBits_length, BitReader.bitsLeft, hsrc', List.length_append, lowBits_length, bitsOfBytes_length] at hlen
    exact BitVec.eq_of_toNat_eq (by omega)
  have hbuf' : r'.buf = v := by
    obtain ⟨front, hfront⟩ := hfetched.exists_front (by rw [hsrc', hsrc, List.length_cons]; omega)
    rw [hsrc, hsrc'] at hfront
    obtain rfl : front = [] := by
      have hlen := congrArg List.length hfront
      simp only [List.length_cons, List.length_append] at hlen
      exact List.length_eq_zero_iff.mp (by omega)
    exact (List.cons.inj hfront).1.symm
  rw [hget, ← hbuf', ← hcnt', ← hsrc']

theorem getByte_of_exhausted {r : BitReader} (h7 : r.cnt.toNat ≤ 7) (hsrc : r.src = []) :
    r.getByte = .raised .endOfStream r := by
  have hfew : r.pendingBits.length < 8 := by
    rw [pendingBits_length, BitReader.bitsLeft, hsrc, List.length_nil]
    omega
  exact (getByte_eos hfew).1

/-- Settles O26, from the closed form of GetByte. -/
theorem rbyteReadsTheNextByte : Obligations.RbyteReadsTheNextByte := by
  refine ⟨rfl, fun s hlive h7 => ⟨fun v rest hsrc => ?_, fun hsrc => ?_⟩⟩
  · refine exec_of_ok (t := { s with rd := { buf := v, cnt := s.rd.cnt, src := rest }, eos := false }) hlive ?_
    simp only [bodyOf, rbyteBody, State.reading, getByte_closed h7 hsrc]
    rfl
  · refine exec_of_raised (t := { s with eos := true }) hlive ?_ (by decide)
    simp only [bodyOf, rbyteBody, State.reading, getByte_of_exhausted h7 hsrc]
    rfl

end Sys2Proof.Machine

namespace Sys2Proof.Machine

/-! ## The suffix array of a block -/

/-- Every entry of a suffix array is an offset of the block (R143). -/
theorem IsSuffixArray.lt_length {block : List Byte} {l : List Nat} (h : IsSuffixArray block l) {o : Nat} (ho : o ∈ l) :
    o < block.length :=
  List.mem_range.mp (h.1.subset ho)

/-- The key order is transitive, so not only neighbours of a suffix array are in it (R140, R143). -/
theorem IsSuffixArray.pairwise {block : List Byte} {c : Sorter} (hdb : c.db.cells = cellsFrom 0 (block ++ block))
    {l : List Nat} (h : IsSuffixArray block l) : l.Pairwise (KeyBefore block.length c) := by
  have : Trans (KeyBefore block.length c) (KeyBefore block.length c) (KeyBefore block.length c) := ⟨KeyBefore.trans⟩
  refine List.isChain_iff_pairwise.mp (List.isChain_iff_getElem.mpr fun i hi => ?_)
  have hkey : KeyLt block l[i] l[i + 1] := h.2 i _ _ (List.getElem?_eq_getElem _) (List.getElem?_eq_getElem _)
  exact (keyBefore_iff_keyLt hdb (h.lt_length (List.getElem_mem _)) (h.lt_length (List.getElem_mem _))).mpr hkey

/-- Two rearrangements of the offsets that both rise in a strict order are equal (R143). -/
theorem IsSuffixArray.unique {block : List Byte} {c : Sorter} (hdb : c.db.cells = cellsFrom 0 (block ++ block))
    {l m : List Nat} (hl : IsSuffixArray block l) (hm : IsSuffixArray block m) : l = m :=
  (hl.1.trans hm.1.symm).eq_of_pairwise (fun _ _ _ _ hab hba => absurd (hab.trans hba) KeyBefore.irrefl)
    (hl.pairwise hdb) (hm.pairwise hdb)

theorem Sorter.Holds.slen_toNat {c : Sorter} {block : List Byte} (h : c.Holds block) :
    c.slen.toNat = block.length := h.1

theorem Sorter.Holds.db_cells {c : Sorter} {block : List Byte} (h : c.Holds block) :
    c.db.cells = cellsFrom 0 (block ++ block) := h.2.1

@[simp] theorem build_slen (cutoff : Nat) (block : List Byte) (c : Sorter) :
    (c.build cutoff block).slen = BitVec.ofNat 32 block.length := rfl

/-- The block that CONSTRUCT reads has LEN bytes, so SLEN becomes LEN (R141). -/
theorem build_slen_block (cutoff : Nat) (s : State) (c : Sorter) : (c.build cutoff s.block).slen = s.len := by
  rw [build_slen, block_length, BitVec.ofNat_toNat, BitVec.setWidth_eq]

/-- Settles O28, from what CONSTRUCT's work leaves and the uniqueness of the suffix array. -/
theorem constructBuildsTheSuffixArray : Obligations.ConstructBuildsTheSuffixArray := by
  refine ⟨rfl, fun s hlive hfits => ?_⟩
  obtain ⟨hholds, harray, hvalid, hwork, -⟩ := build_spec Config.cutoff s.css (block_length_lt s)
  exact ⟨_, exec_construct_of_fits hlive hfits, hholds, build_slen_block _ s s.css, hvalid, hwork, harray,
    fun _ hl => hl.unique hholds.db_cells harray⟩

/-! ## CUTOFF -/

/-- A sorter that holds a block has nothing in IDX but its ranks (R33). -/
theorem Sorter.Holds.idx_cells {c : Sorter} {block : List Byte} (h : c.Holds block) :
    c.idx.cells = cellsFrom 0 (c.ranks.map (BitVec.ofNat 32)) := by
  obtain ⟨hslen, -, offsets, hcells, hcount⟩ := h
  have hread : ∀ p (hp : p < offsets.length), c.idxAt p = offsets[p] := by
    intro p hp
    simp [Sorter.idxAt, wordOr, Memory.get?, hcells, lookupCell_cellsFrom, hp]
  have hoffsets : c.ranks.map (BitVec.ofNat 32) = offsets := by
    refine List.ext_getElem (by simp [Sorter.ranks, hslen, hcount]) fun p _ hp => ?_
    simp [Sorter.ranks, hread p hp]
  rw [hoffsets, hcells]

/-- Settles O30: the ranks are the one suffix array, and they are all that a sort could leave different. -/
theorem cutoffDoesNotMatter : Obligations.CutoffDoesNotMatter := by
  intro cutoff cutoff' block c hn
  obtain ⟨hholds, harray, hvalid, hwork, hdb, hgen⟩ := build_spec cutoff c hn
  obtain ⟨hholds', harray', hvalid', hwork', hdb', hgen'⟩ := build_spec cutoff' c hn
  have hranks : (c.build cutoff block).ranks = (c.build cutoff' block).ranks :=
    harray.unique hholds.db_cells harray'
  have hidx : (c.build cutoff block).idx = (c.build cutoff' block).idx := by
    rw [Memory.mk.injEq]
    exact ⟨by rw [hholds.idx_cells, hholds'.idx_cells, hranks], hgen.trans hgen'.symm⟩
  rw [Sorter.mk.injEq]
  exact ⟨hdb.trans hdb'.symm, hidx, rfl, hvalid.trans hvalid'.symm, hwork.trans hwork'.symm⟩

/-! ## The work stack and Partition -/

/-- Settles O31: the invariant of the work stack holds after any number of pops. -/
theorem workStackFits : Obligations.WorkStackFits := by
  intro cutoff pops block c hn
  obtain ⟨-, -, -, -, hinv, -⟩ := sortRun_spec (cutoff := cutoff) pops (c.load block) (runInv_load c hn)
  refine ⟨fun r hr => ?_, hinv.apart.imp .inl, hinv.work_bound⟩
  obtain ⟨htwo, hbelow, -⟩ := hinv.ranges r hr
  exact ⟨htwo, hbelow⟩

/-- A rearrangement of a range permutes the offsets that IDX lists there. -/
theorem Rearranged.map_idxAt_perm {n lo stop : Nat} {c c' : Sorter} (h : Rearranged n lo stop c c') (hle : lo ≤ stop) :
    ((List.range' lo (stop - lo)).map c'.idxAt).Perm ((List.range' lo (stop - lo)).map c.idxAt) := by
  obtain ⟨σ, hfix, hidx⟩ := h.perm
  have hfix' : ∀ p, p < lo ∨ stop ≤ p → σ.symm p = p := fun p hp => by
    rw [Equiv.symm_apply_eq]
    exact (hfix p hp).symm
  have hmoved : ((List.range' lo (stop - lo)).map σ).Perm (List.range' lo (stop - lo)) := by
    rw [List.perm_ext_iff_of_nodup ((List.nodup_range' (step := 1)).map σ.injective) List.nodup_range']
    intro q
    simp only [List.mem_map, List.mem_range'_1, Nat.add_sub_cancel' hle]
    constructor
    · rintro ⟨p, ⟨hlo, hstop⟩, rfl⟩
      exact perm_maps hfix hlo hstop
    · rintro ⟨hlo, hstop⟩
      exact ⟨σ.symm q, perm_maps hfix' hlo hstop, σ.apply_symm_apply q⟩
  have hsource : (List.range' lo (stop - lo)).map c'.idxAt = ((List.range' lo (stop - lo)).map σ).map c.idxAt := by
    rw [List.map_map]
    exact List.map_congr_left fun p _ => hidx p
  rw [hsource]
  exact hmoved.map c.idxAt

/-- Settles O32, from the law of Partition and the rearrangement it is. -/
theorem partitionPostcondition : Obligations.PartitionPostcondition := by
  intro c c' lo hi d lt stop hle hpart
  obtain ⟨hre, hlo, hlt, hstop, hless, hequal, hgreater⟩ :=
    partition_spec (n := hi + 1) hle (Nat.lt_succ_self hi) hpart
  have hperm := hre.map_idxAt_perm (Nat.le_succ_of_le hle)
  rw [Nat.sub_add_comm hle] at hperm
  exact ⟨hlo, hlt, hstop, hless, hequal, fun p hp hhi => hgreater p hp (Nat.lt_succ_of_le hhi), hperm,
    fun p hp => hre.outside hp, hre.db⟩

/-! ## LENGTH and SUFSTART -/

/-- Settles O33. -/
theorem lengthReturnsSlen : Obligations.LengthReturnsSlen := ⟨rfl, fun _ => exec_length_of_live⟩

/-- SUFSTART of a rank below SLEN (R146): the next state as a whole. -/
theorem exec_sufstart_of_lt {s : State} (hlive : s.fatal = false) (h : s.arg.toNat < s.css.slen.toNat) :
    exec .sufstart s = .next { s with eos := false, err := none, res := s.css.idxAt s.arg.toNat } :=
  exec_of_ok (t := { s with eos := false }) hlive (if_neg (Nat.not_le.mpr h))

/-- SUFSTART of a rank from SLEN on (R146): the next state as a whole. -/
theorem exec_sufstart_of_ge {s : State} (hlive : s.fatal = false) (h : s.css.slen.toNat ≤ s.arg.toNat) :
    exec .sufstart s = .next { s with eos := false, err := some .indexOutOfRange, res := 0#32 } :=
  exec_of_raised (t := { s with eos := false }) hlive (if_pos h) (by decide)

/-- With a rank to ask for, SVALID is 1 and CSS holds the block that CONSTRUCT copied and its suffix array (R34, R143). -/
theorem State.Inv.holds_of_lt_slen {s : State} (hs : s.Inv) {i : Nat} (h : i < s.css.slen.toNat) :
    ∃ block, s.css.Holds block ∧ IsSuffixArray block s.css.ranks := by
  rcases Bool.eq_false_or_eq_true s.css.svalid with hvalid | hinvalid
  · exact hs.sorted hvalid
  · rw [hs.released hinvalid] at h
    exact absurd h (Nat.not_lt_zero i)

theorem Sorter.ranks_getElem? (c : Sorter) {i : Nat} (h : i < c.slen.toNat) :
    c.ranks[i]? = some (c.idxAt i).toNat := by
  rw [Sorter.ranks, List.getElem?_map, List.getElem?_range h, Option.map_some]

/-- The offset at a rank below SLEN is below SLEN (R33, R146). -/
theorem State.Inv.idxAt_lt_slen {s : State} (hs : s.Inv) {i : Nat} (h : i < s.css.slen.toNat) :
    (s.css.idxAt i).toNat < s.css.slen.toNat := by
  obtain ⟨block, hholds, harray⟩ := hs.holds_of_lt_slen h
  have hmem : (s.css.idxAt i).toNat ∈ s.css.ranks := List.mem_of_getElem? (s.css.ranks_getElem? h)
  exact (harray.lt_length hmem).trans_eq hholds.slen_toNat.symm

/-- Settles O34, over the two sides of ARG = SLEN. -/
theorem sufstartReturnsTheOffset : Obligations.SufstartReturnsTheOffset :=
  ⟨rfl, fun _ hlive => ⟨fun h => ⟨exec_sufstart_of_lt hlive h, fun hs => hs.idxAt_lt_slen h⟩,
    exec_sufstart_of_ge hlive⟩⟩

/-- Settles O35: the block is the one of the invariant. -/
theorem sufstartAnswersFromTheBlock : Obligations.SufstartAnswersFromTheBlock := by
  intro s hs hlive h
  obtain ⟨block, hholds, harray⟩ := hs.holds_of_lt_slen h
  exact ⟨block, _, hholds, harray, exec_sufstart_of_lt hlive h, rfl, hs.idxAt_lt_slen h, hholds.slen_toNat.symm,
    s.css.ranks_getElem? h⟩

/-! ## CSS with SLEN = 0 -/

/-- LENGTH and every SUFSTART of a state with SLEN = 0 whose last command ended normally (R144, R147). -/
theorem queries_of_slen_zero {t : State} (hlive : t.fatal = false) (heos : t.eos = false) (herr : t.err = none)
    (hslen : t.css.slen = 0#32) :
    exec .length t = .next { t with res := 0#32 } ∧
      ∀ v, exec .sufstart (t.withArg v) = .next { t.withArg v with err := some .indexOutOfRange, res := 0#32 } := by
  constructor
  · rw [exec_length_of_live hlive, hslen, ← heos, ← herr]
  · intro v
    have hout : (t.withArg v).css.slen.toNat ≤ (t.withArg v).arg.toNat :=
      (congrArg BitVec.toNat hslen).trans_le (Nat.zero_le _)
    rw [exec_sufstart_of_ge (s := t.withArg v) hlive hout, ← heos]
    rfl

/-- The sorter of the empty block has no specified element of DB or IDX (R144). -/
theorem Sorter.Holds.get?_of_empty {c : Sorter} (h : c.Holds []) (k : Nat) :
    c.db.get? k = none ∧ c.idx.get? k = none := by
  obtain ⟨-, hdb, offsets, hidx, hcount⟩ := h
  obtain rfl := List.eq_nil_of_length_eq_zero hcount
  rw [Memory.get?, Memory.get?, hdb, hidx]
  exact ⟨rfl, rfl⟩

/-- Settles O29, over the block that is too long and the empty one. -/
theorem constructAtTheEdges : Obligations.ConstructAtTheEdges := by
  refine fun s hlive => ⟨exec_construct_of_overCapacity hlive, fun hempty => ?_⟩
  have hblock : s.block = [] := List.eq_nil_of_length_eq_zero (by rw [block_length, hempty]; rfl)
  have hfits : s.len.toNat ≤ s.nmax.toNat := (congrArg BitVec.toNat hempty).trans_le (Nat.zero_le _)
  have hslen : (s.css.build Config.cutoff s.block).slen = 0#32 := (build_slen_block _ s s.css).trans hempty
  obtain ⟨hholds, -, hvalid, -⟩ := build_spec Config.cutoff s.css (block_length_lt s)
  exact ⟨_, exec_construct_of_fits hlive hfits, rfl, hslen, hvalid, Sorter.Holds.get?_of_empty (hblock ▸ hholds),
    queries_of_slen_zero hlive rfl rfl hslen⟩

/-- RELEASE (R147): the next state as a whole. -/
theorem exec_release_of_live {s : State} (hlive : s.fatal = false) :
    exec .release s = .next { s with css := s.css.drop, eos := false, err := none, res := 0#32 } :=
  exec_of_ok (t := { s with css := s.css.drop, eos := false }) hlive rfl

/-- Settles O36: DB and IDX are forgotten, and SLEN is 0. -/
theorem releaseDropsTheSuffixArray : Obligations.ReleaseDropsTheSuffixArray :=
  ⟨rfl, fun _ hlive => ⟨_, _, _, exec_release_of_live hlive, rfl,
    fun k => ⟨Memory.get?_forget _ k, Memory.get?_forget _ k⟩, queries_of_slen_zero hlive rfl rfl rfl⟩⟩

end Sys2Proof.Machine

namespace Sys2Proof.Machine

/-! ## COMPRESS: the preconditions and the whole next state -/

/-- COMPRESS with bits pending (R181): IllegalCommand, whatever LEN. -/
theorem exec_compress_of_pending {s : State} (hlive : s.fatal = false) (hcnt : s.wr.cnt ≠ 0#3) :
    exec .compress s = .next { s with eos := false, err := some .illegalCommand, res := 0#32 } :=
  exec_of_raised (t := { s with eos := false }) hlive (if_pos hcnt) (by decide)

/-- COMPRESS of a block that does not fit (R181). -/
theorem exec_compress_of_overCapacity {s : State} (hlive : s.fatal = false) (hcnt : s.wr.cnt = 0#3)
    (hover : s.nmax.toNat < s.len.toNat) :
    exec .compress s = .next { s with eos := false, err := some .capacityExceeded, res := 0#32 } := by
  refine exec_of_raised (t := { s with eos := false }) hlive ?_ (by decide)
  rw [bodyOf, compressBody, if_neg (by simpa using hcnt)]
  exact if_pos (overCapacity_eq_true hover)

/-- Settles O37, over the two preconditions in their order. -/
theorem compressPreconditions : Obligations.CompressPreconditions :=
  fun _ hlive => ⟨exec_compress_of_pending hlive, exec_compress_of_overCapacity hlive⟩

/-- COMPRESS past its preconditions ends normally and appends the artifact (R180). -/
theorem exec_compress_artifact {s : State} (hlive : s.fatal = false) (hcnt : s.wr.cnt = 0#3)
    (hfits : s.len.toNat ≤ s.nmax.toNat) :
    ∃ t, exec .compress s = .next t ∧ t.err = none ∧ t.wr.snk = s.wr.snk ++ artifact s.len s.block :=
  ⟨_, exec_compress_of_fits hlive hcnt hfits, rfl, (emit_spec s.huf (block_length_lt s) s.len s.wr hcnt).1⟩

/-- Settles O49: both append the artifact of the one block. -/
theorem compressDependsOnlyOnTheBlock : Obligations.CompressDependsOnlyOnTheBlock := by
  intro s s' hlive hlive' hcnt hcnt' hfits hfits' hlen hblock
  obtain ⟨t, hrun, -, hsnk⟩ := exec_compress_artifact hlive hcnt hfits
  obtain ⟨t', hrun', -, hsnk'⟩ := exec_compress_artifact hlive' hcnt' hfits'
  rw [← hlen, ← hblock] at hsnk'
  exact ⟨t, t', _, hrun, hrun', hsnk, hsnk'⟩

/-- The artifact of the empty block (R186): the marker leaf, length 0 and no body. -/
theorem artifact_nil : artifact 0#32 [] = [0x80#8, 0x00#8, 0x00#8, 0x00#8, 0x00#8, 0x00#8] := by
  rw [artifact, huffmanTrie_nil]
  rfl

/-- Settles O39: the artifact of the block without a byte. -/
theorem compressOfTheEmptyBlock : Obligations.CompressOfTheEmptyBlock := by
  intro s hlive hcnt hlen
  have hblock : s.block = [] := List.eq_nil_of_length_eq_zero (by rw [block_length, hlen]; rfl)
  obtain ⟨t, hrun, herr, hsnk⟩ := exec_compress_artifact hlive hcnt (by rw [hlen]; exact Nat.zero_le _)
  rw [hblock, hlen, artifact_nil] at hsnk
  exact ⟨t, hrun, herr, hsnk⟩

/-! ## Phases 1 and 2 -/

/-- Settles O41: phase 1 on the scratch counts as `List.count` does. -/
theorem frequencyCount : Obligations.FrequencyCount := fun h _ hl => phase1_freqAt h hl

/-- The order of the keys in the arena (R188). -/
theorem keyBefore_iff (h : HufScratch) (x y : NodeIdx) :
    h.keyBefore x y = true ↔
      (h.nodeAt x).frq.toNat < (h.nodeAt y).frq.toNat ∨
        ((h.nodeAt x).frq.toNat = (h.nodeAt y).frq.toNat ∧
          (h.nodeAt x).minsym.toNat < (h.nodeAt y).minsym.toNat) := by
  simp [HufScratch.keyBefore]

theorem keyBefore_asymm {h : HufScratch} {x y : NodeIdx} (hxy : h.keyBefore x y = true) :
    h.keyBefore y x = false := by
  rw [Bool.eq_false_iff, ne_eq, keyBefore_iff]
  rw [keyBefore_iff] at hxy
  omega

/-- What is not before a key is not before one that is at most as large. -/
theorem keyBefore_eq_false_trans {h : HufScratch} {x y z : NodeIdx} (hxy : h.keyBefore x y = false)
    (hyz : h.keyBefore y z = false) : h.keyBefore x z = false := by
  rw [Bool.eq_false_iff, ne_eq, keyBefore_iff] at *
  omega

/-- RemoveMin of a LIVE with at least one member (R188). -/
theorem removeMin_spec (h : HufScratch) (x : NodeIdx) (rest : List NodeIdx) :
    ∃ a others, h.removeMin (x :: rest) = some (a, others) ∧ (x :: rest).Perm (a :: others) ∧
      ∀ y ∈ others, h.keyBefore y a = false := by
  induction rest generalizing x with
  | nil => exact ⟨x, [], rfl, List.Perm.refl _, by simp⟩
  | cons y rest ih =>
    obtain ⟨a, others, hrest, hperm, hmin⟩ := ih y
    rw [HufScratch.removeMin, hrest]
    cases hax : h.keyBefore a x with
    | true =>
      refine ⟨a, x :: others, by simp [hax], (hperm.cons x).trans (List.Perm.swap a x others), ?_⟩
      exact List.forall_mem_cons.mpr ⟨keyBefore_asymm hax, hmin⟩
    | false =>
      refine ⟨x, y :: rest, by simp [hax], List.Perm.refl _, fun z hz => ?_⟩
      rcases List.mem_cons.mp (hperm.subset hz) with rfl | hz
      · exact hax
      · exact keyBefore_eq_false_trans (hmin z hz) hax

/-- Settles O42: LIVE has a first member, and the law of RemoveMin speaks of it and the rest. -/
theorem removeMinTakesTheSmallestKey : Obligations.RemoveMinTakesTheSmallestKey := by
  intro h live hne
  obtain ⟨x, rest, rfl⟩ := List.exists_cons_of_ne_nil hne
  exact removeMin_spec h x rest

/-- Every byte of a block is the symbol of a leaf of the block's trie (R191). -/
theorem mem_huffmanTrie_symbols {block : List Byte} {b : Byte} (hb : b ∈ block) :
    b ∈ (huffmanTrie block).symbols :=
  (Trie.codeOf_isSome _ b).mp (by rw [huffmanCode_spec hb]; rfl)

/-- Settles O43: phase 2 leaves the Huffman trie at ROOT (`phase2_spec`), and the rest is said of that trie. -/
theorem builtTrieInvariants : Obligations.BuiltTrieInvariants := by
  intro h block hne hl h' leaves
  obtain ⟨htrie, hfrq, hncnt⟩ := phase2_spec hne hl (phase1_freqAt h hl) (alphabet_phase1 h hl)
  exact ⟨huffmanTrie block, TrieIn.hasTrie htrie, huffmanTrie_nodup hne, huffmanTrie_leaves hne,
    fun b hb => mem_huffmanTrie_symbols hb, hfrq, Nat.eq_sub_of_add_eq hncnt,
    Nat.le_sub_one_of_lt (huffmanTrie_depth hne), leaves_le block⟩

/-! ## The code table -/

/-- A code of a block's trie has 1 to 255 bits (R192). -/
theorem huffmanTrie_code_length {block : List Byte} (hne : block ≠ []) {s : Byte} {path : List Bool}
    (hcode : (huffmanTrie block).codeOf s = some path) : 0 < path.length ∧ path.length ≤ 255 := by
  have hlen := Trie.codeOf_length hcode
  have hdepth := huffmanTrie_depth hne
  have hleaves := leaves_le block
  exact ⟨Trie.codeOf_pos hcode (huffmanTrie_branches hne), by omega⟩

/-- Settles O44, from what phases 1 to 3 leave (`prepare_spec`). -/
theorem codeTableHoldsThePaths : Obligations.CodeTableHoldsThePaths := by
  intro h block hne hl s
  have hcode := (prepare_spec h hne hl).2 s
  refine ⟨hcode, fun hs => ?_⟩
  have hpath := huffmanCode_spec (List.contains_iff_mem.mp hs)
  rw [hcode, hpath]
  exact huffmanTrie_code_length hne hpath

/-- The code table has an entry for exactly the symbols of the trie (R192). -/
theorem codeAt_eq_some {block : List Byte} (h : HufScratch) (hne : block ≠ []) (hl : block.length < 2 ^ 32) {s : Byte}
    (hs : (h.prepare block).codeAt s ≠ []) :
    (huffmanTrie block).codeOf s = some ((h.prepare block).codeAt s) := by
  rw [(prepare_spec h hne hl).2 s] at hs ⊢
  cases hcode : (huffmanTrie block).codeOf s with
  | none => simp [hcode] at hs
  | some path => rfl

theorem codeAt_ne_nil_iff {block : List Byte} (h : HufScratch) (hne : block ≠ []) (hl : block.length < 2 ^ 32)
    (s : Byte) : (h.prepare block).codeAt s ≠ [] ↔ s ∈ (huffmanTrie block).symbols := by
  rw [← Trie.codeOf_isSome]
  refine ⟨fun hs => by rw [codeAt_eq_some h hne hl hs]; rfl, fun hs => ?_⟩
  obtain ⟨path, hpath⟩ := Option.isSome_iff_exists.mp hs
  rw [(prepare_spec h hne hl).2 s, hpath]
  exact List.ne_nil_of_length_pos (huffmanTrie_code_length hne hpath).1

theorem Trie.codeOf_node_left {l : Trie} (r : Trie) {s : Byte} {path : List Bool} (h : l.codeOf s = some path) :
    (Trie.node l r).codeOf s = some (false :: path) := by
  rw [Trie.codeOf, h]

theorem Trie.codeOf_node_right {l r : Trie} {s : Byte} {path : List Bool} (hs : s ∉ l.symbols)
    (h : r.codeOf s = some path) : (Trie.node l r).codeOf s = some (true :: path) := by
  rw [Trie.codeOf, Trie.codeOf_eq_none.mpr hs, h]
  rfl

/-- The code lengths of a full binary tree with each symbol once meet the Kraft equality, scaled by `2 ^ n` (R193). -/
theorem Trie.kraft_sum (t : Trie) (hnodup : t.symbols.Nodup) {n : Nat} (hn : t.depth ≤ n) :
    (t.symbols.map (fun s => 2 ^ (n - ((t.codeOf s).getD []).length))).sum = 2 ^ n := by
  induction t generalizing n with
  | leaf s => simp [Trie.symbols, Trie.codeOf]
  | node l r ihl ihr =>
    simp only [Trie.depth] at hn
    obtain ⟨n, rfl⟩ : ∃ m, n = m + 1 := ⟨n - 1, by omega⟩
    obtain ⟨hl, hr, hdisjoint⟩ := List.nodup_append.mp hnodup
    have hside (u : Trie) (c : Bool)
        (hcode : ∀ s ∈ u.symbols, ∀ path, u.codeOf s = some path → (Trie.node l r).codeOf s = some (c :: path)) :
        ∀ s ∈ u.symbols, 2 ^ (n + 1 - (((Trie.node l r).codeOf s).getD []).length) =
          2 ^ (n - ((u.codeOf s).getD []).length) := by
      intro s hs
      obtain ⟨path, hpath⟩ := Option.isSome_iff_exists.mp ((u.codeOf_isSome s).mpr hs)
      rw [hcode s hs path hpath, hpath, Option.getD_some, Option.getD_some, List.length_cons, Nat.add_sub_add_right]
    have hleft := hside l false fun s _ path => Trie.codeOf_node_left r
    have hright := hside r true fun s hs path => Trie.codeOf_node_right fun hmem => hdisjoint s hmem s hs rfl
    rw [Trie.symbols, List.map_append, List.sum_append, List.map_congr_left hleft, List.map_congr_left hright,
      ihl hl (by omega), ihr hr (by omega), pow_succ, Nat.mul_two]

/-- Settles O45: two codes are two paths to leaves, and the symbols with a code are those of the trie. -/
theorem codesArePrefixFree : Obligations.CodesArePrefixFree := by
  intro h block hne hl code
  refine ⟨?_, ?_⟩
  · rintro a b hab ha hb ⟨more, hmore⟩
    have ha' : (huffmanTrie block).follow (code a) = some a := Trie.follow_codeOf (codeAt_eq_some h hne hl ha)
    have hb' : (huffmanTrie block).follow (code a ++ more) = some b := by
      rw [hmore]
      exact Trie.follow_codeOf (codeAt_eq_some h hne hl hb)
    obtain rfl : more = [] := Trie.follow_append ha' hb'
    rw [List.append_nil, ha'] at hb'
    exact hab (Option.some.inj hb')
  · have hsymbols : (allSymbols.filter (fun s => decide (code s ≠ []))).Perm (huffmanTrie block).symbols := by
      rw [List.perm_ext_iff_of_nodup (allSymbols_nodup.filter _) (huffmanTrie_nodup hne)]
      intro s
      rw [List.mem_filter, decide_eq_true_iff, codeAt_ne_nil_iff h hne hl]
      exact and_iff_right (mem_allSymbols s)
    have hdepth := huffmanTrie_depth hne
    have hleaves := leaves_le block
    rw [(hsymbols.map _).sum_eq, ← (huffmanTrie block).kraft_sum (huffmanTrie_nodup hne) (by omega)]
    exact congrArg List.sum (List.map_congr_left fun s _ => by rw [← (prepare_spec h hne hl).2 s])

/-! ## Where the subtrees of a queue end up in the trie merged from it -/

theorem Weighted.before_irrefl (x : Weighted) : ¬ x.before x = true := by
  rw [Weighted.before_iff]
  omega

theorem Weighted.before_asymm {x y : Weighted} (h : x.before y = true) : ¬ y.before x = true :=
  fun h' => x.before_irrefl (Weighted.before_trans h h')

/-- A subtree that waits before the two merged ones waits before their join (R187). -/
theorem Weighted.before_join {x a b : Weighted} (hxa : x.before a = true) (hab : a.before b = true) :
    x.before (a.join b) = true := by
  simp only [Weighted.before_iff, Weighted.join] at *
  omega

/-- Merges come in key order, ties included: equal sums of ordered keys are sums of equal frequencies (R188). -/
theorem Weighted.join_before_join {p q a b : Weighted} (hpq : p.before q = true) (hqa : q.before a = true)
    (hab : a.before b = true) : (p.join q).before (a.join b) = true := by
  simp only [Weighted.before_iff, Weighted.join] at *
  omega

/-- `level` is the depth in the trie `t` at which each subtree of the queue hangs. No subtree hangs above one whose key is
larger; and where a subtree was merged from two that came before all others, none of these hangs more than one edge below
it. -/
structure Levels (queue : List Weighted) (t : Trie) (level : Weighted → Nat) : Prop where
  hangs : ∀ x ∈ queue, ∃ above : List Bool, above.length = level x ∧
    ∀ path, t.follow (above ++ path) = x.trie.follow path
  antitone : ∀ x ∈ queue, ∀ y ∈ queue, x.before y = true → level y ≤ level x
  merged : ∀ p q : Weighted, p.before q = true → p.join q ∈ queue → (∀ x ∈ queue, x ≠ p.join q → q.before x = true) →
    ∀ x ∈ queue, level x ≤ level (p.join q) + 1

theorem mem_enqueue {x y : Weighted} {queue : List Weighted} : y ∈ enqueue x queue ↔ y = x ∨ y ∈ queue :=
  (enqueue_perm x queue).mem_iff.trans List.mem_cons

/-- The keys of the two subtrees that are merged next come before all others. -/
theorem Ordered.heads {a b : Weighted} {rest : List Weighted} (ho : Ordered (a :: b :: rest)) :
    a.before b = true ∧ (∀ x ∈ rest, a.before x = true) ∧ ∀ x ∈ rest, b.before x = true := by
  obtain ⟨hfirst, hsorted⟩ := List.pairwise_cons.mp ho.sorted
  obtain ⟨hab, ha⟩ := List.forall_mem_cons.mp hfirst
  exact ⟨hab, ha, (List.pairwise_cons.mp hsorted).1⟩

/-- The depths before a merge of `a` and `b` from those after it. -/
def unmergedLevel (a b : Weighted) (level : Weighted → Nat) (x : Weighted) : Nat :=
  if x = a ∨ x = b then level (a.join b) + 1 else level x

@[simp] theorem unmergedLevel_left (a b : Weighted) (level : Weighted → Nat) :
    unmergedLevel a b level a = level (a.join b) + 1 := if_pos (.inl rfl)

@[simp] theorem unmergedLevel_right (a b : Weighted) (level : Weighted → Nat) :
    unmergedLevel a b level b = level (a.join b) + 1 := if_pos (.inr rfl)

section Unmerge

variable {a b : Weighted} {rest : List Weighted} {t : Trie} {level : Weighted → Nat}

theorem unmergedLevel_of_mem (ho : Ordered (a :: b :: rest)) (level : Weighted → Nat) {x : Weighted} (hx : x ∈ rest) :
    unmergedLevel a b level x = level x := by
  obtain ⟨-, ha, hb⟩ := ho.heads
  refine if_neg ?_
  rintro (rfl | rfl)
  · exact Weighted.before_irrefl _ (ha _ hx)
  · exact Weighted.before_irrefl _ (hb _ hx)

/-- The two subtrees merged hang at the bottom: no other one hangs below them. -/
theorem Levels.unmergedLevel_le (ho : Ordered (a :: b :: rest)) (h : Levels (enqueue (a.join b) rest) t level) :
    ∀ x ∈ a :: b :: rest, unmergedLevel a b level x ≤ level (a.join b) + 1 := by
  obtain ⟨hab, -, hb⟩ := ho.heads
  simp only [List.forall_mem_cons, unmergedLevel_left, unmergedLevel_right]
  refine ⟨le_rfl, le_rfl, fun x hx => ?_⟩
  rw [unmergedLevel_of_mem ho level hx]
  exact h.merged a b hab (mem_enqueue.mpr (.inl rfl)) (fun y hy hne => hb y ((mem_enqueue.mp hy).resolve_left hne)) x
    (mem_enqueue.mpr (.inr hx))

theorem Levels.unmerge_hangs (ho : Ordered (a :: b :: rest)) (h : Levels (enqueue (a.join b) rest) t level) :
    ∀ x ∈ a :: b :: rest, ∃ above : List Bool, above.length = unmergedLevel a b level x ∧
      ∀ path, t.follow (above ++ path) = x.trie.follow path := by
  obtain ⟨above, habove, hfollow⟩ := h.hangs _ (mem_enqueue.mpr (.inl rfl))
  simp only [List.forall_mem_cons, unmergedLevel_left, unmergedLevel_right]
  refine ⟨⟨above ++ [false], by simp [habove], fun path => ?_⟩, ⟨above ++ [true], by simp [habove], fun path => ?_⟩,
    fun x hx => ?_⟩
  · rw [List.append_assoc, hfollow]
    rfl
  · rw [List.append_assoc, hfollow]
    rfl
  · rw [unmergedLevel_of_mem ho level hx]
    exact h.hangs x (mem_enqueue.mpr (.inr hx))

theorem Levels.unmerge_antitone (ho : Ordered (a :: b :: rest)) (h : Levels (enqueue (a.join b) rest) t level) :
    ∀ x ∈ a :: b :: rest, ∀ y ∈ a :: b :: rest, x.before y = true →
      unmergedLevel a b level y ≤ unmergedLevel a b level x := by
  obtain ⟨-, ha, hb⟩ := ho.heads
  have hbottom := h.unmergedLevel_le ho
  refine List.forall_mem_cons.mpr ⟨fun y hy _ => ?_, List.forall_mem_cons.mpr ⟨fun y hy _ => ?_, fun x hx => ?_⟩⟩
  · rw [unmergedLevel_left]
    exact hbottom y hy
  · rw [unmergedLevel_right]
    exact hbottom y hy
  · simp only [List.forall_mem_cons]
    refine ⟨fun hxa => absurd hxa (Weighted.before_asymm (ha x hx)),
      fun hxb => absurd hxb (Weighted.before_asymm (hb x hx)), fun y hy hxy => ?_⟩
    rw [unmergedLevel_of_mem ho level hx, unmergedLevel_of_mem ho level hy]
    exact h.antitone x (mem_enqueue.mpr (.inr hx)) y (mem_enqueue.mpr (.inr hy)) hxy

theorem Levels.unmerge_merged (ho : Ordered (a :: b :: rest)) (h : Levels (enqueue (a.join b) rest) t level)
    {p q : Weighted} (hpq : p.before q = true) (hmem : p.join q ∈ a :: b :: rest)
    (hothers : ∀ x ∈ a :: b :: rest, x ≠ p.join q → q.before x = true) :
    ∀ x ∈ a :: b :: rest, unmergedLevel a b level x ≤ unmergedLevel a b level (p.join q) + 1 := by
  obtain ⟨hab, ha, -⟩ := ho.heads
  have hbottom := h.unmergedLevel_le ho
  rcases List.mem_cons.mp hmem with hpa | hmem
  · rw [hpa, unmergedLevel_left]
    exact fun x hx => Nat.le_succ_of_le (hbottom x hx)
  rcases List.mem_cons.mp hmem with hpb | hrest
  · rw [hpb, unmergedLevel_right]
    exact fun x hx => Nat.le_succ_of_le (hbottom x hx)
  -- `p.join q` was merged before `a.join b` is, so it has the smaller key and does not hang above it.
  have hqa : q.before a = true :=
    hothers a List.mem_cons_self fun e => Weighted.before_irrefl _ (ha _ (e ▸ hrest))
  have hlater : level (a.join b) ≤ level (p.join q) :=
    h.antitone _ (mem_enqueue.mpr (.inr hrest)) _ (mem_enqueue.mpr (.inl rfl)) (Weighted.join_before_join hpq hqa hab)
  simp only [List.forall_mem_cons, unmergedLevel_left, unmergedLevel_right, unmergedLevel_of_mem ho level hrest]
  refine ⟨Nat.succ_le_succ hlater, Nat.succ_le_succ hlater, fun x hx => ?_⟩
  rw [unmergedLevel_of_mem ho level hx]
  refine h.merged p q hpq (mem_enqueue.mpr (.inr hrest)) (fun y hy hne => ?_) x (mem_enqueue.mpr (.inr hx))
  rcases mem_enqueue.mp hy with rfl | hy
  · exact Weighted.before_join hqa hab
  · exact hothers y (List.mem_cons_of_mem a (List.mem_cons_of_mem b hy)) hne

/-- One merge taken back (R189). -/
theorem Levels.unmerge (ho : Ordered (a :: b :: rest)) (h : Levels (enqueue (a.join b) rest) t level) :
    Levels (a :: b :: rest) t (unmergedLevel a b level) :=
  ⟨h.unmerge_hangs ho, h.unmerge_antitone ho, fun _ _ => h.unmerge_merged ho⟩

end Unmerge

/-- A lone subtree hangs at the root. -/
theorem levels_singleton (rounds : Nat) (a : Weighted) : Levels [a] (mergeQueue rounds [a]) (fun _ => 0) := by
  have hmerge : mergeQueue rounds [a] = a.trie := by cases rounds <;> rfl
  rw [hmerge]
  refine ⟨fun x hx => ⟨[], rfl, fun path => ?_⟩, fun _ _ _ _ _ => le_rfl, fun _ _ _ _ _ _ _ => Nat.zero_le _⟩
  rw [List.mem_singleton.mp hx, List.nil_append]

/-- The subtrees of an ordered queue hang in the trie merged from it by their keys (R189, R193). -/
theorem mergeQueue_levels (rounds : Nat) (queue : List Weighted) (ho : Ordered queue) (hne : queue ≠ [])
    (hlen : queue.length ≤ rounds + 1) : ∃ level, Levels queue (mergeQueue rounds queue) level := by
  induction rounds generalizing queue with
  | zero =>
    match queue, hne, hlen with
    | [a], _, _ => exact ⟨_, levels_singleton 0 a⟩
  | succ rounds ih =>
    match queue, hne, hlen, ho with
    | [a], _, _, _ => exact ⟨_, levels_singleton (rounds + 1) a⟩
    | a :: b :: rest, _, hlen, ho =>
      have hcount := enqueue_length (a.join b) rest
      simp only [List.length_cons] at hlen
      obtain ⟨level, hlevels⟩ :=
        ih (enqueue (a.join b) rest) ho.step (List.ne_nil_of_length_pos (by omega)) (by omega)
      exact ⟨_, hlevels.unmerge ho⟩

/-! ## Frequent bytes -/

theorem Trie.mem_symbols_of_follow {t : Trie} {path : List Bool} {s : Byte} (h : t.follow path = some s) :
    s ∈ t.symbols := by
  induction t generalizing path with
  | leaf b =>
    cases path with
    | nil => simpa [Trie.follow, Trie.symbols, eq_comm] using h
    | cons => simp [Trie.follow] at h
  | node l r ihl ihr =>
    cases path with
    | nil => simp [Trie.follow] at h
    | cons c path =>
      rw [Trie.symbols, List.mem_append]
      cases c with
      | false => exact .inl (ihl (by simpa [Trie.follow] using h))
      | true => exact .inr (ihr (by simpa [Trie.follow] using h))

/-- Where no symbol has two leaves, a path to a leaf is the code of its symbol (R191, R192). -/
theorem Trie.codeOf_of_follow {t : Trie} (hnodup : t.symbols.Nodup) {path : List Bool} {s : Byte}
    (h : t.follow path = some s) : t.codeOf s = some path := by
  induction t generalizing path with
  | leaf b =>
    cases path with
    | nil => simpa [Trie.follow, Trie.codeOf, eq_comm] using h
    | cons => simp [Trie.follow] at h
  | node l r ihl ihr =>
    obtain ⟨hl, hr, hdisjoint⟩ := List.nodup_append.mp hnodup
    cases path with
    | nil => simp [Trie.follow] at h
    | cons c path =>
      cases c with
      | false => exact Trie.codeOf_node_left r (ihl hl (by simpa [Trie.follow] using h))
      | true =>
        have hfollow : r.follow path = some s := by simpa [Trie.follow] using h
        exact Trie.codeOf_node_right (fun hmem => hdisjoint s hmem s (Trie.mem_symbols_of_follow hfollow) rfl)
          (ihr hr hfollow)

/-- The leaf of a byte of the block, with its key, is one of the subtrees the merging starts from (R184). -/
def leafSeed (block : List Byte) (s : Byte) : Weighted := ⟨block.count s, s.toNat, .leaf s⟩

theorem leafSeed_mem_startQueue {block : List Byte} {s : Byte} (hs : s ∈ block) :
    leafSeed block s ∈ startQueue block := by
  rw [(startQueue_perm block).mem_iff, seedQueue, List.mem_append]
  exact .inl (List.mem_map.mpr ⟨s, mem_blockSymbols.mpr hs, rfl⟩)

/-- The length of a byte's code is the depth at which its leaf hangs. -/
theorem huffmanCode_length_eq_level {block : List Byte} {level : Weighted → Nat}
    (h : Levels (startQueue block) (huffmanTrie block) level) {s : Byte} (hs : s ∈ block) :
    (huffmanCode block s).length = level (leafSeed block s) := by
  obtain ⟨path, hlen, hfollow⟩ := h.hangs _ (leafSeed_mem_startQueue hs)
  have hpath : (huffmanTrie block).follow path = some s := by
    rw [← List.append_nil path, hfollow]
    rfl
  have hcode := Trie.codeOf_of_follow (huffmanTrie_nodup (List.ne_nil_of_mem hs)) hpath
  rw [huffmanCode_spec hs] at hcode
  rw [Option.some.inj hcode, hlen]

/-- Settles O46: the rarer byte's leaf has the smaller key, and does not hang above the other one. -/
theorem frequentBytesHaveShortCodes : Obligations.FrequentBytesHaveShortCodes := by
  intro h block a b hl hlt hpos
  have hb : b ∈ block := List.count_pos_iff.mp hpos
  have ha : a ∈ block := List.count_pos_iff.mp (hpos.trans hlt)
  have hne := List.ne_nil_of_mem hb
  obtain ⟨level, hlevels⟩ :=
    mergeQueue_levels _ _ (startQueue_ordered block) (startQueue_ne_nil hne) (Nat.le_succ _)
  rw [← huffmanTrie_eq] at hlevels
  have hkey : (leafSeed block b).before (leafSeed block a) = true := (Weighted.before_iff _ _).mpr (.inl hlt)
  have hlevel := hlevels.antitone _ (leafSeed_mem_startQueue hb) _ (leafSeed_mem_startQueue ha) hkey
  rw [← huffmanCode_length_eq_level hlevels ha, ← huffmanCode_length_eq_level hlevels hb] at hlevel
  rw [(prepare_spec h hne hl).2 a, (prepare_spec h hne hl).2 b]
  exact hlevel

/-! ## Sizes -/

/-- The trie of a block has as many leaves as phase 4 writes leaf records (R196). -/
theorem huffmanTrie_leafRecords (block : List Byte) : (huffmanTrie block).symbols.length = leafRecords block := by
  rcases eq_or_ne block [] with rfl | hne
  · simp [huffmanTrie_nil, Trie.symbols, leafRecords, distinctBytes, blockSymbols]
  · have hpos := distinctBytes_pos hne
    rw [huffmanTrie_leaves hne, leafRecords]
    split_ifs <;> omega

theorem leafRecords_bounds (block : List Byte) : 1 ≤ leafRecords block ∧ leafRecords block ≤ 256 := by
  have hle := distinctBytes_le block
  rw [leafRecords]
  split_ifs <;> omega

/-- The bits of the trie section: nine per leaf and one per internal node (R196). -/
theorem huffmanTrie_section_length (block : List Byte) :
    (huffmanTrie block).section.length = 10 * leafRecords block - 1 := by
  rw [← huffmanTrie_leafRecords, ← Trie.section_length, Nat.add_sub_cancel]

/-- Settles O47: phase 4 writes the bits of the trie section (`phase4_spec`). -/
theorem trieSectionSize : Obligations.TrieSectionSize := by
  intro h w block hl hw w' bits
  obtain ⟨hone, hmany⟩ := leafRecords_bounds block
  have hw' : w' = w.putBits (huffmanTrie block).section := phase4_spec h hl w
  have hzero : w.cnt.toNat = 0 := by rw [hw]; rfl
  have hcnt : w'.cnt.toNat = bits % 8 := by
    rw [hw', putBits_cnt, huffmanTrie_section_length, hzero, Nat.zero_add]
  have hsnk : w'.snk.length = w.snk.length + bits / 8 := by
    rw [hw', putBits_snk_length, huffmanTrie_section_length, hzero, Nat.zero_add]
  refine ⟨hcnt, hsnk, ?_, ?_, ?_⟩
  · rw [hcnt]
    omega
  · omega
  · omega

/-- The size of an artifact, by the codes of its body (R200). -/
theorem artifact_length (n : Word) (block : List Byte) :
    (artifact n block).length =
      (10 * leafRecords block - 1 + 32 + (block.map (fun b => (huffmanCode block b).length)).sum + 7) / 8 := by
  rw [artifact, packed_length, artifactBits, List.length_append, List.length_append, huffmanTrie_section_length,
    lengthBits_length, List.length_flatten, List.map_map]
  rfl

/-- The body's bits counted byte value by byte value, from the code table (R198). -/
theorem body_length {block : List Byte} (h : HufScratch) (hl : block.length < 2 ^ 32) :
    (block.map (fun b => (huffmanCode block b).length)).sum =
      (allSymbols.map (fun b => block.count b * ((h.prepare block).codeAt b).length)).sum := by
  rw [← sum_over_block block (fun b => ((h.prepare block).codeAt b).length)]
  have hcodes := congrArg (List.map List.length) (map_codeAt h hl)
  rw [List.map_map, List.map_map] at hcodes
  exact (congrArg List.sum hcodes).symm

/-! ## One distinct byte -/

theorem blockSymbols_replicate {n : Nat} (hn : n ≠ 0) (v : Byte) : blockSymbols (List.replicate n v) = [v] := by
  refine List.perm_singleton.mp ((List.perm_ext_iff_of_nodup (blockSymbols_nodup _) (List.nodup_singleton v)).mpr ?_)
  intro s
  rw [mem_blockSymbols, List.mem_replicate, List.mem_singleton]
  exact and_iff_right hn

theorem distinctBytes_replicate {n : Nat} (hn : n ≠ 0) (v : Byte) : distinctBytes (List.replicate n v) = 1 := by
  rw [distinctBytes, blockSymbols_replicate hn, List.length_singleton]

theorem placeholderSym_replicate {n : Nat} (hn : n ≠ 0) (v : Byte) :
    placeholderSym (List.replicate n v) = if v = 0#8 then 1#8 else 0#8 := by
  have hzero : (List.replicate n v).contains 0#8 = true ↔ v = 0#8 := by
    rw [List.contains_iff_mem, List.mem_replicate, and_iff_right hn]
    exact eq_comm
  exact if_congr hzero rfl rfl

/-- The placeholder has frequency 0, so it is removed first (R185, R190). -/
theorem huffmanTrie_replicate {n : Nat} (hn : n ≠ 0) (v : Byte) :
    huffmanTrie (List.replicate n v) =
      .node (.leaf (placeholderSym (List.replicate n v))) (.leaf v) := by
  have hseeds : seedQueue (List.replicate n v) =
      [⟨n, v.toNat, .leaf v⟩, ⟨0, (placeholderSym (List.replicate n v)).toNat,
        .leaf (placeholderSym (List.replicate n v))⟩] := by
    simp [seedQueue, blockSymbols_replicate hn, distinctBytes_replicate hn]
  rw [huffmanTrie, hseeds]
  simp [enqueue, Weighted.before, Nat.pos_of_ne_zero hn, mergeQueue, Weighted.join]

/-- The lone byte's code is the one bit 1 (R185). -/
theorem huffmanCode_replicate {n : Nat} (hn : n ≠ 0) (v : Byte) :
    huffmanCode (List.replicate n v) v = [true] := by
  have hother : v ≠ placeholderSym (List.replicate n v) := by
    intro e
    exact placeholder_not_mem (distinctBytes_replicate hn v) (e ▸ List.mem_replicate.mpr ⟨hn, rfl⟩)
  simp [huffmanCode, huffmanTrie_replicate hn, Trie.codeOf, hother]

/-- Settles O40, from the trie and the code of a block of equal bytes. -/
theorem compressOfOneDistinctByte : Obligations.CompressOfOneDistinctByte := by
  intro s v hlive hcnt hfits hlen hblock
  have hn : s.len.toNat ≠ 0 := fun e => hlen (BitVec.eq_of_toNat_eq e)
  obtain ⟨t, hrun, herr, hsnk⟩ := exec_compress_artifact hlive hcnt hfits
  refine ⟨t, hrun, herr, ?_⟩
  rw [hsnk, hblock, artifact, huffmanTrie_replicate hn, placeholderSym_replicate hn, List.map_replicate,
    huffmanCode_replicate hn]

/-- The artifact of `n` equal bytes (R200). -/
theorem artifact_length_replicate (len : Word) {n : Nat} (hn : n ≠ 0) (v : Byte) :
    (artifact len (List.replicate n v)).length = (58 + n) / 8 := by
  have hrecords : leafRecords (List.replicate n v) = 2 := by simp [leafRecords, distinctBytes_replicate hn]
  rw [artifact_length, hrecords, List.map_replicate, huffmanCode_replicate hn, List.sum_replicate, smul_eq_mul,
    List.length_singleton]
  omega

/-- Settles O48, from the size of the artifact that COMPRESS appends. -/
theorem artifactSize : Obligations.ArtifactSize := by
  intro s hlive hcnt hfits
  obtain ⟨t, hrun, -, hsnk⟩ := exec_compress_artifact hlive hcnt hfits
  refine ⟨t, hrun, ?_, fun v hblock hnine => ?_⟩
  · rw [hsnk, List.length_append, artifact_length, body_length s.huf (block_length_lt s)]
  · rw [hsnk, List.length_append, hblock, artifact_length_replicate s.len (by omega)]
    omega

end Sys2Proof.Machine

namespace Sys2Proof.Machine

/-! ## EXPAND: the precondition and the whole next state of an error -/

/-- EXPAND with bits pending in RBUF (R221): IllegalCommand, and the reader keeps them. -/
theorem exec_expand_of_pending {s : State} (hlive : s.fatal = false) (hcnt : s.rd.cnt ≠ 0#4) :
    exec .expand s = .next { s with eos := false, err := some .illegalCommand, res := 0#32 } :=
  exec_of_raised (t := { s with eos := false }) hlive (if_pos hcnt) (by decide)

/-- Settles O50: the precondition is tested before any phase begins. -/
theorem expandPrecondition : Obligations.ExpandPrecondition := fun _ hlive hcnt => exec_expand_of_pending hlive hcnt

/-- EXPAND of a source that its phases reject (R232): the next state as a whole. -/
theorem exec_expand_of_raised {s : State} (hlive : s.fatal = false) (hcnt : s.rd.cnt = 0#4) {k : ErrKind} {d : Decoder}
    (hread : Decoder.readArtifact s.nmax { rd := s.rd, huf := s.huf.startRead } = .raised k d)
    (hk : expandKind k ≠ .invariantViolation) :
    exec .expand s = .next { s with
      rd := d.rd.dropBits, obuf := s.obuf.forget, huf := d.huf.discard, olen := 0#32
      eos := decide (k = .endOfStream), err := some (expandKind k), res := 0#32 } := by
  refine exec_of_raised (t := { s with
    rd := d.rd.dropBits, obuf := s.obuf.forget, huf := d.huf.discard, olen := 0#32
    eos := decide (k = .endOfStream) }) hlive ?_ hk
  rw [bodyOf, expandBody, if_neg (by simpa using hcnt)]
  simp only [hread, Bool.false_or]

/-- EXPAND of a source that ends too early (R232, R253): MalformedArtifact with EOS = 1, and no output. -/
theorem exec_expand_of_exhausted {s : State} (hlive : s.fatal = false) (hcnt : s.rd.cnt = 0#4)
    (hread : Exhausted (Decoder.readArtifact s.nmax { rd := s.rd, huf := s.huf.startRead })) :
    ∃ t, exec .expand s = .next t ∧ t.err = some .malformedArtifact ∧ t.eos = true ∧ t.olen = 0#32 ∧ t.res = 0#32 ∧
      t.rd.src = [] ∧ t.rd.cnt = 0#4 ∧ (∀ k, t.obuf.get? k = none) ∧ ScratchUnspecified t.huf := by
  obtain ⟨d, hraised, hsrc, -⟩ := hread
  exact ⟨_, exec_expand_of_raised hlive hcnt hraised (by decide), rfl, rfl, rfl, rfl, hsrc, rfl, fun _ => rfl,
    scratchUnspecified_discard _⟩

/-! ## The artifact of a block as a source -/

/-- The trie of a block fits the arena (R191). -/
theorem huffmanTrie_size_le (block : List Byte) : (huffmanTrie block).size ≤ 511 := by
  have hsize := (huffmanTrie block).size_eq
  obtain ⟨-, hleaves⟩ := leafRecords_bounds block
  rw [huffmanTrie_leafRecords] at hsize
  omega

/-- The bits of an artifact and of what follows it: fewer than eight padding bits stand between them (R97). -/
theorem bitsOfBytes_artifact_append (n : Word) (block extra : List Byte) :
    ∃ pad : List Bool, pad.length < 8 ∧ bitsOfBytes (artifact n block ++ extra) =
      artifactBits (huffmanTrie block) n (block.map (huffmanCode block)) ++ pad ++ bitsOfBytes extra := by
  obtain ⟨pad, hshort, -, hbits⟩ := bitsOfBytes_packed (artifactBits (huffmanTrie block) n (block.map (huffmanCode block)))
  exact ⟨pad, hshort, by rw [bitsOfBytes_append, artifact, hbits]⟩

/-- An artifact cut short by a byte or more lacks a meaningful bit, since the padding is shorter than a byte (R236). -/
theorem bitsOfBytes_artifact_take {n : Word} {block : List Byte} {m : Nat} (hm : m < (artifact n block).length) :
    ∃ missing, missing ≠ [] ∧ artifactBits (huffmanTrie block) n (block.map (huffmanCode block)) =
      bitsOfBytes ((artifact n block).take m) ++ missing := by
  obtain ⟨pad, hshort, hbits⟩ := bitsOfBytes_artifact_append n block []
  rw [List.append_nil, show bitsOfBytes [] = [] from rfl, List.append_nil] at hbits
  have hlen := congrArg List.length hbits
  rw [bitsOfBytes_length, List.length_append] at hlen
  have htake : (bitsOfBytes ((artifact n block).take m)).length = 8 * m := by
    rw [bitsOfBytes_length, List.length_take, Nat.min_eq_left hm.le]
  have hprefix : bitsOfBytes ((artifact n block).take m) <+:
      artifactBits (huffmanTrie block) n (block.map (huffmanCode block)) := by
    refine List.prefix_of_prefix_length_le (l₃ := bitsOfBytes (artifact n block)) ?_ (hbits ▸ List.prefix_append _ _)
      (by omega)
    exact ⟨bitsOfBytes ((artifact n block).drop m), by rw [← bitsOfBytes_append, List.take_append_drop]⟩
  obtain ⟨missing, hmissing⟩ := hprefix
  refine ⟨missing, ?_, hmissing.symm⟩
  rintro rfl
  have := congrArg List.length hmissing
  rw [List.append_nil] at this
  omega

/-- Only the empty block has a trie without a branch, and its body has no bit (R195). -/
theorem body_nil_of_not_branches {block : List Byte} (h : (huffmanTrie block).branches = false) :
    (block.map (huffmanCode block)).flatten = [] := by
  rcases eq_or_ne block [] with rfl | hne
  · rfl
  · exact Bool.noConfusion (h.symm.trans (huffmanTrie_branches hne))

/-- Settles O56: a truncated artifact lacks a meaningful bit, and the phases run out of data (`readArtifact_truncated`). -/
theorem truncationIsReported : Obligations.TruncationIsReported := by
  intro s u hlive hcnt hfits hlive' hcnt' hfits'
  obtain ⟨t, hrun, -, hsnk⟩ := exec_compress_artifact hlive hcnt hfits
  refine ⟨t, _, hrun, hsnk, fun m hm hsrc => ?_⟩
  obtain ⟨missing, hmissing, hbits⟩ := bitsOfBytes_artifact_take hm
  rw [← hsrc, ← pendingBits_of_aligned hcnt'] at hbits
  obtain ⟨v, hexpand, herr, heos, holen, -, hrest, hempty, -⟩ :=
    exec_expand_of_exhausted hlive' hcnt' (readArtifact_truncated rfl (by simp [hcnt']) hfits'
      (huffmanTrie_size_le s.block) (block_length s) body_nil_of_not_branches (fun _ => huffmanCode_codes s.block)
      hbits hmissing)
  exact ⟨v, hexpand, herr, heos, holen, hrest, hempty⟩

/-! ## A trie and a length in SRC -/

/-- EXPAND on a trie that fits the arena and a length field: ROOT is the trie, and the length decides what follows (R220,
R226, R228). -/
theorem readArtifact_of_header {d : Decoder} {trie : Trie} {n : Word} {rest : List Bool} (h0 : d.huf.ncntVal = 0#10)
    (h7 : d.rd.cnt.toNat ≤ 7) (hsize : trie.size ≤ 511)
    (hp : d.rd.pendingBits = trie.section ++ (lengthBits n ++ rest)) (nmax : Word) :
    ∃ d' : Decoder, d'.huf.HasTrie d'.huf.rootVal trie ∧ d'.rd.pendingBits = rest ∧ Fetched d.rd d'.rd ∧
      d.readArtifact nmax = if nmax.toNat < n.toNat then .raised .capacityExceeded d'
        else (d'.decodeBody n.toNat).andThen fun out d => .ok (n, out) d := by
  obtain ⟨x, d1, hnode, hto, -, htrie, -⟩ :=
    readNode_spec trie Config.nodeMax d _ h7 hp (by rw [h0]; simpa using hsize) hsize
  have hp1 := pending_after hto hp
  obtain ⟨r, hlength, hto'⟩ := readLength_spec (d := d1.setRoot x) hto.count hp1
  have hfetched : Fetched d.rd d1.rd := by
    have := readNode_meets Config.nodeMax d h7
    rwa [hnode] at this
  have hfetched' : Fetched d1.rd r := by
    have := readLength_meets (d1.setRoot x) hto.count
    rwa [hlength] at this
  refine ⟨{ d1.setRoot x with rd := r }, setRoot_hasTrie (TrieIn.hasTrie htrie), pending_after hto' hp1,
    hfetched.trans hfetched', ?_⟩
  rw [Decoder.readArtifact, hnode]
  simp only [Attempt.andThen, hlength]

/-- A reader of whole bytes that has only the padding and whole bytes left before it has these bytes in SRC (R233). -/
theorem src_of_fetched {r r' : BitReader} {bits pad : List Bool} {extra : List Byte} (hfetched : Fetched r r')
    (hpad : pad.length < 8) (hrest : r'.pendingBits = pad ++ bitsOfBytes extra)
    (hsrc : bitsOfBytes r.src = bits ++ pad ++ bitsOfBytes extra) : r'.src = extra :=
  src_of_pending hfetched.count hpad hrest hfetched.suffix (suffix_of_bits hsrc)

/-- The body below a root that is a leaf: no symbol can be decoded (R229). -/
theorem decodeBody_of_leaf {d : Decoder} {sym : Byte} (h : d.huf.HasTrie d.huf.rootVal (.leaf sym)) (len : Nat) :
    d.decodeBody len = if len = 0 then .ok [] d else .raised .malformedArtifact d := by
  rw [Decoder.decodeBody, if_pos h.1, ite_not]

/-- Settles O52: the root is a leaf, so no bit of the body is read, and the length alone decides. -/
theorem expandOfARootLeaf : Obligations.ExpandOfARootLeaf := by
  intro s sym n pad extra hlive hcnt hfits hpad hsrc
  have hpending : s.rd.pendingBits = (Trie.leaf sym).section ++ (lengthBits n ++ (pad ++ bitsOfBytes extra)) := by
    rw [pendingBits_of_aligned hcnt, hsrc]
    simp only [List.append_assoc]
  obtain ⟨d, htrie, hrest, hfetched, hread⟩ :=
    readArtifact_of_header (d := { rd := s.rd, huf := s.huf.startRead }) rfl (by simp [hcnt]) Nat.one_le_ofNat hpending
      s.nmax
  have hextra : d.rd.src = extra := src_of_fetched hfetched hpad hrest hsrc
  rw [if_neg (by omega), decodeBody_of_leaf htrie] at hread
  by_cases hn : n = 0#32
  · subst hn
    exact ⟨_, exec_expand_of_readArtifact hlive hcnt hread, hextra, rfl, rfl, rfl, rfl, Memory.get?_fill _ _,
      scratchUnspecified_discard _, rfl⟩
  · have hpos : n.toNat ≠ 0 := fun h => hn (BitVec.eq_of_toNat_eq h)
    rw [if_neg hpos] at hread
    exact ⟨_, exec_expand_of_raised hlive hcnt hread (by decide), hextra, rfl, rfl, rfl, rfl, fun _ => rfl,
      scratchUnspecified_discard _, (if_neg hn).symm⟩

/-- Settles O53, over the trie that is too large and the length that is. -/
theorem expandRejectsWhatDoesNotFit : Obligations.ExpandRejectsWhatDoesNotFit := by
  intro s trie hlive hcnt
  refine ⟨fun pad extra hsize hpad hsrc => ?_, fun n pad extra hsize hover hpad hsrc => ?_⟩
  · have hpending : s.rd.pendingBits = (trie.records.take 511).flatMap recordBits ++ (pad ++ bitsOfBytes extra) := by
      rw [pendingBits_of_aligned hcnt, hsrc, List.append_assoc]
    obtain ⟨d, hread, hrest, hfetched⟩ :=
      readArtifact_overflow (d := { rd := s.rd, huf := s.huf.startRead }) (nmax := s.nmax) rfl (by simp [hcnt]) hsize
        hpending
    have hextra : d.rd.src = extra := src_of_fetched hfetched hpad hrest hsrc
    exact ⟨_, exec_expand_of_raised hlive hcnt hread (by decide), rfl, rfl, rfl, rfl, hextra⟩
  · have hpending : s.rd.pendingBits = trie.section ++ (lengthBits n ++ (pad ++ bitsOfBytes extra)) := by
      rw [pendingBits_of_aligned hcnt, hsrc]
      simp only [List.append_assoc]
    obtain ⟨d, -, hrest, hfetched, hread⟩ :=
      readArtifact_of_header (d := { rd := s.rd, huf := s.huf.startRead }) rfl (by simp [hcnt]) hsize hpending s.nmax
    rw [if_pos hover] at hread
    have hextra : d.rd.src = extra := src_of_fetched hfetched hpad hrest hsrc
    exact ⟨_, exec_expand_of_raised hlive hcnt hread (by decide), rfl, rfl, rfl, rfl, hextra⟩

/-! ## The round trip -/

theorem block_getElem? {s : State} {k : Nat} (h : k < s.len.toNat) : s.block[k]? = some (s.ibufAt k) := by
  rw [State.block, State.blockLen, List.getElem?_map, List.getElem?_range h]
  rfl

/-- Settles O55: the artifact of the empty block is a root leaf with length 0, and every other one is decoded along its
codes. -/
theorem roundTrip : Obligations.RoundTrip := by
  intro s u extra hlive hcnt hfits hlive' hcnt' hfits'
  obtain ⟨t, hrun, herr, hsnk⟩ := exec_compress_artifact hlive hcnt hfits
  refine ⟨t, _, hrun, herr, hsnk, fun hsrc => ?_⟩
  obtain ⟨pad, hpad, hbits⟩ := bitsOfBytes_artifact_append s.len s.block extra
  rw [← hsrc] at hbits
  rcases eq_or_ne s.block [] with hempty | hne
  · have hlen : s.len = 0#32 := BitVec.eq_of_toNat_eq (by rw [← block_length, hempty]; rfl)
    rw [hempty, huffmanTrie_nil, artifactBits, List.map_nil, List.flatten_nil, List.append_nil] at hbits
    obtain ⟨v, hexpand, hextra, -, holen, -, -, -, -, hnone⟩ :=
      expandOfARootLeaf u 0#8 s.len pad extra hlive' hcnt' hfits' hpad hbits
    rw [if_pos hlen] at hnone
    exact ⟨v, hexpand, hnone, holen.trans hlen.symm, hextra, fun k hk => absurd hk (by simp [hlen])⟩
  · obtain ⟨-, hdecodes⟩ := expandDecodesAnArtifact
    obtain ⟨buf, front, obuf, h, hexpand, -, hobuf, -⟩ :=
      hdecodes u (huffmanTrie s.block) s.len (s.block.map (huffmanCode s.block)) s.block pad extra hlive' hcnt' hfits'
        (huffmanTrie_branches hne) (huffmanTrie_size_le s.block) (block_length s) (huffmanCode_codes s.block) hpad hbits
    exact ⟨_, hexpand, rfl, rfl, rfl, fun k hk => (hobuf k).trans (block_getElem? hk)⟩

/-! ## Two runs of EXPAND on one source -/

/-- Every bit string begins with a trie section, or is the beginning of one (R98). -/
theorem exists_trie_of_bits (bits : List Bool) : ∃ t : Trie, t.section <+: bits ∨ bits <+: t.section := by
  induction hlen : bits.length using Nat.strongRecOn generalizing bits with
  | _ len ih =>
    subst hlen
    match bits with
    | [] => exact ⟨.leaf 0#8, .inr List.nil_prefix⟩
    | true :: rest =>
      obtain ⟨sym, hsym⟩ := exists_byte (x := (rest ++ List.replicate 8 false).take 8) (by simp)
      have hprefix : bitsOfByte sym <+: rest ++ List.replicate 8 false := hsym ▸ List.take_prefix _ _
      rcases List.prefix_or_prefix_of_prefix hprefix (List.prefix_append rest _) with h | h
      · exact ⟨.leaf sym, .inl (List.cons_prefix_cons.mpr ⟨rfl, h⟩)⟩
      · exact ⟨.leaf sym, .inr (List.cons_prefix_cons.mpr ⟨rfl, h⟩)⟩
    | false :: rest =>
      obtain ⟨l, ⟨more, rfl⟩ | hshort⟩ := ih _ (Nat.lt_succ_self _) rest rfl
      · obtain ⟨r, hr⟩ := ih more.length (by simp) more rfl
        refine ⟨.node l r, hr.imp ?_ ?_⟩ <;>
          exact fun h => List.cons_prefix_cons.mpr ⟨rfl, (List.prefix_append_right_inj _).mpr h⟩
      · exact ⟨.node l (.leaf 0#8), .inr (List.cons_prefix_cons.mpr ⟨rfl, hshort.trans (List.prefix_append _ _)⟩)⟩

/-- Every bit string begins with the section of a trie that fits the arena, or with the first 511 records of a larger trie,
or ends inside the first 511 records of a trie (R224, R253 a). -/
theorem trie_cases_of_bits (bits : List Bool) :
    ∃ t : Trie, (t.size ≤ 511 ∧ t.section <+: bits) ∨
      (511 < t.size ∧ (t.records.take 511).flatMap recordBits <+: bits) ∨
      ∃ missing, missing ≠ [] ∧ (t.records.take 511).flatMap recordBits = bits ++ missing := by
  obtain ⟨t, ht⟩ := exists_trie_of_bits bits
  have hsection : (t.records.take 511).flatMap recordBits <+: t.section :=
    ⟨(t.records.drop 511).flatMap recordBits, by
      rw [← List.flatMap_append, List.take_append_drop, Trie.section_eq_records]⟩
  have hcomparable : (t.records.take 511).flatMap recordBits <+: bits ∨
      bits <+: (t.records.take 511).flatMap recordBits :=
    ht.elim (fun h => .inl (hsection.trans h)) (List.prefix_or_prefix_of_prefix hsection)
  refine ⟨t, ?_⟩
  by_cases hread : (t.records.take 511).flatMap recordBits <+: bits
  · rcases Nat.lt_or_ge 511 t.size with hlarge | hfits
    · exact .inr (.inl ⟨hlarge, hread⟩)
    · rw [List.take_of_length_le (by rwa [Trie.records_length]), ← Trie.section_eq_records] at hread
      exact .inl ⟨hfits, hread⟩
  · obtain ⟨missing, hmissing⟩ := hcomparable.resolve_left hread
    refine .inr (.inr ⟨missing, ?_, hmissing.symm⟩)
    rintro rfl
    exact hread (by rw [← hmissing, List.append_nil])

/-- How many bits a reader has left says what is left of SRC, and so does not depend on the RBUF it began with (R122). -/
theorem Fetched.src_cnt_eq {r r' a b : BitReader} (hsrc : r.src = r'.src) (ha : Fetched r a) (hb : Fetched r' b)
    (hleft : a.pendingBits = b.pendingBits) : a.src = b.src ∧ a.cnt = b.cnt := by
  have hlen := congrArg List.length hleft
  rw [pendingBits_length, pendingBits_length, BitReader.bitsLeft, BitReader.bitsLeft] at hlen
  have ha7 := ha.count
  have hb7 := hb.count
  refine ⟨?_, BitVec.eq_of_toNat_eq (by omega)⟩
  exact (List.suffix_of_suffix_length_le ha.suffix (hsrc ▸ hb.suffix) (by omega)).eq_of_length (by omega)

/-- Readers that took at least one byte of the same SRC agree on RBUF as well (R38). -/
theorem Fetched.unique {r r' a b : BitReader} (hsrc : r.src = r'.src) (ha : Fetched r a) (hb : Fetched r' b)
    (hleft : a.pendingBits = b.pendingBits) (hshort : a.src.length < r.src.length) : a = b := by
  obtain ⟨hrest, hcnt⟩ := Fetched.src_cnt_eq hsrc ha hb hleft
  obtain ⟨front, hfront⟩ := ha.exists_front hshort
  obtain ⟨front', hfront'⟩ := hb.exists_front (by rwa [← hrest, ← hsrc])
  have htaken : a.buf :: a.src = b.buf :: b.src :=
    (List.append_inj' (hfront.symm.trans (hsrc.trans hfront')) (by simp [hrest])).2
  have hbuf : a.buf = b.buf := (List.cons.inj htaken).1
  cases a
  cases b
  simp only at hbuf hcnt hrest
  rw [hbuf, hcnt, hrest]

/-- Reading a trie from whole bytes takes at least one of them, since a trie has a record. -/
theorem src_length_lt_of_section {r r' : BitReader} {t : Trie} (hcnt : r.cnt = 0#4) (h : ReadsTo r t.section r') :
    r'.src.length < r.src.length := by
  have hlen := congrArg List.length h.bits
  have hsection := t.section_length
  have hleaves := t.leaves_pos
  rw [List.length_append, pendingBits_length, pendingBits_length, BitReader.bitsLeft, BitReader.bitsLeft, hcnt] at hlen
  simp only [BitVec.toNat_ofNat] at hlen
  omega

/-- Two attempts of EXPAND end alike: normally with related results, or with one error and the same bytes left in SRC. -/
def Attempt.Alike {α : Type} (a a' : Attempt Decoder α) (ok : α → Decoder → α → Decoder → Prop) : Prop :=
  match a, a' with
  | .ok v d, .ok v' d' => ok v d v' d'
  | .raised k d, .raised k' d' => k = k' ∧ d.rd.src = d'.rd.src
  | _, _ => False

theorem Attempt.Alike.andThen {α β : Type} {a a' : Attempt Decoder α} {f f' : α → Decoder → Attempt Decoder β}
    {ok : α → Decoder → α → Decoder → Prop} {ok' : β → Decoder → β → Decoder → Prop} (h : a.Alike a' ok)
    (hf : ∀ v d v' d', ok v d v' d' → (f v d).Alike (f' v' d') ok') : (a.andThen f).Alike (a'.andThen f') ok' := by
  match a, a', h with
  | .ok v d, .ok v' d', h => exact hf v d v' d' h
  | .raised _ _, .raised _ _, h => exact h

theorem Exhausted.alike {α : Type} {a a' : Attempt Decoder α} (h : Exhausted a) (h' : Exhausted a')
    (ok : α → Decoder → α → Decoder → Prop) : a.Alike a' ok := by
  obtain ⟨d, rfl, hsrc, -⟩ := h
  obtain ⟨d', rfl, hsrc', -⟩ := h'
  exact ⟨rfl, hsrc.trans hsrc'.symm⟩

/-- The two decoders have the same reader, and the same trie at their roots. -/
def SameReaderAndTrie (d d' : Decoder) : Prop :=
  d.rd = d'.rd ∧ ∃ t, d.huf.HasTrie d.huf.rootVal t ∧ d'.huf.HasTrie d'.huf.rootVal t

/-- A reader operation sees nothing of a decoder but its reader. -/
theorem reading_alike {α : Type} {d d' : Decoder} (h : SameReaderAndTrie d d') (op : BitReader → Attempt BitReader α) :
    (d.reading op).Alike (d'.reading op) (fun v e v' e' => v = v' ∧ SameReaderAndTrie e e') := by
  obtain ⟨hrd, htrie⟩ := h
  unfold Decoder.reading
  rw [← hrd]
  cases op d.rd with
  | ok v r => exact ⟨rfl, rfl, htrie⟩
  | raised k r => exact ⟨rfl, rfl⟩

/-- ReadLength works on the reader alone (R226). -/
theorem readLength_alike {d d' : Decoder} (h : SameReaderAndTrie d d') :
    d.readLength.Alike d'.readLength (fun n e n' e' => n = n' ∧ SameReaderAndTrie e e') := by
  unfold Decoder.readLength
  refine (reading_alike h _).andThen ?_
  rintro b0 d0 _ d0' ⟨rfl, h0⟩
  refine (reading_alike h0 _).andThen ?_
  rintro b1 d1 _ d1' ⟨rfl, h1⟩
  refine (reading_alike h1 _).andThen ?_
  rintro b2 d2 _ d2' ⟨rfl, h2⟩
  refine (reading_alike h2 _).andThen ?_
  rintro b3 d3 _ d3' ⟨rfl, h3⟩
  exact ⟨rfl, h3⟩

/-- The decode walk sees nothing of the scratch but the trie (R230). -/
theorem decodeFrom_of_trie {h h' : HufScratch} {t : Trie} : ∀ {x x' : NodeIdx}, h.HasTrie x t → h'.HasTrie x' t →
    ∀ bits r, h.decodeFrom bits x r = h'.decodeFrom bits x' r := by
  induction t with
  | leaf s =>
    intro x x' ⟨hleaf, hsym⟩ ⟨hleaf', hsym'⟩ bits r
    unfold HufScratch.decodeFrom
    rw [if_pos hleaf, if_pos hleaf', hsym, hsym']
  | node left right ihl ihr =>
    intro x x' ⟨hinner, hl, hr⟩ ⟨hinner', hl', hr'⟩ bits r
    unfold HufScratch.decodeFrom
    rw [if_neg (by simp [hinner]), if_neg (by simp [hinner'])]
    congr 1
    funext b r1
    cases bits with
    | zero => rfl
    | succ bits =>
      cases b with
      | false => exact ihl hl hl' bits r1
      | true => exact ihr hr hr' bits r1

theorem decodeSymbols_of_trie {h h' : HufScratch} {t : Trie} (ht : h.HasTrie h.rootVal t)
    (ht' : h'.HasTrie h'.rootVal t) (count : Nat) : h.decodeSymbols count = h'.decodeSymbols count := by
  induction count with
  | zero => rfl
  | succ count ih =>
    funext r
    rw [HufScratch.decodeSymbols, HufScratch.decodeSymbols, decodeFrom_of_trie ht ht', ih]

/-- DecodeBody sees nothing of the scratch but the trie (R229, R230). -/
theorem decodeBody_alike {d d' : Decoder} (h : SameReaderAndTrie d d') (len : Nat) :
    (d.decodeBody len).Alike (d'.decodeBody len) (fun out e out' e' => out = out' ∧ SameReaderAndTrie e e') := by
  obtain ⟨hrd, t, ht, ht'⟩ := h
  unfold Decoder.decodeBody
  rw [HasTrie.leaf_iff ht, HasTrie.leaf_iff ht']
  split_ifs
  · exact ⟨rfl, congrArg BitReader.src hrd⟩
  · exact ⟨rfl, hrd, t, ht, ht'⟩
  · rw [decodeSymbols_of_trie ht ht']
    exact reading_alike ⟨hrd, t, ht, ht'⟩ _

/-- ReadNode on one source, whatever RBUF and the scratches hold: the source is one of the three of `trie_cases_of_bits`
(R223 to R225). -/
theorem readNode_alike {d d' : Decoder} (hcnt : d.rd.cnt = 0#4) (hcnt' : d'.rd.cnt = 0#4)
    (hsrc : d.rd.src = d'.rd.src) (h0 : d.huf.ncntVal = 0#10) (h0' : d'.huf.ncntVal = 0#10) :
    (Decoder.readNode Config.nodeMax d).Alike (Decoder.readNode Config.nodeMax d')
      (fun x e x' e' => SameReaderAndTrie (e.setRoot x) (e'.setRoot x')) := by
  have hn : d.huf.ncntVal.toNat = 0 := by rw [h0]; rfl
  have hn' : d'.huf.ncntVal.toNat = 0 := by rw [h0']; rfl
  have h7 : d.rd.cnt.toNat ≤ 7 := by simp [hcnt]
  have h7' : d'.rd.cnt.toNat ≤ 7 := by simp [hcnt']
  have hbits : d'.rd.pendingBits = d.rd.pendingBits := by
    rw [pendingBits_of_aligned hcnt, pendingBits_of_aligned hcnt', hsrc]
  have hmeets := readNode_meets Config.nodeMax d h7
  have hmeets' := readNode_meets Config.nodeMax d' h7'
  obtain ⟨t, ⟨hsize, rest, hp⟩ | ⟨hsize, rest, hp⟩ | ⟨missing, hmissing, hp⟩⟩ := trie_cases_of_bits d.rd.pendingBits
  · obtain ⟨x, e, hread, hto, -, htrie, -⟩ := readNode_spec t Config.nodeMax d rest h7 hp.symm (by omega) hsize
    obtain ⟨x', e', hread', hto', -, htrie', -⟩ :=
      readNode_spec t Config.nodeMax d' rest h7' (hbits.trans hp.symm) (by omega) hsize
    rw [hread] at hmeets ⊢
    rw [hread'] at hmeets' ⊢
    have hleft : e.rd.pendingBits = e'.rd.pendingBits := by
      rw [pending_after hto hp.symm, pending_after hto' (hbits.trans hp.symm)]
    exact ⟨Fetched.unique hsrc hmeets hmeets' hleft (src_length_lt_of_section hcnt hto), t,
      setRoot_hasTrie (TrieIn.hasTrie htrie), setRoot_hasTrie (TrieIn.hasTrie htrie')⟩
  · obtain ⟨e, hread, hrest⟩ := readNode_overflow t Config.nodeMax d rest h7 (by rw [hn]; exact hp.symm) (by omega)
      (by omega) (by simp [Config.nodeMax])
    obtain ⟨e', hread', hrest'⟩ := readNode_overflow t Config.nodeMax d' rest h7'
      (by rw [hn', hbits]; exact hp.symm) (by omega) (by omega) (by simp [Config.nodeMax])
    rw [hread] at hmeets ⊢
    rw [hread'] at hmeets' ⊢
    exact ⟨rfl, (Fetched.src_cnt_eq hsrc hmeets.2 hmeets'.2 (hrest.trans hrest'.symm)).1⟩
  · exact (readNode_truncated t Config.nodeMax d missing h7 (by rw [hn]; exact hp) hmissing
      (by simp [Config.nodeMax])).alike (readNode_truncated t Config.nodeMax d' missing h7'
        (by rw [hn', hbits]; exact hp) hmissing (by simp [Config.nodeMax])) _

/-- The `try` block of EXPAND on one source, whatever RBUF and the scratches hold (R220). -/
theorem readArtifact_alike {d d' : Decoder} (hcnt : d.rd.cnt = 0#4) (hcnt' : d'.rd.cnt = 0#4)
    (hsrc : d.rd.src = d'.rd.src) (h0 : d.huf.ncntVal = 0#10) (h0' : d'.huf.ncntVal = 0#10) (nmax : Word) :
    (d.readArtifact nmax).Alike (d'.readArtifact nmax) (fun p e p' e' => p = p' ∧ e.rd.src = e'.rd.src) := by
  refine (readNode_alike hcnt hcnt' hsrc h0 h0').andThen fun x d1 x' d1' h1 => (readLength_alike h1).andThen ?_
  rintro n d2 _ d2' ⟨rfl, h2⟩
  split_ifs
  · exact ⟨rfl, congrArg BitReader.src h2.1⟩
  · refine (decodeBody_alike h2 _).andThen ?_
    rintro out d3 _ d3' ⟨rfl, h3⟩
    exact ⟨rfl, congrArg BitReader.src h3.1⟩

/-- None of the kinds that EXPAND's phases raise is InvariantViolation (R232, R256). -/
theorem RejectedAt.kind_ne {r : BitReader} {k : ErrKind} {d : Decoder} (h : RejectedAt r k d) :
    expandKind k ≠ .invariantViolation := by
  obtain ⟨⟨rfl, -⟩ | rfl | rfl, -⟩ := h <;> decide

/-- Settles O54: the two runs end alike, and what the statement compares is given by how they end. -/
theorem expandDependsOnlyOnTheSource : Obligations.ExpandDependsOnlyOnTheSource := by
  intro s s' hlive hlive' hcnt hcnt' hsrc hnmax
  have halike := readArtifact_alike (d := { rd := s.rd, huf := s.huf.startRead })
    (d' := { rd := s'.rd, huf := s'.huf.startRead }) hcnt hcnt' hsrc rfl rfl s.nmax
  have hmeets := readArtifact_meets s.nmax { rd := s.rd, huf := s.huf.startRead } (by simp [hcnt])
  generalize hread : Decoder.readArtifact s.nmax { rd := s.rd, huf := s.huf.startRead } = a at halike hmeets
  generalize hread' : Decoder.readArtifact s.nmax { rd := s'.rd, huf := s'.huf.startRead } = a' at halike
  rw [hnmax] at hread'
  match a, a', halike with
  | .ok (n, out) d, .ok _ d', ⟨rfl, hrest⟩ =>
    exact ⟨_, _, exec_expand_of_readArtifact hlive hcnt hread, exec_expand_of_readArtifact hlive' hcnt' hread', rfl, rfl,
      rfl, hrest, fun k => by rw [Memory.get?_fill, Memory.get?_fill]⟩
  | .raised k d, .raised _ d', ⟨rfl, hrest⟩ =>
    exact ⟨_, _, exec_expand_of_raised hlive hcnt hread hmeets.kind_ne,
      exec_expand_of_raised hlive' hcnt' hread' hmeets.kind_ne, rfl, rfl, rfl, hrest, fun _ => rfl⟩

end Sys2Proof.Machine

namespace Sys2Proof.Machine

/-! ## EXPAND of a source that ends early -/

/-- The codes of a trie that is a single leaf have no bit, so its body is empty (R229). -/
theorem CodesOf.flatten_eq_nil {trie : Trie} {codes : List (List Bool)} {syms : List Byte}
    (hcodes : CodesOf trie codes syms) (hleaf : trie.branches = false) : codes.flatten = [] := by
  cases trie with
  | node l r => exact Bool.noConfusion hleaf
  | leaf sym =>
    induction hcodes with
    | nil => rfl
    | @cons code _ _ _ hfollow _ ih =>
      cases code with
      | nil => exact ih
      | cons b rest => exact nomatch hfollow

/-- Settles O59: the bits of SRC are what the reader has still to deliver, and each phase runs out of them. -/
theorem expandReportsExhaustion : Obligations.ExpandReportsExhaustion := by
  intro s trie n missing hlive hcnt hmissing
  have h7 : s.rd.cnt.toNat ≤ 7 := by simp [hcnt]
  rw [← pendingBits_of_aligned hcnt]
  refine ⟨fun hbits => ?_, fun hsize hbits => ?_, fun codes out hsize hfits hout hcodes hbits => ?_⟩
  · exact exec_expand_of_exhausted hlive hcnt (readArtifact_shortTrie rfl h7 hbits hmissing)
  · exact exec_expand_of_exhausted hlive hcnt (readArtifact_short rfl h7 hsize hbits hmissing)
  · exact exec_expand_of_exhausted hlive hcnt
      (readArtifact_truncated rfl h7 hfits hsize hout hcodes.flatten_eq_nil (fun _ => hcodes) hbits hmissing)

/-! ## The two ends of a command -/

/-- The commands that can raise a kind (R250). -/
def ErrKind.RaisedBy : ErrKind → Instr → Prop
  | .indexOutOfRange, i => i = .sufstart
  | .endOfStream, i => i = .rbit ∨ i = .rbyte
  | .malformedArtifact, i => i = .expand
  | .invariantViolation, _ => False
  | .illegalCommand, i => i = .wbit ∨ i = .wbyte ∨ i = .compress ∨ i = .expand
  | .capacityExceeded, i => i = .construct ∨ i = .compress ∨ i = .expand

theorem Ran.raisedBy {i : Instr} {s t : State} {k : ErrKind} (ran : Ran i s (.raised k t)) : k.RaisedBy i := by
  cases ran with
  | expandRejected _ _ kind => rcases kind with rfl | rfl <;> simp [ErrKind.RaisedBy]
  | _ => simp [ErrKind.RaisedBy]

/-- No command raises InvariantViolation (R256). -/
theorem Ran.kind_ne {i : Instr} {s t : State} {k : ErrKind} (ran : Ran i s (.raised k t)) : k ≠ .invariantViolation := by
  rintro rfl
  exact ran.raisedBy

/-- How a command ends while FATAL = 0: normally, or with a kind its pseudocode raises (R258 step 5). -/
theorem exec_live_ends (i : Instr) {s : State} (hlive : s.fatal = false) :
    (∃ result t, Ran i { s with eos := false } (.ok result t) ∧
      exec i s = .next { t with err := none, res := result }) ∨
    ∃ k t, Ran i { s with eos := false } (.raised k t) ∧ exec i s = .next { t with err := some k, res := 0#32 } := by
  have ran := body_ran i { s with eos := false }
  cases hbody : bodyOf i { s with eos := false } with
  | ok result t => exact .inl ⟨result, t, hbody ▸ ran, exec_of_ok hlive hbody⟩
  | raised k t =>
    rw [hbody] at ran
    exact .inr ⟨k, t, ran, exec_of_raised hlive hbody ran.kind_ne⟩

/-- A command that ends with an error while FATAL = 0 is one whose pseudocode raised that kind. -/
theorem exec_live_raised {i : Instr} {s t : State} {k : ErrKind} (hlive : s.fatal = false) (hexec : exec i s = .next t)
    (herr : t.err = some k) :
    ∃ u, Ran i { s with eos := false } (.raised k u) ∧ t = { u with err := some k, res := 0#32 } := by
  rcases exec_live_ends i hlive with ⟨_, u, -, hend⟩ | ⟨_, u, ran, hend⟩ <;>
    obtain rfl := Host.Outcome.next.inj (hend.symm.trans hexec)
  · exact nomatch herr
  · obtain rfl := Option.some.inj herr
    exact ⟨u, ran, rfl⟩

/-! ## The kinds of each command, and EOS -/

/-- A command that ends normally leaves EOS as the frame of R258 cleared it. -/
theorem Ran.eos_of_ok {i : Instr} {s t : State} {result : Word} (ran : Ran i s (.ok result t)) : t.eos = s.eos := by
  cases ran <;> rfl

theorem Ran.eos_of_endOfStream {i : Instr} {s t : State} (ran : Ran i s (.raised .endOfStream t)) : t.eos = true := by
  cases ran with
  | rbitEnd | rbyteEnd => rfl
  | expandRejected _ _ kind => simp at kind

theorem Ran.olen_of_malformedArtifact {i : Instr} {s t : State} (ran : Ran i s (.raised .malformedArtifact t)) :
    t.olen = 0#32 := by
  cases ran
  rfl

/-- Only an exhaustion sets EOS (R27, R232). -/
theorem Ran.kind_of_eos {i : Instr} {s t : State} {k : ErrKind} (ran : Ran i s (.raised k t)) (hbefore : s.eos = false)
    (hafter : t.eos = true) : k = .endOfStream ∨ k = .malformedArtifact := by
  cases ran with
  | rbitEnd | rbyteEnd => exact .inl rfl
  | expandRejected _ _ _ _ only => exact .inr (only (by simpa [hbefore] using hafter))
  | _ => exact Bool.noConfusion (hbefore.symm.trans hafter)

/-- Settles O13, over the two ends of a command. -/
theorem commandsReportTheListedKinds : Obligations.CommandsReportTheListedKinds := by
  intro i s hlive
  rcases exec_live_ends i hlive with ⟨result, t, ran, hend⟩ | ⟨k, t, ran, hend⟩
  · exact ⟨_, hend, fun h => absurd rfl h, nofun, nofun, nofun, nofun, nofun, nofun,
      fun heos => Bool.noConfusion (ran.eos_of_ok.symm.trans heos)⟩
  · refine ⟨_, hend, fun _ => rfl, ?_, ?_, ?_, fun h => ran.kind_ne (Option.some.inj h), ?_, ?_,
      fun heos => (ran.kind_of_eos rfl heos).imp (congrArg some) (congrArg some)⟩
    · rintro ⟨⟩; exact ran.raisedBy
    · rintro ⟨⟩; exact ⟨ran.raisedBy, ran.eos_of_endOfStream⟩
    · rintro ⟨⟩; exact ⟨ran.raisedBy, ran.olen_of_malformedArtifact⟩
    · rintro ⟨⟩; exact ran.raisedBy
    · rintro ⟨⟩; exact ran.raisedBy

/-! ## What an error leaves -/

/-- An error leaves the state the command began in, EOS apart, unless EXPAND got past its precondition (R259). -/
theorem Ran.eq_of_raised {i : Instr} {s t : State} {k : ErrKind} (ran : Ran i s (.raised k t))
    (h : i ≠ .expand ∨ k = .illegalCommand) : ∃ e, t = { s with eos := e } := by
  cases ran with
  | rbitEnd | rbyteEnd => exact ⟨true, rfl⟩
  | expandRejected _ _ kind => rcases kind with rfl | rfl <;> simp at h
  | _ => exact ⟨s.eos, rfl⟩

/-- An EXPAND that fails past its precondition drops its output and its scratch, and leaves the reader between bytes
(R232, R259). -/
theorem Ran.expand_of_raised {s t : State} {k : ErrKind} (ran : Ran .expand s (.raised k t)) (hk : k ≠ .illegalCommand) :
    ∃ (e : Bool) (d : Decoder), Fetched s.rd d.rd ∧ t = { s with
      eos := e, olen := 0#32, obuf := s.obuf.forget, rd := d.rd.dropBits, huf := d.huf.discard } := by
  cases ran with
  | expandIllegal => exact absurd rfl hk
  | expandRejected _ d _ exhausted _ fetched => exact ⟨s.eos || exhausted, d, fetched, rfl⟩

/-- Settles O18: FATAL = 1 refuses the command, and otherwise its pseudocode raised the kind. -/
theorem errorsLeaveTheListedState : Obligations.ErrorsLeaveTheListedState := by
  intro i s t k hexec herr
  refine ⟨fun hfatal => ?_, fun hlive hkind => ?_, fun hlive hi hk => ?_⟩
  · obtain rfl := Host.Outcome.next.inj ((exec_fatal i hfatal).symm.trans hexec)
    obtain rfl := Option.some.inj herr
    rfl
  · obtain ⟨u, ran, rfl⟩ := exec_live_raised hlive hexec herr
    obtain ⟨e, rfl⟩ := ran.eq_of_raised hkind
    rfl
  · subst hi
    obtain ⟨u, ran, rfl⟩ := exec_live_raised hlive hexec herr
    obtain ⟨e, d, hfetched, rfl⟩ := ran.expand_of_raised hk
    exact ⟨rfl, fun _ => rfl, rfl, hfetched.suffix, scratchUnspecified_discard _⟩

/-! ## FATAL -/

/-- Settles O12: the frame of every command tests FATAL first. -/
theorem fatalRefusesEveryCommand : Obligations.FatalRefusesEveryCommand := fun i _ hfatal => exec_fatal i hfatal

theorem Ran.fatal_of_ok {i : Instr} {s t : State} {result : Word} (ran : Ran i s (.ok result t)) : t.fatal = s.fatal := by
  cases ran <;> rfl

theorem Ran.fatal_of_raised {i : Instr} {s t : State} {k : ErrKind} (ran : Ran i s (.raised k t)) :
    t.fatal = s.fatal := by
  cases ran <;> rfl

theorem exec_fatal_of_live {i : Instr} {s t : State} (hlive : s.fatal = false) (hexec : exec i s = .next t) :
    t.fatal = false := by
  rcases exec_live_ends i hlive with ⟨_, u, ran, hend⟩ | ⟨_, u, ran, hend⟩ <;>
    obtain rfl := Host.Outcome.next.inj (hend.symm.trans hexec)
  · exact ran.fatal_of_ok.trans hlive
  · exact ran.fatal_of_raised.trans hlive

/-- An illegal word is reported as IllegalCommand, which leaves FATAL alone (R95, R255). -/
theorem illegalWord_fatal_of_live {s : State} (hlive : s.fatal = false) : (illegalWord s).fatal = false := by
  rw [illegalWord, runCommand_live _ hlive]
  simp [report, hlive]

/-- Settles O14, over everything a step can do: only a command, an illegal word and reset could write FATAL. -/
theorem fatalIsNeverSet : Obligations.FatalIsNeverSet := by
  intro s t hstep hlive
  cases step_cases hstep with
  | command _ rest _ _ _ _ run => exact exec_fatal_of_live (s := s.taking rest) hlive run
  | illegal => exact illegalWord_fatal_of_live hlive
  | reset => rfl
  | _ => exact hlive

/-! ## No move of the HOST -/

/-- Settles O5: with an empty script the HOST's step is the idle one. -/
theorem idleEngineKeepsState : Obligations.IdleEngineKeepsState := by
  intro s hscript
  rw [step, hostStep, hscript]

end Sys2Proof.Machine

namespace Sys2Proof.Machine

/-! ## What the HOST cannot reach -/

/-- Settles O9, over everything a step can do: the other moves write only ARG, LEN, IBUF, SRC and the HOST itself. -/
theorem hostMovesKeepHiddenState : Obligations.HostMovesKeepHiddenState := by
  intro s t m rest hscript hcmd hreset hstep
  have head {m' : HostMove} {rest' : List HostMove} (h : s.host.script = m' :: rest') : m = m' ∧ rest = rest' :=
    List.cons.inj (hscript.symm.trans h)
  cases step_cases hstep with
  | idle script => exact absurd (hscript.symm.trans script) (List.cons_ne_nil _ _)
  | command v _ _ _ script | illegal v _ script => exact absurd (head script).left (hcmd v)
  | reset src _ script => exact absurd (head script).left (hreset src)
  | writeArg _ _ script | writeLen _ _ script | writeIgnored _ _ _ script | read _ _ _ script
  | writeIbuf _ _ _ script | noSuchByte _ _ _ script | supply _ _ _ script =>
    obtain ⟨-, rfl⟩ := head script
    exact ⟨rfl, rfl, rfl, rfl, rfl, rfl, rfl, rfl, rfl, rfl, rfl, rfl, rfl⟩

/-! ## The HOST's accesses to the buffers -/

theorem hasIndex_of_lt {s : State} {k : Nat} (h : k < s.nmax.toNat) : s.hasIndex k = true := decide_eq_true h

theorem not_hasIndex_of_le {s : State} {k : Nat} (h : s.nmax.toNat ≤ k) : ¬ s.hasIndex k = true := by
  simpa [State.hasIndex] using h

theorem hostMove_writeIbuf_of_lt {s : State} {k : Nat} (h : k < s.nmax.toNat) (v : Byte) :
    hostMove (.writeIbuf k v) s = .next { s with ibuf := s.ibuf.set k v } := if_pos (hasIndex_of_lt h)

theorem hostMove_writeIbuf_of_le {s : State} {k : Nat} (h : s.nmax.toNat ≤ k) (v : Byte) :
    hostMove (.writeIbuf k v) s = .next s := if_neg (not_hasIndex_of_le h)

theorem hostMove_readIbuf_of_lt {s : State} {k : Nat} (h : k < s.nmax.toNat) :
    hostMove (.readIbuf k) s = .next (s.see (.byte (s.ibufAt k))) := if_pos (hasIndex_of_lt h)

theorem hostMove_readIbuf_of_le {s : State} {k : Nat} (h : s.nmax.toNat ≤ k) :
    hostMove (.readIbuf k) s = .fault .noSuchBufferByte := if_neg (not_hasIndex_of_le h)

theorem hostMove_readObuf_of_lt {s : State} {k : Nat} (h : k < s.nmax.toNat) :
    hostMove (.readObuf k) s = .next (s.see (.byte (s.obufAt k))) := if_pos (hasIndex_of_lt h)

theorem hostMove_readObuf_of_le {s : State} {k : Nat} (h : s.nmax.toNat ≤ k) :
    hostMove (.readObuf k) s = .fault .noSuchBufferByte := if_neg (not_hasIndex_of_le h)

/-! ## The HOST's accesses to the streams -/

theorem snkSlice_of_emitted {s : State} {a b : Nat} (h : a ≤ b ∧ b ≤ s.wr.snk.length) :
    s.snkSlice a b = some ((s.wr.snk.drop a).take (b - a)) := if_pos h

theorem snkSlice_of_not_emitted {s : State} {a b : Nat} (h : b < a ∨ s.wr.snk.length < b) :
    s.snkSlice a b = none := if_neg (by omega)

theorem hostMove_readSnk_of_some {s : State} {a b : Nat} {bytes : List Byte} (h : s.snkSlice a b = some bytes) :
    hostMove (.readSnk a b) s = .next (s.see (.bytes bytes)) := by rw [hostMove, h]

theorem hostMove_readSnk_of_none {s : State} {a b : Nat} (h : s.snkSlice a b = none) :
    hostMove (.readSnk a b) s = .fault .notYetEmitted := by rw [hostMove, h]

theorem hostMove_feedSnk_of_some {s : State} {a b : Nat} {bytes : List Byte} (h : s.snkSlice a b = some bytes) :
    hostMove (.feedSnk a b) s = .next { s with rd := { s.rd with src := s.rd.src ++ bytes } } := by rw [hostMove, h]

theorem hostMove_feedSnk_of_none {s : State} {a b : Nat} (h : s.snkSlice a b = none) :
    hostMove (.feedSnk a b) s = .fault .notYetEmitted := by rw [hostMove, h]

/-- Settles O8: the step is the access at the script's head, on either side of NMAX or of the bytes emitted. -/
theorem hostBufferAndStreamMoves : Obligations.HostBufferAndStreamMoves := by
  intro s rest k v bytes a b after
  refine ⟨fun hscript => ?_, fun hscript => ?_, fun hscript => ?_, fun hscript => ?_, fun hscript => ?_,
    fun hscript => ?_, fun hscript => ?_⟩ <;> rw [step_of_script hscript]
  · exact ⟨fun h => ⟨s.ibuf.set k v, hostMove_writeIbuf_of_lt (s := after) h v, Memory.get?_set_same _ _ _,
      fun _ hj => Memory.get?_set_other _ _ hj⟩, fun h => hostMove_writeIbuf_of_le (s := after) h v⟩
  · exact ⟨hostMove_readIbuf_of_lt (s := after), hostMove_readIbuf_of_le (s := after)⟩
  · exact ⟨hostMove_readObuf_of_lt (s := after), hostMove_readObuf_of_le (s := after)⟩
  · rfl
  · rfl
  · exact ⟨fun h => hostMove_readSnk_of_some (s := after) (snkSlice_of_emitted h),
      fun h => hostMove_readSnk_of_none (s := after) (snkSlice_of_not_emitted h)⟩
  · exact ⟨fun h => hostMove_feedSnk_of_some (s := after) (snkSlice_of_emitted h),
      fun h => hostMove_feedSnk_of_none (s := after) (snkSlice_of_not_emitted h)⟩

/-! ## Reset -/

/-- STAT is 0 when each of its fields is (R27, R291). -/
theorem stat_eq_zero {s : State} (herr : s.err = none) (hvalid : s.css.svalid = false) (hfatal : s.fatal = false)
    (heos : s.eos = false) (hwcnt : s.wr.cnt = 0#3) (hrcnt : s.rd.cnt = 0#4) : s.stat = 0#32 := by
  rw [State.stat, errCode_of_none herr, hvalid, hfatal, heos, hwcnt, hrcnt]
  rfl

/-- Settles O10: the values are those `State.reset` gives, and with SLEN = 0 LENGTH is 0 and no rank is in range. -/
theorem resetStateValues : Obligations.ResetStateValues := by
  have hstat : State.reset.stat = 0#32 := stat_eq_zero rfl rfl rfl rfl rfl rfl
  have hlength : exec .length State.reset = .next { State.reset with res := 0#32 } := exec_length_of_live rfl
  have hsufstart (v : Word) : exec .sufstart (State.reset.withArg v) =
      .next { State.reset.withArg v with err := some .indexOutOfRange, res := 0#32 } :=
    exec_sufstart_of_ge rfl (Nat.zero_le _)
  exact ⟨rfl, rfl, rfl, hstat, rfl, rfl, rfl, rfl, rfl, rfl, rfl, rfl, rfl, rfl, rfl, rfl, hlength, hsufstart,
    ⟨_, rfl⟩, ⟨_, rfl⟩, ⟨_, rfl⟩⟩

theorem hostMove_reset (s : State) (src : List Byte) : hostMove (.reset src) s = .next (s.afterReset src) := rfl

/-- Settles O11: the step is the reset move at the script's head, and `afterReset` clears field by field. -/
theorem resetMoveClearsEverything : Obligations.ResetMoveClearsEverything := by
  intro s src rest hscript
  have hstep : step s = .next ((s.taking rest).afterReset src) :=
    (step_of_script hscript).trans (hostMove_reset (s.taking rest) src)
  exact ⟨_, hstep, rfl, rfl, rfl, rfl, stat_eq_zero rfl rfl rfl rfl rfl rfl, rfl, rfl, rfl, rfl, rfl, rfl, rfl, rfl,
    rfl, rfl, rfl, rfl, scratchUnspecified_discard _, rfl, rfl,
    fun k => ⟨Memory.get?_forget _ k, Memory.get?_forget _ k, Memory.get?_forget _ k, Memory.get?_forget _ k⟩⟩

/-- Settles O57: nothing is specified in the memories and the scratch, and the counters and lengths are 0. -/
theorem resetMeetsTheInvariant : Obligations.ResetMeetsTheInvariant where
  ibufWf := Memory.wf_blank
  obufWf := Memory.wf_blank
  dbWf := Memory.wf_blank
  idxWf := Memory.wf_blank
  ibufBound := fun k _ => Memory.get?_blank k
  obufValid := fun _ hk => absurd hk (Nat.not_lt_zero _)
  olenBound := Nat.zero_le _
  released := fun _ => rfl
  slenBound := Nat.zero_le _
  sorted := fun hvalid => Bool.noConfusion hvalid
  workEmpty := rfl
  writerTop := Nat.one_pos
  readerCount := Nat.zero_le _
  scratch := ⟨rfl, rfl, rfl, ⟨_, rfl⟩, ⟨_, rfl⟩, ⟨_, rfl⟩⟩

end Sys2Proof.Machine
